-- ==== Sys2Proof/Word.lean ====
section
/-! DEFINITION. The words of the block: 32-bit bus addresses and data words (spec/00_scope.md R8 XLEN), bytes,
the 40-bit request key (spec/30_encoding.md R55) and the 64-bit statistics counters (R8 STAT_WIDTH). -/

namespace Sys2Proof

/-- A bus address, a data word or a CSR value (R8: XLEN = 32). -/
abbrev Word := BitVec 32

/-- One byte of RAM, of the backing store or of a console stream. -/
abbrev Byte := BitVec 8

/-- The request key that names a transaction (R55). -/
abbrev Key := BitVec 40

/-- A statistics counter (R8: STAT_WIDTH = 64). -/
abbrev Counter := BitVec 64

end Sys2Proof
end

