-- ==== Sys2Proof/Config.lean ====
section
/-! DEFINITION. The implementation parameters of spec/00_scope.md R8 and R9. The spec leaves most of them OPEN ("A
model takes each as an argument"), so a `Config` is a record the machine carries unchanged and every statement
quantifies over (DESIGN CHOICE, log 1). -/

namespace Sys2Proof

/-- The store policy of R8: `writeBack` is the source's, `writeThrough` the option the spec adds (R86). -/
inductive WritePolicy where
  | writeBack
  | writeThrough
deriving DecidableEq, Repr

/-- The parameters of R8. `lsBits` is LS_BITS, with LINE_SIZE = 2 ^ LS_BITS. -/
structure Config where
  ramSize        : Nat
  ramImageOffset : Word
  lsBits         : Nat
  numLines       : Nat
  writePolicy    : WritePolicy
  noDataSentinel : Word
  failCode       : Word
  restartCode    : Word
  poweroffCode   : Word
deriving DecidableEq, Repr

/-- LINE_SIZE (R8). -/
def Config.lineSize (c : Config) : Nat := 2 ^ c.lsBits

/-- DEV_BASE (R8): the first address of the console device window. -/
def devBase : Word := 0x10000000#32

/-- DEV_SIZE (R8): the bytes of the device window. -/
def devSize : Nat := 8

/-- The constraints R8 and R9 put on the parameters; "a configuration that violates it is refused" (R9). -/
abbrev Config.wf (c : Config) : Prop :=
  2 ≤ c.lsBits ∧
  c.ramSize % c.lineSize = 0 ∧ c.lineSize ≤ c.ramSize ∧
  c.ramImageOffset.toNat + c.ramSize ≤ 2 ^ 32 ∧
  1 ≤ c.numLines ∧
  (c.ramImageOffset.toNat + c.ramSize ≤ devBase.toNat ∨
    devBase.toNat + devSize ≤ c.ramImageOffset.toNat) ∧
  c.noDataSentinel.msb = true ∧
  c.restartCode ∉ [0#32, 1#32, 3#32] ∧
  c.poweroffCode ∉ [0#32, 1#32, 3#32, c.restartCode] ∧
  c.failCode ∉ [0#32, 1#32, 3#32, c.restartCode, c.poweroffCode]

/-- The parameters of the machine `State.reset` describes. DESIGN CHOICE (log 1): the spec leaves RAM_SIZE,
RAM_IMAGE_OFFSET, LINE_SIZE, NUM_LINES and the step codes OPEN; the first three are its examples. WRITE_BACK and the
sentinel are the spec's defaults. -/
def Config.standard : Config where
  ramSize        := 0x1000000
  ramImageOffset := 0x80000000#32
  lsBits         := 9
  numLines       := 16
  writePolicy    := .writeBack
  noDataSentinel := 0xFFFFFFFF#32
  failCode       := 0xFFFFFFFE#32
  restartCode    := 0x100#32
  poweroffCode   := 0x101#32

end Sys2Proof
end

