-- ==== Sys2Proof/Syntax.lean ====
section
/-! DEFINITION. The transactions of the block as syntax: the request ports and commands of spec/30_encoding.md R56,
the access widths of R57, a request (a key and its data word on a port, R55), and `Instr`, one constructor per row of
spec/opcode_table.json. An operand a row ignores (the rsv bits, size outside LOAD and STORE, the data word of a
command that takes none) is no field of its constructor (log 22). -/

namespace Sys2Proof

/-- The ports a request may arrive on (R56). -/
inductive Port where
  | core
  | control
  | console
deriving DecidableEq, Repr

/-- The commands 0x0 to 0xA of R56. -/
inductive Cmd where
  | fetch
  | load
  | store
  | csrRead
  | csrWrite
  | postExec
  | flushAll
  | evictAll
  | getStats
  | pollInput
  | restart
deriving DecidableEq, Repr

/-- The access widths `.B`, `.H`, `.W` of R57. -/
inductive Width where
  | byte
  | half
  | word
deriving DecidableEq, Repr

/-- A transaction as presented to the block (R55): its port, its 40-bit key and its data word. -/
structure Request where
  port  : Port
  key   : Key
  wdata : Word
deriving DecidableEq, Repr

/-- The rows of spec/opcode_table.json, in the table's order. Operands: `a` a bus address (or the a field of a
reserved key), `v` the data word, `w` the access width, `reg` the low three address bits inside the device window,
`n` a CSR number. -/
inductive Instr where
  /-- RESERVED.cmd_B (R71) -/
  | reservedCmdB (port : Port) (a : Word)
  /-- RESERVED.cmd_C_to_F (R71); `low` is cmd[1:0] -/
  | reservedCmdCToF (port : Port) (low : BitVec 2) (a : Word)
  /-- RESERVED.LOAD.size11 (R71) -/
  | reservedLoadSize11 (a : Word)
  /-- RESERVED.STORE.size11 (R71) -/
  | reservedStoreSize11 (a : Word)
  /-- RESERVED.CSRR.wide_number (R71) -/
  | reservedCsrrWide (a : Word)
  /-- RESERVED.CSRW.wide_number (R71) -/
  | reservedCsrwWide (a : Word)
  /-- RESERVED.wrong_port (R71) -/
  | reservedWrongPort (port : Port) (cmd : Cmd) (a : Word)
  /-- STORE.dev.uart_tx (R113) -/
  | storeUartTx (w : Width) (v : Word)
  /-- LOAD.dev.uart_rx (R114) -/
  | loadUartRx (w : Width)
  /-- LOAD.dev.uart_rx_empty (R115) -/
  | loadUartRxEmpty (w : Width)
  /-- LOAD.dev.uart_lsr (R116) -/
  | loadUartLsr (w : Width)
  /-- CSRW.0x136, DBG_DEC (R131) -/
  | csrwDbgDec (v : Word)
  /-- CSRW.0x137, DBG_HEX (R132) -/
  | csrwDbgHex (v : Word)
  /-- CSRW.0x138, DBG_STR (R133) -/
  | csrwDbgStr (v : Word)
  /-- CSRW.0x139, DBG_CHR (R134) -/
  | csrwDbgChr (v : Word)
  /-- CSRR.0x140, DBG_IN (R135) -/
  | csrrDbgIn
  /-- LOAD.dev.default (R117) -/
  | loadDevDefault (w : Width) (reg : BitVec 3)
  /-- STORE.dev.default (R117) -/
  | storeDevDefault (w : Width) (reg : BitVec 3) (v : Word)
  /-- CSRR.default (R136) -/
  | csrrDefault (n : BitVec 12)
  /-- CSRW.default (R136) -/
  | csrwDefault (n : BitVec 12) (v : Word)
  /-- FETCH.ram (R90) -/
  | fetchRam (a : Word)
  /-- LOAD.B.ram (R91) -/
  | loadBRam (a : Word)
  /-- LOAD.H.ram (R92) -/
  | loadHRam (a : Word)
  /-- LOAD.W.ram (R93) -/
  | loadWRam (a : Word)
  /-- STORE.B.ram (R94) -/
  | storeBRam (a v : Word)
  /-- STORE.H.ram (R95) -/
  | storeHRam (a v : Word)
  /-- STORE.W.ram (R96) -/
  | storeWRam (a v : Word)
  /-- FETCH.nonram (R119) -/
  | fetchNonram (a : Word)
  /-- LOAD.unmapped (R118) -/
  | loadUnmapped (w : Width) (a : Word)
  /-- STORE.unmapped (R118) -/
  | storeUnmapped (w : Width) (a v : Word)
  /-- POST_EXEC (R150): the instruction word and the step-result code -/
  | postExec (insn code : Word)
  /-- FLUSH_ALL (R97) -/
  | flushAll
  /-- EVICT_ALL (R98) -/
  | evictAll
  /-- GET_STATS (R99) -/
  | getStats
  /-- POLL_INPUT (R137) -/
  | pollInput (b : Byte)
  /-- RESTART (R193) -/
  | restart
deriving DecidableEq, Repr

end Sys2Proof
end

