-- ==== Sys2Proof/Machine/Operands.lean ====
section
/-! DEFINITION. Operand assembly: address translation and classification (spec/20_memory.md R41 to R44,
spec/41_bus_decode.md R110), line decomposition (R43), little-endian byte sequences (spec/00_scope.md R10, R46),
width truncation (spec/30_encoding.md R59, R68), and the text formats of DBG_DEC, DBG_HEX and the UART
(spec/42_csr_mux.md R131, R132, spec/41_bus_decode.md R113). -/

namespace Sys2Proof

/-! ### Addresses -/

/-- `off(a) = a -32 RAM_IMAGE_OFFSET` (R41): the RAM offset of a bus address. -/
def Config.off (c : Config) (a : Word) : Nat := (a - c.ramImageOffset).toNat

/-- A bus address in the RAM window (R41). -/
def Config.inRam (c : Config) (a : Word) : Bool := decide (c.off a < c.ramSize)

/-- A bus address in the device window: `a[31:3] = 0x0200_0000` (R44). -/
def inDevice (a : Word) : Bool := a.extractLsb' 3 29 == 0x02000000#29

/-- The three regions of R110. -/
inductive Region where
  | device
  | ram
  | unmapped
deriving DecidableEq, Repr

/-- `region(a)` (R110); only the start address is classified. -/
def Config.region (c : Config) (a : Word) : Region :=
  if inDevice a then .device else if c.inRam a then .ram else .unmapped

/-- `tag(o) = o - (o mod LINE_SIZE)` (R43). -/
def Config.tagOf (c : Config) (o : Nat) : Nat := o - o % c.lineSize

/-- `idx(o) = o mod LINE_SIZE` (R43). -/
def Config.idxOf (c : Config) (o : Nat) : Nat := o % c.lineSize

/-- One piece of an access: the line's tag, the first byte's index in the line, the byte count (R43). -/
structure Piece where
  tag   : Nat
  first : Nat
  count : Nat
deriving DecidableEq, Repr

/-- `pieces(o, n)`: at most two pieces, the lower-addressed line first (R43). -/
def Config.pieces (c : Config) (o n : Nat) : List Piece :=
  if c.idxOf o + n ≤ c.lineSize then [⟨c.tagOf o, c.idxOf o, n⟩]
  else
    let k := c.lineSize - c.idxOf o
    [⟨c.tagOf o, c.idxOf o, k⟩, ⟨c.tagOf o + c.lineSize, 0, n - k⟩]

/-! ### Byte sequences -/

/-- `le_bytes_n(v)`: byte `i` is `v[8i+7:8i]` (R10). -/
def leBytes (n : Nat) (v : Word) : List Byte := (List.range n).map fun i => v.extractLsb' (8 * i) 8

/-- `le_value(s)`: the sum over `i` of `s[i] * 2^(8i)` (R10). -/
def leValue : List Byte → Nat
  | [] => 0
  | b :: s => b.toNat + 256 * leValue s

/-- The little-endian value of at most four bytes as `zext_32` of it (R60, R68). -/
def leWord (s : List Byte) : Word := BitVec.ofNat 32 (leValue s)

/-- The bytes an access of a width moves (R57). -/
def Width.bytes : Width → Nat
  | .byte => 1
  | .half => 2
  | .word => 4

/-- `zext_32(v[8n-1:0])` (R68, R113). -/
def Width.narrow (w : Width) (v : Word) : Word := (v.setWidth (8 * w.bytes)).setWidth 32

/-- A line buffer with the bytes `bytes` copied in from index `first` on (R88). -/
def splice (line : List Byte) (first : Nat) (bytes : List Byte) : List Byte :=
  line.take first ++ bytes ++ line.drop (first + bytes.length)

/-! ### Console text -/

/-- The bytes STORE to UART_DATA emits: of the four bytes of `zext_32(wdata[8n-1:0])`, byte 0 first, those before
the first NUL (R113). -/
def uartBytes (w : Width) (v : Word) : List Byte := (leBytes 4 (w.narrow v)).takeWhile (· != 0#8)

/-- The decimal digits of `n`, most significant first, put before `acc`; `fuel` bounds how many. -/
def decDigits : Nat → Nat → List Byte → List Byte
  | 0, _, acc => acc
  | fuel + 1, n, acc =>
    let acc' := BitVec.ofNat 8 (0x30 + n % 10) :: acc
    if n / 10 = 0 then acc' else decDigits fuel (n / 10) acc'

/-- The signed decimal text of DBG_DEC (R131). Ten digits hold every `|x| ≤ 2^31`. -/
def decText (v : Word) : List Byte :=
  if v.toInt < 0 then 0x2D#8 :: decDigits 10 v.toInt.natAbs [] else decDigits 10 v.toInt.natAbs []

/-- A hexadecimal digit in lower case (R132). -/
def hexDigit (d : Nat) : Byte := if d < 10 then BitVec.ofNat 8 (0x30 + d) else BitVec.ofNat 8 (0x61 + (d - 10))

/-- The eight hexadecimal digits of DBG_HEX, most significant first (R132). -/
def hexText (v : Word) : List Byte :=
  [7, 6, 5, 4, 3, 2, 1, 0].map fun k => hexDigit (v.extractLsb' (4 * k) 4).toNat

end Sys2Proof
end

