-- ==== Sys2Proof/WellFormed.lean ====
section
/-! DEFINITION. Which instructions the decoder can give. A row of spec/opcode_table.json may carry a condition on the
pending-input flag or on the RAM window, so well-formedness is stated in a decode context (spec/30_encoding.md R69). -/

namespace Sys2Proof

/-- What the table's conditions look at beside the request: the parameters and pend_valid. -/
structure DecodeCtx where
  cfg       : Config
  pendValid : Bool
deriving DecidableEq, Repr

/-- The port R56 names for a command. -/
def Cmd.port : Cmd → Port
  | .fetch | .load | .store | .csrRead | .csrWrite | .postExec => .core
  | .flushAll | .evictAll | .getStats | .restart => .control
  | .pollInput => .console

/-- The conditions a row's operands meet: the ones the table states, and that no row of a lower priority number
takes the same key. -/
def Instr.wellFormed (c : DecodeCtx) : Instr → Bool
  | .reservedCmdB _ _ => true
  | .reservedCmdCToF _ _ _ => true
  | .reservedLoadSize11 _ => true
  | .reservedStoreSize11 _ => true
  | .reservedCsrrWide a => a.extractLsb' 12 20 != 0#20
  | .reservedCsrwWide a => a.extractLsb' 12 20 != 0#20
  | .reservedWrongPort p cmd _ => p != cmd.port
  | .storeUartTx _ _ => true
  | .loadUartRx _ => c.pendValid
  | .loadUartRxEmpty _ => !c.pendValid
  | .loadUartLsr _ => true
  | .csrwDbgDec _ => true
  | .csrwDbgHex _ => true
  | .csrwDbgStr _ => true
  | .csrwDbgChr _ => true
  | .csrrDbgIn => true
  | .loadDevDefault _ reg => reg != 0#3 && reg != 5#3
  | .storeDevDefault _ reg _ => reg != 0#3
  | .csrrDefault n => n != 0x140#12
  | .csrwDefault n _ => !([0x136#12, 0x137#12, 0x138#12, 0x139#12].contains n)
  | .fetchRam a => c.cfg.inRam a
  | .loadBRam a => c.cfg.region a == .ram
  | .loadHRam a => c.cfg.region a == .ram
  | .loadWRam a => c.cfg.region a == .ram
  | .storeBRam a _ => c.cfg.region a == .ram
  | .storeHRam a _ => c.cfg.region a == .ram
  | .storeWRam a _ => c.cfg.region a == .ram
  | .fetchNonram a => !c.cfg.inRam a
  | .loadUnmapped _ a => c.cfg.region a == .unmapped
  | .storeUnmapped _ a _ => c.cfg.region a == .unmapped
  | .postExec _ _ => true
  | .flushAll => true
  | .evictAll => true
  | .getStats => true
  | .pollInput _ => true
  | .restart => true

end Sys2Proof
end

