-- ==== Sys2Proof/Decode.lean ====
section
/-! DEFINITION. The decoder of spec/30_encoding.md R55 to R58 and R69, total on every request, and the encoder
written from the same fields; beside them the rows of spec/opcode_table.json as data, so that the decoder can be held
against the table. The pending-input flag and the RAM window are conditions of rows, so both take a `DecodeCtx`. -/

namespace Sys2Proof

/-! ### The key's fields (R55) -/

/-- `cmd = key[39:36]`. -/
def keyCmd (k : Key) : BitVec 4 := k.extractLsb' 36 4

/-- `size = key[35:34]`. -/
def keySize (k : Key) : BitVec 2 := k.extractLsb' 34 2

/-- `a = key[31:0]`. -/
def keyAddr (k : Key) : Word := k.extractLsb' 0 32

/-- The key with the given fields; the rsv bits are written 0. -/
def mkKey (cmd : BitVec 4) (size : BitVec 2) (a : Word) : Key := cmd ++ size ++ 0#2 ++ a

/-- The code of a command (R56). -/
def Cmd.code : Cmd → BitVec 4
  | .fetch => 0x0
  | .load => 0x1
  | .store => 0x2
  | .csrRead => 0x3
  | .csrWrite => 0x4
  | .postExec => 0x5
  | .flushAll => 0x6
  | .evictAll => 0x7
  | .getStats => 0x8
  | .pollInput => 0x9
  | .restart => 0xA

/-- The command of a code; none for the reserved codes 0xB to 0xF (R56). -/
def Cmd.ofCode (c : BitVec 4) : Option Cmd :=
  match c.toNat with
  | 0x0 => some .fetch
  | 0x1 => some .load
  | 0x2 => some .store
  | 0x3 => some .csrRead
  | 0x4 => some .csrWrite
  | 0x5 => some .postExec
  | 0x6 => some .flushAll
  | 0x7 => some .evictAll
  | 0x8 => some .getStats
  | 0x9 => some .pollInput
  | 0xA => some .restart
  | _ => none

/-- The size code of a width (R57). -/
def Width.code : Width → BitVec 2
  | .byte => 0
  | .half => 1
  | .word => 2

/-- The width of a size code; none for the reserved code 11 (R57). -/
def Width.ofCode (c : BitVec 2) : Option Width :=
  match c.toNat with
  | 0 => some .byte
  | 1 => some .half
  | 2 => some .word
  | _ => none

/-! ### The decoder (R69) -/

/-- LOAD rows in the order of R69. -/
def decodeLoad (c : DecodeCtx) (size : BitVec 2) (a : Word) : Instr :=
  match Width.ofCode size with
  | none => .reservedLoadSize11 a
  | some w =>
    if a = devBase then if c.pendValid then .loadUartRx w else .loadUartRxEmpty w
    else if a = devBase + 5#32 then .loadUartLsr w
    else match c.cfg.region a with
      | .device => .loadDevDefault w (a.extractLsb' 0 3)
      | .ram => match w with
        | .byte => .loadBRam a
        | .half => .loadHRam a
        | .word => .loadWRam a
      | .unmapped => .loadUnmapped w a

/-- STORE rows in the order of R69. -/
def decodeStore (c : DecodeCtx) (size : BitVec 2) (a v : Word) : Instr :=
  match Width.ofCode size with
  | none => .reservedStoreSize11 a
  | some w =>
    if a = devBase then .storeUartTx w v
    else match c.cfg.region a with
      | .device => .storeDevDefault w (a.extractLsb' 0 3) v
      | .ram => match w with
        | .byte => .storeBRam a v
        | .half => .storeHRam a v
        | .word => .storeWRam a v
      | .unmapped => .storeUnmapped w a v

/-- CSR_READ rows; the CSR number is `a[11:0]` and `a[31:12]` must be 0 (R58). -/
def decodeCsrRead (a : Word) : Instr :=
  if a.extractLsb' 12 20 ≠ 0#20 then .reservedCsrrWide a
  else
    let n := a.extractLsb' 0 12
    if n = 0x140#12 then .csrrDbgIn else .csrrDefault n

/-- CSR_WRITE rows. -/
def decodeCsrWrite (a v : Word) : Instr :=
  if a.extractLsb' 12 20 ≠ 0#20 then .reservedCsrwWide a
  else
    let n := a.extractLsb' 0 12
    if n = 0x136#12 then .csrwDbgDec v
    else if n = 0x137#12 then .csrwDbgHex v
    else if n = 0x138#12 then .csrwDbgStr v
    else if n = 0x139#12 then .csrwDbgChr v
    else .csrwDefault n v

/-- The row of a request (R69). A reserved command belongs to every port (R56), so it is never a wrong-port key. -/
def decode (c : DecodeCtx) (r : Request) : Instr :=
  let a := keyAddr r.key
  match Cmd.ofCode (keyCmd r.key) with
  | none =>
    if keyCmd r.key = 0xB#4 then .reservedCmdB r.port a
    else .reservedCmdCToF r.port ((keyCmd r.key).extractLsb' 0 2) a
  | some cmd =>
    if r.port ≠ cmd.port then .reservedWrongPort r.port cmd a
    else match cmd with
      | .fetch => if c.cfg.inRam a then .fetchRam a else .fetchNonram a
      | .load => decodeLoad c (keySize r.key) a
      | .store => decodeStore c (keySize r.key) a r.wdata
      | .csrRead => decodeCsrRead a
      | .csrWrite => decodeCsrWrite a r.wdata
      | .postExec => .postExec a r.wdata
      | .flushAll => .flushAll
      | .evictAll => .evictAll
      | .getStats => .getStats
      | .pollInput => .pollInput (r.wdata.setWidth 8)
      | .restart => .restart

/-! ### The encoder (R55 to R58) -/

/-- A request on the port of its command. -/
def Cmd.request (cmd : Cmd) (size : BitVec 2) (a wdata : Word) : Request :=
  ⟨cmd.port, mkKey cmd.code size a, wdata⟩

/-- A bus address inside the device window (R44). -/
def devAddr (reg : BitVec 3) : Word := 0x02000000#29 ++ reg

/-- A CSR number as the a field (R58). -/
def csrAddr (n : BitVec 12) : Word := 0#20 ++ n

/-- The request of an instruction. Fields the row ignores are written 0. -/
def encode : Instr → Request
  | .reservedCmdB p a => ⟨p, mkKey 0xB#4 0#2 a, 0#32⟩
  | .reservedCmdCToF p low a => ⟨p, mkKey (3#2 ++ low) 0#2 a, 0#32⟩
  | .reservedLoadSize11 a => Cmd.load.request 3#2 a 0#32
  | .reservedStoreSize11 a => Cmd.store.request 3#2 a 0#32
  | .reservedCsrrWide a => Cmd.csrRead.request 0#2 a 0#32
  | .reservedCsrwWide a => Cmd.csrWrite.request 0#2 a 0#32
  | .reservedWrongPort p cmd a => ⟨p, mkKey cmd.code 0#2 a, 0#32⟩
  | .storeUartTx w v => Cmd.store.request w.code devBase v
  | .loadUartRx w => Cmd.load.request w.code devBase 0#32
  | .loadUartRxEmpty w => Cmd.load.request w.code devBase 0#32
  | .loadUartLsr w => Cmd.load.request w.code (devBase + 5#32) 0#32
  | .csrwDbgDec v => Cmd.csrWrite.request 0#2 (csrAddr 0x136#12) v
  | .csrwDbgHex v => Cmd.csrWrite.request 0#2 (csrAddr 0x137#12) v
  | .csrwDbgStr v => Cmd.csrWrite.request 0#2 (csrAddr 0x138#12) v
  | .csrwDbgChr v => Cmd.csrWrite.request 0#2 (csrAddr 0x139#12) v
  | .csrrDbgIn => Cmd.csrRead.request 0#2 (csrAddr 0x140#12) 0#32
  | .loadDevDefault w reg => Cmd.load.request w.code (devAddr reg) 0#32
  | .storeDevDefault w reg v => Cmd.store.request w.code (devAddr reg) v
  | .csrrDefault n => Cmd.csrRead.request 0#2 (csrAddr n) 0#32
  | .csrwDefault n v => Cmd.csrWrite.request 0#2 (csrAddr n) v
  | .fetchRam a => Cmd.fetch.request 0#2 a 0#32
  | .loadBRam a => Cmd.load.request Width.byte.code a 0#32
  | .loadHRam a => Cmd.load.request Width.half.code a 0#32
  | .loadWRam a => Cmd.load.request Width.word.code a 0#32
  | .storeBRam a v => Cmd.store.request Width.byte.code a v
  | .storeHRam a v => Cmd.store.request Width.half.code a v
  | .storeWRam a v => Cmd.store.request Width.word.code a v
  | .fetchNonram a => Cmd.fetch.request 0#2 a 0#32
  | .loadUnmapped w a => Cmd.load.request w.code a 0#32
  | .storeUnmapped w a v => Cmd.store.request w.code a v
  | .postExec insn code => Cmd.postExec.request 0#2 insn code
  | .flushAll => Cmd.flushAll.request 0#2 0#32 0#32
  | .evictAll => Cmd.evictAll.request 0#2 0#32 0#32
  | .getStats => Cmd.getStats.request 0#2 0#32 0#32
  | .pollInput b => Cmd.pollInput.request 0#2 0#32 (b.setWidth 32)
  | .restart => Cmd.restart.request 0#2 0#32 0#32

/-! ### The opcode table as data -/

/-- The `condition` column of spec/opcode_table.json. -/
inductive RowCondition where
  | always
  | wideCsr
  | wrongPort
  | pending
  | notPending
  | inRam
  | notInRam
  | unmapped
deriving DecidableEq, Repr

/-- A row of spec/opcode_table.json; `port` is none for the table's `any`. -/
structure TableRow where
  mnemonic  : String
  value     : Key
  mask      : Key
  priority  : Nat
  port      : Option Port
  condition : RowCondition
deriving DecidableEq, Repr

/-- Whether a row's condition holds for a request. The unmapped rows' condition is "not in the RAM window and, for
LOAD/STORE, not in the device window". -/
def RowCondition.holds (c : DecodeCtx) (r : Request) : RowCondition → Bool
  | .always => true
  | .wideCsr => (keyAddr r.key).extractLsb' 12 20 != 0#20
  | .wrongPort =>
    match Cmd.ofCode (keyCmd r.key) with
    | some cmd => r.port != cmd.port
    | none => false
  | .pending => c.pendValid
  | .notPending => !c.pendValid
  | .inRam => c.cfg.inRam (keyAddr r.key)
  | .notInRam => !c.cfg.inRam (keyAddr r.key)
  | .unmapped => !c.cfg.inRam (keyAddr r.key) && !inDevice (keyAddr r.key)

/-- A row matches when `key & mask = match`, the port fits and the condition holds (R69). -/
def TableRow.fits (c : DecodeCtx) (r : Request) (row : TableRow) : Bool :=
  (r.key &&& row.mask == row.value) && (row.port == none || row.port == some r.port) && row.condition.holds c r

/-- The rows of priority 1: reserved keys. -/
def reservedRows : List TableRow := [
  ⟨"RESERVED.cmd_B", 0xB000000000#40, 0xF000000000#40, 1, none, .always⟩,
  ⟨"RESERVED.cmd_C_to_F", 0xC000000000#40, 0xC000000000#40, 1, none, .always⟩,
  ⟨"RESERVED.LOAD.size11", 0x1C00000000#40, 0xFC00000000#40, 1, some .core, .always⟩,
  ⟨"RESERVED.STORE.size11", 0x2C00000000#40, 0xFC00000000#40, 1, some .core, .always⟩,
  ⟨"RESERVED.CSRR.wide_number", 0x3000000000#40, 0xF000000000#40, 1, some .core, .wideCsr⟩,
  ⟨"RESERVED.CSRW.wide_number", 0x4000000000#40, 0xF000000000#40, 1, some .core, .wideCsr⟩,
  ⟨"RESERVED.wrong_port", 0#40, 0#40, 1, none, .wrongPort⟩]

/-- The rows of priorities 2 and 3: the device window and the CSR ports. -/
def deviceRows : List TableRow := [
  ⟨"STORE.dev.uart_tx", 0x2010000000#40, 0xF0FFFFFFFF#40, 2, some .core, .always⟩,
  ⟨"LOAD.dev.uart_rx", 0x1010000000#40, 0xF0FFFFFFFF#40, 2, some .core, .pending⟩,
  ⟨"LOAD.dev.uart_rx_empty", 0x1010000000#40, 0xF0FFFFFFFF#40, 2, some .core, .notPending⟩,
  ⟨"LOAD.dev.uart_lsr", 0x1010000005#40, 0xF0FFFFFFFF#40, 2, some .core, .always⟩,
  ⟨"CSRW.0x136", 0x4000000136#40, 0xF0FFFFFFFF#40, 2, some .core, .always⟩,
  ⟨"CSRW.0x137", 0x4000000137#40, 0xF0FFFFFFFF#40, 2, some .core, .always⟩,
  ⟨"CSRW.0x138", 0x4000000138#40, 0xF0FFFFFFFF#40, 2, some .core, .always⟩,
  ⟨"CSRW.0x139", 0x4000000139#40, 0xF0FFFFFFFF#40, 2, some .core, .always⟩,
  ⟨"CSRR.0x140", 0x3000000140#40, 0xF0FFFFFFFF#40, 2, some .core, .always⟩,
  ⟨"LOAD.dev.default", 0x1010000000#40, 0xF0FFFFFFF8#40, 3, some .core, .always⟩,
  ⟨"STORE.dev.default", 0x2010000000#40, 0xF0FFFFFFF8#40, 3, some .core, .always⟩,
  ⟨"CSRR.default", 0x3000000000#40, 0xF0FFFFF000#40, 3, some .core, .always⟩,
  ⟨"CSRW.default", 0x4000000000#40, 0xF0FFFFF000#40, 3, some .core, .always⟩]

/-- The rows of priorities 4 and 5: RAM and everything outside it. -/
def memoryRows : List TableRow := [
  ⟨"FETCH.ram", 0x0000000000#40, 0xF000000000#40, 4, some .core, .inRam⟩,
  ⟨"LOAD.B.ram", 0x1000000000#40, 0xFC00000000#40, 4, some .core, .inRam⟩,
  ⟨"LOAD.H.ram", 0x1400000000#40, 0xFC00000000#40, 4, some .core, .inRam⟩,
  ⟨"LOAD.W.ram", 0x1800000000#40, 0xFC00000000#40, 4, some .core, .inRam⟩,
  ⟨"STORE.B.ram", 0x2000000000#40, 0xFC00000000#40, 4, some .core, .inRam⟩,
  ⟨"STORE.H.ram", 0x2400000000#40, 0xFC00000000#40, 4, some .core, .inRam⟩,
  ⟨"STORE.W.ram", 0x2800000000#40, 0xFC00000000#40, 4, some .core, .inRam⟩,
  ⟨"FETCH.nonram", 0x0000000000#40, 0xF000000000#40, 5, some .core, .notInRam⟩,
  ⟨"LOAD.unmapped", 0x1000000000#40, 0xF000000000#40, 5, some .core, .unmapped⟩,
  ⟨"STORE.unmapped", 0x2000000000#40, 0xF000000000#40, 5, some .core, .unmapped⟩]

/-- The rows of priority 6: the commands that take no address. -/
def commandRows : List TableRow := [
  ⟨"POST_EXEC", 0x5000000000#40, 0xF000000000#40, 6, some .core, .always⟩,
  ⟨"FLUSH_ALL", 0x6000000000#40, 0xF000000000#40, 6, some .control, .always⟩,
  ⟨"EVICT_ALL", 0x7000000000#40, 0xF000000000#40, 6, some .control, .always⟩,
  ⟨"GET_STATS", 0x8000000000#40, 0xF000000000#40, 6, some .control, .always⟩,
  ⟨"POLL_INPUT", 0x9000000000#40, 0xF000000000#40, 6, some .console, .always⟩,
  ⟨"RESTART", 0xA000000000#40, 0xF000000000#40, 6, some .control, .always⟩]

/-- The 36 rows of spec/opcode_table.json, in its order. -/
def opcodeTable : List TableRow := reservedRows ++ deviceRows ++ memoryRows ++ commandRows

/-- The rows that fit a request and that no row of a lower priority number takes first (R69). -/
def winningRows (c : DecodeCtx) (r : Request) : List TableRow :=
  let fitting := opcodeTable.filter (·.fits c r)
  fitting.filter fun row => fitting.all fun other => row.priority ≤ other.priority

/-- The table's name of an instruction's row. -/
def Instr.mnemonic : Instr → String
  | .reservedCmdB _ _ => "RESERVED.cmd_B"
  | .reservedCmdCToF _ _ _ => "RESERVED.cmd_C_to_F"
  | .reservedLoadSize11 _ => "RESERVED.LOAD.size11"
  | .reservedStoreSize11 _ => "RESERVED.STORE.size11"
  | .reservedCsrrWide _ => "RESERVED.CSRR.wide_number"
  | .reservedCsrwWide _ => "RESERVED.CSRW.wide_number"
  | .reservedWrongPort _ _ _ => "RESERVED.wrong_port"
  | .storeUartTx _ _ => "STORE.dev.uart_tx"
  | .loadUartRx _ => "LOAD.dev.uart_rx"
  | .loadUartRxEmpty _ => "LOAD.dev.uart_rx_empty"
  | .loadUartLsr _ => "LOAD.dev.uart_lsr"
  | .csrwDbgDec _ => "CSRW.0x136"
  | .csrwDbgHex _ => "CSRW.0x137"
  | .csrwDbgStr _ => "CSRW.0x138"
  | .csrwDbgChr _ => "CSRW.0x139"
  | .csrrDbgIn => "CSRR.0x140"
  | .loadDevDefault _ _ => "LOAD.dev.default"
  | .storeDevDefault _ _ _ => "STORE.dev.default"
  | .csrrDefault _ => "CSRR.default"
  | .csrwDefault _ _ => "CSRW.default"
  | .fetchRam _ => "FETCH.ram"
  | .loadBRam _ => "LOAD.B.ram"
  | .loadHRam _ => "LOAD.H.ram"
  | .loadWRam _ => "LOAD.W.ram"
  | .storeBRam _ _ => "STORE.B.ram"
  | .storeHRam _ _ => "STORE.H.ram"
  | .storeWRam _ _ => "STORE.W.ram"
  | .fetchNonram _ => "FETCH.nonram"
  | .loadUnmapped _ _ => "LOAD.unmapped"
  | .storeUnmapped _ _ _ => "STORE.unmapped"
  | .postExec _ _ => "POST_EXEC"
  | .flushAll => "FLUSH_ALL"
  | .evictAll => "EVICT_ALL"
  | .getStats => "GET_STATS"
  | .pollInput _ => "POLL_INPUT"
  | .restart => "RESTART"

/-! ### The host's words -/

/-- An instruction whose bits are `w` as a request: the key is bits 39 to 0, the data word bits 71 to 40. The port is
no bit of the encoding; the request is presented on the port R56 names for its command, and a reserved command, which
every port carries, on the core port (log 11). -/
def requestOfBits (w : Nat) : Request :=
  let key : Key := BitVec.ofNat 40 w
  let port := match Cmd.ofCode (keyCmd key) with
    | some cmd => cmd.port
    | none => .core
  ⟨port, key, BitVec.ofNat 32 (w / 2 ^ 40)⟩

/-- The instruction the decoder reads from the bits `w`, in the decode context of the machine right after reset
(spec/00_scope.md R8 parameters of `Config.standard`, no input pending). -/
def decodeTableWord (nbits w : Nat) : Option Instr :=
  if nbits ≤ 72 then some (decode ⟨Config.standard, false⟩ (requestOfBits (w % 2 ^ nbits))) else none

end Sys2Proof
end

