-- ==== Sys2Proof/Machine/State.lean ====
section
/-! DEFINITION. The state of the machine as plain data: the block's own record (spec/10_state.md R20 to R32), the
backing-store image (R32), the parameters (spec/00_scope.md R8), and the model's own fields that stand for the outside
world: the requests not yet served, the backing store's answers, and what the ports have shown. -/

namespace Sys2Proof.Machine

open Sys2Proof

/-- A cache slot (R20). -/
structure Slot where
  valid : Bool
  tag   : Word
  dirty : Bool
  data  : List Byte
deriving DecidableEq, Repr

/-- The three faults of the error channel (spec/60_exceptions.md R160). They are reported, never a stop of the
machine. -/
inductive FaultKind where
  | io
  | bounds
  | device
deriving DecidableEq, Repr

/-- An error record (spec/30_encoding.md R62). -/
structure ErrorRecord where
  kind : FaultKind
  info : Word
deriving DecidableEq, Repr

/-- A response record (R60); `stats` is (hits, accesses), for GET_STATS only. -/
structure Response where
  rdata : Word
  err   : Option FaultKind
  stats : Option (Counter × Counter)
deriving DecidableEq, Repr

/-- What cuts a transaction short while the block waits for the host: power-on reset with its bs_open_ok sample
(spec/60_exceptions.md R168), or a host that never answers and leaves the block waiting
(spec/70_reset_and_hazards.md R206). -/
inductive Cut where
  | powerOn (bsOpenOk : Bool)
  | never
deriving DecidableEq, Repr

/-- One answer of the backing store, a draw of the model (R64): OK or FAIL, the bytes a failed write leaves at the
start of its line (bytes past them stay), and what cuts the transaction short at this event, if anything (R168, R206).
A cut before the answer is FAIL with its cut (logs 5 and 18). -/
structure BsAnswer where
  ok   : Bool
  left : List Byte
  cut  : Option Cut
deriving DecidableEq, Repr

/-- What the lines touched by an external modification hold after a step, a draw of the model (R201, log 14): bytes of
the image, then bytes of the RAM view. -/
structure LineDraw where
  image : List Host.Cell
  view  : List Host.Cell
deriving DecidableEq, Repr

/-- An event on the backing-store port (R63). -/
inductive BsEvent where
  | read (tag : Nat) (ok : Bool)
  | write (tag : Nat) (data : List Byte) (ok : Bool)
deriving DecidableEq, Repr

/-- What the outside world does to the block beside the request ports. -/
inductive HostEvent where
  /-- power-on reset with its bs_open_ok sample (R66, spec/70_reset_and_hazards.md R190, R192) -/
  | powerOn (bsOpenOk : Bool)
  /-- an agent other than the block writes the image: a bulk load while `mayBulkLoad` holds (R195), a breach otherwise,
  after which the touched lines are unsettled (R201) -/
  | imageWrite (offset : Nat) (bytes : List Byte)
  /-- the run loop acts on the step-result code (spec/43_core_hooks.md R151); on a restart it bulk-loads `image` -/
  | runLoop (image : List (Nat × List Byte))
  /-- the backing store is released (R194, R205) -/
  | release
deriving DecidableEq, Repr

/-- One input of the block. -/
inductive Input where
  | request (r : Request)
  | host (e : HostEvent)
deriving DecidableEq, Repr

/-- The backing-store image as (offset, byte) cells, offsets strictly rising, no cell equal to `Memory.unlisted`. -/
abbrev Memory := List Host.Cell

/-- The machine. -/
structure State where
  /-- the parameters (R8), changed by no step (log 1) -/
  cfg          : Config
  slots        : List Slot
  lru          : List Nat
  accesses     : Counter
  hits         : Counter
  pendValid    : Bool
  pendByte     : Byte
  ioFaultLatch : Bool
  halted       : Bool
  conOut       : List Byte
  errLog       : List ErrorRecord
  /-- the backing-store image (R32) -/
  bs           : Memory
  /-- the last transaction's response, none when it gave none (log 9) -/
  resp         : Option Response
  /-- the step-result code handed to the run loop and not yet acted on (R150, log 17) -/
  postCode     : Option Word
  /-- the backing store was released (R194, log 13) -/
  released     : Bool
  /-- the core has presented no transaction since the last power-on reset or RESTART (R195, log 27) -/
  booting      : Bool
  /-- the inputs not yet served, oldest first (log 2) -/
  inputs       : List Input
  /-- the backing store's answers still to be drawn; past the list every answer is OK (log 3) -/
  bsAnswers    : List BsAnswer
  /-- the events seen on the backing-store port (log 10) -/
  bsLog        : List BsEvent
  /-- whether the console host accepts each output byte to come, or what cuts the wait short; past the list every byte
  is accepted (log 18) -/
  conAnswers   : List (Option Cut)
  /-- the tags of the lines an external modification touched, unspecified from then on (R201, log 14) -/
  unsettled    : List Nat
  /-- what the unsettled lines hold after each step to come; past the list nothing changes (log 14) -/
  draws        : List LineDraw
deriving DecidableEq, Repr

/-- Why the machine stops. -/
inductive Fault where
  /-- Raised by `step` on a request while `halted`: the block accepts no transaction until the next power-on reset
  and the agent is stuck (R30, R192). Safe: the hardware does nothing either. -/
  | halted
  /-- Raised by `step` on a request after the backing store was released (R194). Safe: the request is not accepted. -/
  | released
  /-- Raised by `step` on a bulk load or other external write that runs past RAM_SIZE, against bulkLoad's
  precondition (R195, log 15). Safe: the model stops on a breach by the host. -/
  | imageWriteOutOfRange
  /-- Raised by a transaction whose backing-store event is never answered: the block waits, stuck, and no fault of R160
  is reported (R206, log 18). Safe: the hardware does nothing more either. -/
  | backingStoreNeverAnswers
  /-- Raised by a transaction with an output byte the console host never accepts: the block waits, stuck (R206,
  log 18). Safe: the hardware does nothing more either. -/
  | consoleNeverAccepts
deriving DecidableEq, Repr

/-- Why the model gives a step no meaning. -/
inductive Refusal where
  /-- An instruction the model gives no meaning yet; no arm of `exec` uses it. Safe. -/
  | notModelled (mnemonic : String)
  /-- Raised by `step` on any input when the parameters violate R8 or R9: "a configuration that violates it is
  refused". Safe. -/
  | badConfiguration
deriving DecidableEq, Repr

/-- A slot after power-on reset (R39, R190). The line buffer's bytes are the model's (log 7). -/
def Slot.empty (lineSize : Nat) : Slot := ⟨false, 0#32, false, List.replicate lineSize 0#8⟩

/-- The machine right after power-on reset with the backing store open (R39, R190), the parameters of
`Config.standard`, nothing listed in the image, no input presented and no draw to come (logs 1 to 10, 14, 18, 27). -/
def State.reset : State where
  cfg          := Config.standard
  slots        := List.replicate Config.standard.numLines (Slot.empty Config.standard.lineSize)
  lru          := List.range Config.standard.numLines
  accesses     := 0#64
  hits         := 0#64
  pendValid    := false
  pendByte     := 0#8
  ioFaultLatch := false
  halted       := false
  conOut       := []
  errLog       := []
  bs           := []
  resp         := none
  postCode     := none
  released     := false
  booting      := true
  inputs       := []
  bsAnswers    := []
  bsLog        := []
  conAnswers   := []
  unsettled    := []
  draws        := []

end Sys2Proof.Machine
end

