-- ==== Sys2Proof/Machine/Flags.lean ====
section
/-! DEFINITION. The status bits of the block (spec/10_state.md R37; it has no condition flags): the pending-input
flag and its readers (R28, R34, spec/41_bus_decode.md R116, spec/42_csr_mux.md R135, R137), and the IOFault latch
(R29, spec/43_core_hooks.md R150). The valid and dirty bits are written in Cache.lean. -/

namespace Sys2Proof.Machine

open Sys2Proof

/-- UART_LSR: `0x60 | pend_valid` (R116). -/
def State.lineStatus (s : State) : Word := 0x60#32 ||| (if s.pendValid then 1#32 else 0#32)

/-- The pending byte is consumed: `pend_valid <- 0` (R114, R135). -/
def State.consumeInput (s : State) : State := { s with pendValid := false }

/-- A delivered byte becomes pending, or is lost when one is pending already (R137). -/
def State.deliverInput (b : Byte) (s : State) : State :=
  if s.pendValid then s else { s with pendByte := b, pendValid := true }

/-- `io_fault_latch <- v`. -/
def State.setLatch (v : Bool) (s : State) : State := { s with ioFaultLatch := v }

/-- The step-result code POST_EXEC hands on: FAIL_CODE while the latch is set (R150). -/
def State.surfaceCode (code : Word) (s : State) : Word := if s.ioFaultLatch then s.cfg.failCode else code

end Sys2Proof.Machine
end

