-- ==== Sys2Proof/Machine/Ops.lean ====
section
/-! DEFINITION. The named operations the meanings are written with: the backing-store image, `report`, `respond` and
`raise` (spec/00_scope.md R11, spec/30_encoding.md R60, R62, spec/60_exceptions.md R161 to R164), power-on reset
(spec/70_reset_and_hazards.md R190), `emit` (R61) and the two backing-store transactions (R63, R64), each of which may
wait for the host (R206). -/

namespace Sys2Proof.Machine

open Sys2Proof

/-! ### The backing-store image (R32) -/

/-- What an offset no cell lists reads as. DESIGN CHOICE (log 6): the spec leaves the image's prior contents open. -/
def Memory.unlisted : Byte := 0#8

/-- The byte at an offset. -/
def Memory.read : Memory → Nat → Byte
  | [], _ => Memory.unlisted
  | (k, b) :: m, o => if k = o then b else Memory.read m o

/-- The image with the byte at an offset written; the canonical form is kept. -/
def Memory.write : Memory → Nat → Byte → Memory
  | [], o, v => if v = Memory.unlisted then [] else [(o, v)]
  | (k, b) :: m, o, v =>
    if o < k then (if v = Memory.unlisted then (k, b) :: m else (o, v) :: (k, b) :: m)
    else if o = k then (if v = Memory.unlisted then m else (o, v) :: m)
    else (k, b) :: Memory.write m o v

/-- `n` bytes from an offset on. -/
def Memory.readBytes (m : Memory) (o : Nat) : Nat → List Byte
  | 0 => []
  | n + 1 => m.read o :: Memory.readBytes m (o + 1) n

/-- The image with bytes written from an offset on. -/
def Memory.writeBytes (m : Memory) (o : Nat) : List Byte → Memory
  | [] => m
  | b :: bs => Memory.writeBytes (m.write o b) (o + 1) bs

/-- The canonical form: offsets strictly rising, no cell equal to what an unlisted offset reads as. -/
def Memory.wf (m : Memory) : Bool :=
  decide (m.Pairwise fun x y => x.1 < y.1) && m.all fun x => x.2 != Memory.unlisted

/-! ### Ports and faults -/

/-- `report(kind, info)` (R62). -/
def State.report (k : FaultKind) (info : Word) (s : State) : State := { s with errLog := s.errLog ++ [⟨k, info⟩] }

/-- The response of a transaction (R60); none for one that gives none. -/
def State.setResp (r : Option Response) (s : State) : State := { s with resp := r }

/-- `respond(rdata, err)` (R60, R11). -/
def State.respond (rdata : Word) (err : Option FaultKind) (s : State) : State := s.setResp (some ⟨rdata, err, none⟩)

/-- The numeric code of a fault, in the `err` field of a response and the `kind` field of a record (R60, R160). -/
def faultCode : Option FaultKind → BitVec 2
  | none => 0
  | some .io => 1
  | some .bounds => 2
  | some .device => 3

/-- Record an IOFault at a RAM offset and set the latch: `report(IOFault, T); io_fault_latch <- 1` (R162, R97). -/
def State.noteIoFault (tag : Word) (s : State) : State := (s.report .io tag).setLatch true

/-- `raise F(info)`, the block's whole fault entry (R11, R161 to R164): the record, the latch for IOFault only, and
the response `(0, F)`. There is no trap entry or return beside it (R169, R170). -/
def State.raise (k : FaultKind) (info : Word) (s : State) : State :=
  (match k with
    | .io => s.noteIoFault info
    | k => s.report k info).respond 0#32 (some k)

/-- Power-on reset (R190, R39, R192): every field of the block at its power-on value, `halted` from bs_open_ok; no
response and no backing-store transaction. The parameters, the image, the unsettled lines, the inputs, answers and draws
to come and the trace of the backing-store port are not the block's and stay (logs 10, 14). Clearing `released` and
setting `booting` are the model's (logs 13, 27). -/
def State.powerOn (bsOpenOk : Bool) (s : State) : State :=
  { s with
    slots        := List.replicate s.cfg.numLines (Slot.empty s.cfg.lineSize)
    lru          := List.range s.cfg.numLines
    accesses     := 0#64
    hits         := 0#64
    pendValid    := false
    pendByte     := 0#8
    ioFaultLatch := false
    halted       := !bsOpenOk
    conOut       := []
    errLog       := []
    resp         := none
    postCode     := none
    released     := false
    booting      := true }

/-! ### Transactions that may stop early -/

/-- Why a transaction stops before its response: it raises, power-on reset abandons it (R168), or it waits for a host
that never answers (R206). -/
inductive Stop where
  | fault (k : FaultKind) (info : Word)
  | powerOn (bsOpenOk : Bool)
  | stuck (f : Fault)
deriving DecidableEq, Repr

/-- How a transaction stops where it is cut short, `f` naming the wait. -/
def Cut.stop (f : Fault) : Cut → Stop
  | .powerOn ok => .powerOn ok
  | .never => .stuck f

/-- The progress of a transaction. -/
inductive Txn (α : Type) where
  | done (a : α) (s : State)
  | stop (why : Stop) (s : State)
deriving DecidableEq, Repr

/-- Go on with the value and state reached, unless the transaction stopped. -/
def Txn.andThen {α β : Type} (r : Txn α) (f : α → State → Txn β) : Txn β :=
  match r with
  | .done a s => f a s
  | .stop why s => .stop why s

/-- The value and state reached, unless the wait for the host is cut short. -/
def waited {α : Type} (c : Option Cut) (f : Fault) (x : α) (s : State) : Txn α :=
  match c with
  | none => .done x s
  | some c => .stop (c.stop f) s

/-- The end of a transaction: its response, or the fault it raised, or the reset that abandoned it; or none, when it
waits for ever. State already changed stays changed (R162, R166). -/
def conclude (r : Txn Response) : Host.Outcome State Fault Refusal :=
  match r with
  | .done resp s => .next (s.setResp (some resp))
  | .stop (.fault k info) s => .next (s.raise k info)
  | .stop (.powerOn ok) s => .next (s.powerOn ok)
  | .stop (.stuck f) _ => .fault f

/-! ### The console (R61) -/

/-- A byte of output is presented to the console host: one of its draws is used up. -/
def State.drawAccept (s : State) : State := { s with conAnswers := s.conAnswers.tail }

/-- A byte joins the console output. -/
def State.output (b : Byte) (s : State) : State := { s with conOut := s.conOut ++ [b] }

/-- `emit(b)` (R61): done when the console host accepts the byte (R206). -/
def emit (b : Byte) (s : State) : Txn Unit :=
  (waited (s.conAnswers.headD none) .consoleNeverAccepts () s.drawAccept).andThen fun _ s1 => .done () (s1.output b)

/-- `emit_str(s)` (R11): the bytes in order. -/
def emitStr : List Byte → State → Txn Unit
  | [], s => .done () s
  | b :: bytes, s => (emit b s).andThen fun _ s1 => emitStr bytes s1

/-- A transaction whose whole effect is to emit bytes and answer 0. -/
def emitAndRespond (bytes : List Byte) (s : State) : Host.Outcome State Fault Refusal :=
  conclude ((emitStr bytes s).andThen fun _ s1 => .done ⟨0#32, none, none⟩ s1)

/-! ### The backing-store port (R63, R64) -/

/-- The answer OK with nothing after it. -/
def BsAnswer.good : BsAnswer := ⟨true, [], none⟩

/-- The next answer of the backing store. -/
def State.nextAnswer (s : State) : BsAnswer := s.bsAnswers.headD BsAnswer.good

/-- An event takes place: it joins the trace and its answer is used up. -/
def State.logEvent (e : BsEvent) (s : State) : State :=
  { s with bsAnswers := s.bsAnswers.tail, bsLog := s.bsLog ++ [e] }

/-- The image is replaced. -/
def State.setBs (m : Memory) (s : State) : State := { s with bs := m }

/-- `BSRead(T, LINE_SIZE)`: the bytes, or none for FAIL, which changes nothing (R64); the block waits for the answer
(R206). -/
def bsRead (tag : Nat) (s : State) : Txn (Option (List Byte)) :=
  let a := s.nextAnswer
  waited a.cut .backingStoreNeverAnswers (if a.ok then some (s.bs.readBytes tag s.cfg.lineSize) else none)
    (s.logEvent (.read tag a.ok))

/-- `BSWrite(T, s)`: true for OK. FAIL leaves the drawn bytes in the line's range (R64, log 4); the block waits for the
answer (R206). -/
def bsWrite (tag : Nat) (data : List Byte) (s : State) : Txn Bool :=
  let a := s.nextAnswer
  let landed := if a.ok then data else a.left.take s.cfg.lineSize
  waited a.cut .backingStoreNeverAnswers a.ok
    ((s.logEvent (.write tag data a.ok)).setBs (s.bs.writeBytes tag landed))

/-- The decode context of a state (R69). -/
def State.decodeCtx (s : State) : DecodeCtx := ⟨s.cfg, s.pendValid⟩

end Sys2Proof.Machine
end

