-- ==== Sys2Proof/Machine/Cache.lean ====
section
/-! DEFINITION. The cache controller: slots and recency order (spec/10_state.md R20 to R25), line resolution, victim
selection, fill and write-back (spec/40_cache.md R81 to R85), the write policy (R86), MemRead and MemWrite (R87, R88),
the write-back loops of FLUSH_ALL and EVICT_ALL (R97, R98), and the RAM view (spec/20_memory.md R50). -/

namespace Sys2Proof.Machine

open Sys2Proof

/-! ### Slots -/

/-- `slot[i]`. -/
def State.slot (s : State) (i : Nat) : Slot := s.slots.getD i (Slot.empty s.cfg.lineSize)

/-- `slot[i] <- x`. -/
def State.setSlot (i : Nat) (x : Slot) (s : State) : State := { s with slots := s.slots.set i x }

/-- `touch(i)`: move `i` to the head, keep the others' order (R25). -/
def State.touch (i : Nat) (s : State) : State := { s with lru := i :: s.lru.filter (· != i) }

/-- `accesses <- accesses + 1` (R81). -/
def State.countAccess (s : State) : State := { s with accesses := s.accesses + 1#64 }

/-- `hits <- hits + 1` (R82). -/
def State.countHit (s : State) : State := { s with hits := s.hits + 1#64 }

/-- The slot that holds line `tag`, at most one by I-tag (R26, R81). -/
def State.lookup (s : State) (tag : Nat) : Option Nat := s.slots.findIdx? fun x => x.valid && x.tag.toNat == tag

/-- The RAM view `M(o)` the core sees (R50). -/
def State.view (s : State) (o : Nat) : Byte :=
  match s.lookup (s.cfg.tagOf o) with
  | some i => (s.slot i).data.getD (s.cfg.idxOf o) Memory.unlisted
  | none => s.bs.read o

/-! ### Line resolution (R81 to R85) -/

/-- `victim()`: the lowest invalid slot, else the least recently used one (R85). -/
def State.victim (s : State) : Nat :=
  match s.slots.findIdx? fun x => !x.valid with
  | some i => i
  | none => s.lru.getLastD 0

/-- Write slot `i` back if it is valid and dirty; true unless the write was tried and failed. On success the slot is
clean, on failure it is unchanged (R83, R97). -/
def writeBack (i : Nat) (s : State) : Txn Bool :=
  let x := s.slot i
  if x.valid && x.dirty then
    (bsWrite x.tag.toNat x.data s).andThen fun ok s1 =>
      if ok then .done true (s1.setSlot i { x with dirty := false }) else .done false s1
  else .done true s

/-- Write the victim back if it is dirty, then invalidate it; a failed write-back raises (R83). -/
def releaseVictim (v : Nat) (s : State) : Txn Unit :=
  (writeBack v s).andThen fun ok s1 =>
    if ok then .done () (s1.setSlot v { s1.slot v with valid := false })
    else .stop (.fault .io (s1.slot v).tag) s1

/-- Fill slot `v` with line `tag` (R84). -/
def fill (v tag : Nat) (s : State) : Txn Nat :=
  (bsRead tag s).andThen fun d s1 =>
    match d with
    | none => .stop (.fault .io (BitVec.ofNat 32 tag)) s1
    | some line => .done v ((s1.setSlot v ⟨true, BitVec.ofNat 32 tag, false, line⟩).touch v)

/-- `Resolve(T)` (R81): the slot that holds the line, after a hit (R82) or a miss (R83, R84). -/
def resolve (tag : Nat) (s : State) : Txn Nat :=
  let s1 := s.countAccess
  match s1.lookup tag with
  | some i => .done i (s1.countHit.touch i)
  | none => (releaseVictim s1.victim s1).andThen fun _ s2 => fill s1.victim tag s2

/-! ### RAM read and write (R86 to R88) -/

/-- `WritePolicy(i)` (R86). -/
def writePolicy (i : Nat) (s : State) : Txn Unit :=
  match s.cfg.writePolicy with
  | .writeBack => .done () (s.setSlot i { s.slot i with dirty := true })
  | .writeThrough =>
    (bsWrite (s.slot i).tag.toNat (s.slot i).data s).andThen fun ok s1 =>
      if ok then .done () (s1.setSlot i { s1.slot i with dirty := false })
      else .stop (.fault .io (s1.slot i).tag) (s1.setSlot i { s1.slot i with dirty := true })

/-- The bytes of the pieces, each taken from its slot when that piece is resolved (R87). -/
def readPieces : List Piece → State → Txn (List Byte)
  | [], s => .done [] s
  | p :: ps, s =>
    (resolve p.tag s).andThen fun i s1 =>
      (readPieces ps s1).andThen fun rest s2 => .done (((s1.slot i).data.drop p.first).take p.count ++ rest) s2

/-- `MemRead(o, n)` (R87), as the bytes; `leWord` makes the value. -/
def memRead (o n : Nat) (s : State) : Txn (List Byte) := readPieces (s.cfg.pieces o n) s

/-- One piece of a write: resolve, copy the bytes in, apply the write policy (R88). -/
def writePiece (p : Piece) (bytes : List Byte) (s : State) : Txn Unit :=
  (resolve p.tag s).andThen fun i s1 =>
    writePolicy i (s1.setSlot i { s1.slot i with data := splice (s1.slot i).data p.first bytes })

/-- The pieces of a write in order (R88). -/
def writePieces : List Piece → List Byte → State → Txn Unit
  | [], _, s => .done () s
  | p :: ps, bytes, s =>
    (writePiece p (bytes.take p.count) s).andThen fun _ s1 => writePieces ps (bytes.drop p.count) s1

/-- `MemWrite(o, n, v)` (R88). -/
def memWrite (o n : Nat) (v : Word) (s : State) : Txn Unit := writePieces (s.cfg.pieces o n) (leBytes n v) s

/-! ### FLUSH_ALL, EVICT_ALL and RESTART on the slots -/

/-- One slot of FLUSH_ALL: a failed write-back is reported and the slot stays dirty (R97). -/
def flushSlot (i : Nat) (s : State) : Txn Bool :=
  (writeBack i s).andThen fun ok s1 =>
    if ok then .done true s1 else .done false (s1.noteIoFault (s1.slot i).tag)

/-- One slot of EVICT_ALL: as FLUSH_ALL, then the slot is invalidated unless its write-back failed (R98). -/
def evictSlot (i : Nat) (s : State) : Txn Bool :=
  (flushSlot i s).andThen fun ok s1 =>
    if ok then .done true (s1.setSlot i { s1.slot i with valid := false }) else .done false s1

/-- A loop over slots that goes on past failures; true when some slot failed (R97, R98). -/
def overSlots (f : Nat → State → Txn Bool) : List Nat → Bool → State → Txn Bool
  | [], failed, s => .done failed s
  | i :: is, failed, s => (f i s).andThen fun ok s1 => overSlots f is (failed || !ok) s1

/-- The response of FLUSH_ALL and EVICT_ALL: `respond(0, failed ? 1 : 0)`. -/
def sweepResponse (failed : Bool) : Response := ⟨0#32, if failed then some .io else none, none⟩

/-- A sweep of every slot in ascending order, with its response. -/
def sweep (f : Nat → State → Txn Bool) (s : State) : Txn Response :=
  (overSlots f (List.range s.cfg.numLines) false s).andThen fun failed s1 => .done (sweepResponse failed) s1

/-- Every slot invalid and clean, nothing written back, the latch clear (R193); the image may be bulk-loaded again
(R195). -/
def State.restartBlock (s : State) : State :=
  { s with
    slots := s.slots.map fun x => { x with valid := false, dirty := false }
    ioFaultLatch := false
    booting := true
    resp := none }

/-- Set the byte the RAM view holds at an offset: in the line buffer if the line is resident, else in the image. -/
def State.setView (o : Nat) (b : Byte) (s : State) : State :=
  match s.lookup (s.cfg.tagOf o) with
  | some i => s.setSlot i { s.slot i with data := (s.slot i).data.set (s.cfg.idxOf o) b }
  | none => s.setBs (s.bs.write o b)

end Sys2Proof.Machine
end

