-- ==== Sys2Proof/Machine/Control.lean ====
section
/-! DEFINITION. The commands that take no address: POST_EXEC (spec/43_core_hooks.md R150), FLUSH_ALL, EVICT_ALL,
GET_STATS (spec/40_cache.md R97 to R99), POLL_INPUT (spec/42_csr_mux.md R137) and RESTART
(spec/70_reset_and_hazards.md R193). -/

namespace Sys2Proof.Machine

open Sys2Proof

/-- The code POST_EXEC hands to the run loop (R150, R151). A code the run loop has not acted on is replaced, so it acts
on the last one only: the rules leave this open (log 26, DESIGN CHOICE). -/
def State.setPostCode (c : Option Word) (s : State) : State := { s with postCode := c }

/-- POST_EXEC (R150): the instruction word is not interpreted (D30). The code kept for the run loop is the model's
(logs 17 and 26). -/
def execPostExec (_insn code : Word) (s : State) : Host.Outcome State Fault Refusal :=
  let code' := s.surfaceCode code
  .next (((s.setLatch false).setPostCode (some code')).respond code' none)

/-- FLUSH_ALL (R97). -/
def execFlushAll (s : State) : Host.Outcome State Fault Refusal := conclude (sweep flushSlot s)

/-- EVICT_ALL (R98). -/
def execEvictAll (s : State) : Host.Outcome State Fault Refusal := conclude (sweep evictSlot s)

/-- GET_STATS (R99). -/
def execGetStats (s : State) : Host.Outcome State Fault Refusal :=
  .next (s.setResp (some ⟨0#32, none, some (s.hits, s.accesses)⟩))

/-- POLL_INPUT (R137): no response. -/
def execPollInput (b : Byte) (s : State) : Host.Outcome State Fault Refusal := .next ((s.deliverInput b).setResp none)

/-- RESTART (R193): no response. -/
def execRestart (s : State) : Host.Outcome State Fault Refusal := .next s.restartBlock

end Sys2Proof.Machine
end

