-- ==== Sys2Proof/Machine/Csr.lean ====
section
/-! DEFINITION. The CSR multiplexer (spec/42_csr_mux.md R130 to R136). -/

namespace Sys2Proof.Machine

open Sys2Proof

/-- CSRW.0x136, DBG_DEC (R131). -/
def execCsrwDbgDec (v : Word) (s : State) : Host.Outcome State Fault Refusal :=
  emitAndRespond (decText v) s

/-- CSRW.0x137, DBG_HEX (R132). -/
def execCsrwDbgHex (v : Word) (s : State) : Host.Outcome State Fault Refusal :=
  emitAndRespond (hexText v) s

/-- The DBG_STR stream from RAM offset `p`, with `fuel` bytes of RAM left: each byte is one MemRead; the NUL is read
and not emitted (R133). -/
def streamString : Nat → Nat → State → Txn Unit
  | 0, _, s => .done () s
  | fuel + 1, p, s =>
    (memRead p 1 s).andThen fun bytes s1 =>
      let b := bytes.headD 0#8
      if b = 0#8 then .done () s1 else (emit b s1).andThen fun _ s2 => streamString fuel (p + 1) s2

/-- CSRW.0x138, DBG_STR (R133): a pointer outside RAM is a DeviceFault; otherwise the string up to its NUL or the end
of RAM. -/
def execCsrwDbgStr (v : Word) (s : State) : Host.Outcome State Fault Refusal :=
  let p := s.cfg.off v
  if s.cfg.ramSize ≤ p then .next (s.raise .device v)
  else conclude ((streamString (s.cfg.ramSize - p) p s).andThen fun _ s1 => .done ⟨0#32, none, none⟩ s1)

/-- CSRW.0x139, DBG_CHR (R134): any byte, 0x00 included. -/
def execCsrwDbgChr (v : Word) (s : State) : Host.Outcome State Fault Refusal :=
  emitAndRespond [v.setWidth 8] s

/-- CSRR.0x140, DBG_IN (R135). -/
def execCsrrDbgIn (s : State) : Host.Outcome State Fault Refusal :=
  if s.pendValid then .next (s.consumeInput.respond (s.pendByte.setWidth 32) none)
  else .next (s.respond s.cfg.noDataSentinel none)

/-- CSRR.default (R136). -/
def execCsrrDefault (_n : BitVec 12) (s : State) : Host.Outcome State Fault Refusal :=
  .next (s.respond 0#32 none)

/-- CSRW.default (R136): the value is discarded. -/
def execCsrwDefault (_n : BitVec 12) (_v : Word) (s : State) : Host.Outcome State Fault Refusal :=
  .next (s.respond 0#32 none)

end Sys2Proof.Machine
end

