-- ==== Sys2Proof/Machine/Device.lean ====
section
/-! DEFINITION. The console UART window (spec/41_bus_decode.md R113 to R117) and the addresses outside RAM and the
window (R118, R119). -/

namespace Sys2Proof.Machine

open Sys2Proof

/-- The response of a device-window load: the row's 32-bit value truncated to the access width (R68). -/
def respondDevice (w : Width) (v : Word) (s : State) : Host.Outcome State Fault Refusal :=
  .next (s.respond (w.narrow v) none)

/-- STORE.dev.uart_tx (R113). -/
def execStoreUartTx (w : Width) (v : Word) (s : State) : Host.Outcome State Fault Refusal :=
  emitAndRespond (uartBytes w v) s

/-- LOAD.dev.uart_rx (R114): the pending byte, consumed. -/
def execLoadUartRx (w : Width) (s : State) : Host.Outcome State Fault Refusal :=
  respondDevice w (s.pendByte.setWidth 32) s.consumeInput

/-- LOAD.dev.uart_rx_empty (R115). -/
def execLoadUartRxEmpty (w : Width) (s : State) : Host.Outcome State Fault Refusal := respondDevice w 0#32 s

/-- LOAD.dev.uart_lsr (R116). -/
def execLoadUartLsr (w : Width) (s : State) : Host.Outcome State Fault Refusal := respondDevice w s.lineStatus s

/-- LOAD.dev.default (R117). -/
def execLoadDevDefault (w : Width) (_reg : BitVec 3) (s : State) : Host.Outcome State Fault Refusal :=
  respondDevice w 0#32 s

/-- STORE.dev.default (R117): the value is discarded. -/
def execStoreDevDefault (_w : Width) (_reg : BitVec 3) (_v : Word) (s : State) : Host.Outcome State Fault Refusal :=
  .next (s.respond 0#32 none)

/-- FETCH.nonram (R119): no device side effect. -/
def execFetchNonram (a : Word) (s : State) : Host.Outcome State Fault Refusal := .next (s.raise .bounds a)

/-- LOAD.unmapped (R118). -/
def execLoadUnmapped (_w : Width) (a : Word) (s : State) : Host.Outcome State Fault Refusal :=
  .next (s.raise .bounds a)

/-- STORE.unmapped (R118). -/
def execStoreUnmapped (_w : Width) (a _v : Word) (s : State) : Host.Outcome State Fault Refusal :=
  .next (s.raise .bounds a)

end Sys2Proof.Machine
end

