-- ==== Sys2Proof/Machine/Ram.lean ====
section
/-! DEFINITION. The RAM rows of FETCH, LOAD and STORE (spec/40_cache.md R90 to R96). -/

namespace Sys2Proof.Machine

open Sys2Proof

/-- A read of `n` bytes at a bus address: the bounds check of R42, then MemRead and its value (R90 to R93). -/
def ramRead (n : Nat) (a : Word) (s : State) : Host.Outcome State Fault Refusal :=
  let o := s.cfg.off a
  if s.cfg.ramSize < o + n then .next (s.raise .bounds a)
  else conclude ((memRead o n s).andThen fun bytes s1 => .done ⟨leWord bytes, none, none⟩ s1)

/-- A write of the low `n` bytes of `v` at a bus address: the bounds check of R42, then MemWrite (R94 to R96). -/
def ramWrite (n : Nat) (a v : Word) (s : State) : Host.Outcome State Fault Refusal :=
  let o := s.cfg.off a
  if s.cfg.ramSize < o + n then .next (s.raise .bounds a)
  else conclude ((memWrite o n v s).andThen fun _ s1 => .done ⟨0#32, none, none⟩ s1)

/-- FETCH.ram (R90). -/
def execFetchRam (a : Word) (s : State) : Host.Outcome State Fault Refusal := ramRead 4 a s

/-- LOAD.B.ram (R91); its bounds check never fails inside the RAM window. -/
def execLoadBRam (a : Word) (s : State) : Host.Outcome State Fault Refusal := ramRead 1 a s

/-- LOAD.H.ram (R92). -/
def execLoadHRam (a : Word) (s : State) : Host.Outcome State Fault Refusal := ramRead 2 a s

/-- LOAD.W.ram (R93). -/
def execLoadWRam (a : Word) (s : State) : Host.Outcome State Fault Refusal := ramRead 4 a s

/-- STORE.B.ram (R94); its bounds check never fails inside the RAM window. -/
def execStoreBRam (a v : Word) (s : State) : Host.Outcome State Fault Refusal := ramWrite 1 a v s

/-- STORE.H.ram (R95). -/
def execStoreHRam (a v : Word) (s : State) : Host.Outcome State Fault Refusal := ramWrite 2 a v s

/-- STORE.W.ram (R96). -/
def execStoreWRam (a v : Word) (s : State) : Host.Outcome State Fault Refusal := ramWrite 4 a v s

end Sys2Proof.Machine
end

