-- ==== Sys2Proof/Machine/Reserved.lean ====
section
/-! DEFINITION. The RESERVED rows (spec/30_encoding.md R71): report DeviceFault with the a field, respond with it
except on the console input port, change nothing else. -/

namespace Sys2Proof.Machine

open Sys2Proof

/-- A reserved key (R71). The record is a DeviceFault whose info is the key's a field. -/
def reservedKey (p : Port) (a : Word) (s : State) : Host.Outcome State Fault Refusal :=
  match p with
  | .console => .next ((s.report .device a).setResp none)
  | .core | .control => .next (s.raise .device a)

/-- RESERVED.cmd_B. -/
def execReservedCmdB (p : Port) (a : Word) (s : State) : Host.Outcome State Fault Refusal := reservedKey p a s

/-- RESERVED.cmd_C_to_F; which of the four codes it is does not matter. -/
def execReservedCmdCToF (p : Port) (_low : BitVec 2) (a : Word) (s : State) : Host.Outcome State Fault Refusal :=
  reservedKey p a s

/-- RESERVED.LOAD.size11, on the core port. -/
def execReservedLoadSize11 (a : Word) (s : State) : Host.Outcome State Fault Refusal := reservedKey .core a s

/-- RESERVED.STORE.size11, on the core port. -/
def execReservedStoreSize11 (a : Word) (s : State) : Host.Outcome State Fault Refusal := reservedKey .core a s

/-- RESERVED.CSRR.wide_number, on the core port. -/
def execReservedCsrrWide (a : Word) (s : State) : Host.Outcome State Fault Refusal := reservedKey .core a s

/-- RESERVED.CSRW.wide_number, on the core port. -/
def execReservedCsrwWide (a : Word) (s : State) : Host.Outcome State Fault Refusal := reservedKey .core a s

/-- RESERVED.wrong_port; which command it is does not matter. -/
def execReservedWrongPort (p : Port) (_cmd : Cmd) (a : Word) (s : State) : Host.Outcome State Fault Refusal :=
  reservedKey p a s

end Sys2Proof.Machine
end

