-- ==== Sys2Proof/Machine/Dispatch.lean ====
section
/-! DEFINITION. The effect of an accepted transaction: one arm per row of spec/opcode_table.json. -/

namespace Sys2Proof.Machine

open Sys2Proof

def exec (i : Instr) (s : State) : Host.Outcome State Fault Refusal :=
  match i with
  -- reserved keys
  | .reservedCmdB p a => Sys2Proof.Machine.execReservedCmdB p a s
  | .reservedCmdCToF p low a => Sys2Proof.Machine.execReservedCmdCToF p low a s
  | .reservedLoadSize11 a => Sys2Proof.Machine.execReservedLoadSize11 a s
  | .reservedStoreSize11 a => Sys2Proof.Machine.execReservedStoreSize11 a s
  | .reservedCsrrWide a => Sys2Proof.Machine.execReservedCsrrWide a s
  | .reservedCsrwWide a => Sys2Proof.Machine.execReservedCsrwWide a s
  | .reservedWrongPort p cmd a => Sys2Proof.Machine.execReservedWrongPort p cmd a s
  -- the device window and the CSR ports
  | .storeUartTx w v => Sys2Proof.Machine.execStoreUartTx w v s
  | .loadUartRx w => Sys2Proof.Machine.execLoadUartRx w s
  | .loadUartRxEmpty w => Sys2Proof.Machine.execLoadUartRxEmpty w s
  | .loadUartLsr w => Sys2Proof.Machine.execLoadUartLsr w s
  | .csrwDbgDec v => Sys2Proof.Machine.execCsrwDbgDec v s
  | .csrwDbgHex v => Sys2Proof.Machine.execCsrwDbgHex v s
  | .csrwDbgStr v => Sys2Proof.Machine.execCsrwDbgStr v s
  | .csrwDbgChr v => Sys2Proof.Machine.execCsrwDbgChr v s
  | .csrrDbgIn => Sys2Proof.Machine.execCsrrDbgIn s
  | .loadDevDefault w reg => Sys2Proof.Machine.execLoadDevDefault w reg s
  | .storeDevDefault w reg v => Sys2Proof.Machine.execStoreDevDefault w reg v s
  | .csrrDefault n => Sys2Proof.Machine.execCsrrDefault n s
  | .csrwDefault n v => Sys2Proof.Machine.execCsrwDefault n v s
  -- RAM and what lies outside it
  | .fetchRam a => Sys2Proof.Machine.execFetchRam a s
  | .loadBRam a => Sys2Proof.Machine.execLoadBRam a s
  | .loadHRam a => Sys2Proof.Machine.execLoadHRam a s
  | .loadWRam a => Sys2Proof.Machine.execLoadWRam a s
  | .storeBRam a v => Sys2Proof.Machine.execStoreBRam a v s
  | .storeHRam a v => Sys2Proof.Machine.execStoreHRam a v s
  | .storeWRam a v => Sys2Proof.Machine.execStoreWRam a v s
  | .fetchNonram a => Sys2Proof.Machine.execFetchNonram a s
  | .loadUnmapped w a => Sys2Proof.Machine.execLoadUnmapped w a s
  | .storeUnmapped w a v => Sys2Proof.Machine.execStoreUnmapped w a v s
  -- the commands that take no address
  | .postExec insn code => Sys2Proof.Machine.execPostExec insn code s
  | .flushAll => Sys2Proof.Machine.execFlushAll s
  | .evictAll => Sys2Proof.Machine.execEvictAll s
  | .getStats => Sys2Proof.Machine.execGetStats s
  | .pollInput b => Sys2Proof.Machine.execPollInput b s
  | .restart => Sys2Proof.Machine.execRestart s

end Sys2Proof.Machine
end

