-- ==== Sys2Proof/Machine/Inputs.lean ====
section
/-! DEFINITION. What stands around the transactions: when the block accepts one (spec/10_state.md R30,
spec/70_reset_and_hazards.md R192, R194), and what the outside world does beside the request ports: power-on reset,
writes of the image (R195, R201), the run loop (spec/43_core_hooks.md R151) and the release of the backing store
(R194, R205). -/

namespace Sys2Proof.Machine

open Sys2Proof

/-- The oldest input is taken from the queue. -/
def State.setInputs (q : List Input) (s : State) : State := { s with inputs := q }

/-- A request is accepted unless the block is halted (R30, R192) or the backing store is released (R194). -/
def accept (s : State) (k : State → Host.Outcome State Fault Refusal) : Host.Outcome State Fault Refusal :=
  if s.halted then .fault .halted else if s.released then .fault .released else k s

/-- Every input is refused while the parameters violate R8 or R9. -/
def configured (s : State) (k : State → Host.Outcome State Fault Refusal) : Host.Outcome State Fault Refusal :=
  if s.cfg.wf then k s else .refused .badConfiguration

/-- A request on the core port ends the time in which the image may be bulk-loaded (R195). -/
def State.noteRequest (p : Port) (s : State) : State := { s with booting := s.booting && p != .core }

/-! ### Writes of the image by another agent (R195, R201) -/

/-- Whether the image may be bulk-loaded: only while no slot is valid, after power-on reset or RESTART and before the
core's first transaction (R195, D43). -/
def State.mayBulkLoad (s : State) : Bool := s.booting && !s.slots.any (·.valid)

/-- The tags of the lines that `n` bytes from `offset` on touch. -/
def touchedTags (c : Config) (offset n : Nat) : List Nat := (List.range n).map fun j => c.tagOf (offset + j)

/-- Lines become unsettled: nothing says what they hold from then on, and no event settles them again (R201, log 14).
The list has no repeats. -/
def State.unsettle (tags : List Nat) (s : State) : State :=
  { s with unsettled := tags.foldr List.insert s.unsettled }

/-- Whether a RAM offset lies in an unsettled line. -/
def State.unsettledAt (s : State) (o : Nat) : Bool :=
  decide (o < s.cfg.ramSize) && s.unsettled.contains (s.cfg.tagOf o)

/-- The image holds the drawn bytes, over the unsettled lines only. -/
def State.drawImage : List Host.Cell → State → State
  | [], s => s
  | (o, b) :: cells, s => State.drawImage cells (if s.unsettledAt o then s.setBs (s.bs.write o b) else s)

/-- The RAM view holds the drawn bytes, over the unsettled lines only. -/
def State.drawView : List Host.Cell → State → State
  | [], s => s
  | (o, b) :: cells, s => State.drawView cells (if s.unsettledAt o then s.setView o b else s)

/-- The draw for this step is used up. -/
def State.dropDraw (s : State) : State := { s with draws := s.draws.tail }

/-- What the unsettled lines hold after a step: the next draw, of the image and of the RAM view (R201, log 14). With no
unsettled line nothing changes. -/
def State.drift (s : State) : State :=
  if s.unsettled = [] then s
  else
    let d := s.draws.headD ⟨[], []⟩
    ((s.dropDraw).drawImage d.image).drawView d.view

/-- A next state with its unsettled lines drawn; a stop stays as it is. -/
def drifted : Host.Outcome State Fault Refusal → Host.Outcome State Fault Refusal
  | .next s => .next s.drift
  | .fault f => .fault f
  | .refused r => .refused r

/-- An agent other than the block writes the image. Where R195 lets it, this is a bulk load. Otherwise it is a breach
(R201, D43), and the lines it touches are unsettled. It always lands its bytes: a `bulkLoad` that fails with IOFault
(R4) is shown by the bytes that landed (log 25, DESIGN CHOICE). It lands whether or not the block is halted or the
backing store released, of which the rules say nothing (log 28, DESIGN CHOICE). Past RAM_SIZE it breaks bulkLoad's
precondition (log 15). -/
def writeImage (offset : Nat) (bytes : List Byte) (s : State) : Host.Outcome State Fault Refusal :=
  if s.cfg.ramSize < offset + bytes.length then .fault .imageWriteOutOfRange
  else
    let s1 := s.setBs (s.bs.writeBytes offset bytes)
    .next (if s.mayBulkLoad then s1 else s1.unsettle (touchedTags s.cfg offset bytes.length))

/-- The bulk loads of a boot, one after the other (R195). A load that fails with IOFault (R4) is shown by the bytes
that landed, and a restart that follows it by a further event (log 25, DESIGN CHOICE). -/
def loadImage : List (Nat × List Byte) → State → Host.Outcome State Fault Refusal
  | [], s => .next s
  | (offset, bytes) :: parts, s =>
    match writeImage offset bytes s with
    | .next s1 => loadImage parts s1
    | .fault f => .fault f
    | .refused r => .refused r

/-! ### The run loop (R151) -/

/-- The Control agent's effect on the block for a step-result code (R151). -/
inductive RunAction where
  | none
  | restart
  | powerOff
deriving DecidableEq, Repr

/-- The table of R151: 0, 1 and 3 do nothing to the block, POWEROFF_CODE powers off, and RESTART_CODE, FAIL_CODE and
every other value restart. -/
def runAction (c : Config) (code : Word) : RunAction :=
  if code = 0#32 ∨ code = 1#32 ∨ code = 3#32 then .none
  else if code = c.poweroffCode then .powerOff
  else .restart

/-- FLUSH_ALL, and after its response the release of the backing store (R194). -/
def powerOff (s : State) : Host.Outcome State Fault Refusal :=
  match sweep flushSlot s with
  | .done r s1 => .next { s1.setResp (some r) with released := true }
  | .stop why s1 => conclude (.stop why s1)

/-- The run loop acts on the code it holds, if any (R151): the last one, when POST_EXEC gave several since it last
acted (log 26). -/
def runLoopStep (image : List (Nat × List Byte)) (s : State) : Host.Outcome State Fault Refusal :=
  match s.postCode with
  | .none => .next s
  | .some code =>
    let s1 := s.setPostCode none
    match runAction s.cfg code with
    | RunAction.none => .next s1
    | .restart => accept s1 fun s2 => loadImage image s2.restartBlock
    | .powerOff => accept s1 powerOff

/-- One host event. -/
def hostStep (e : HostEvent) (s : State) : Host.Outcome State Fault Refusal :=
  match e with
  | .powerOn ok => .next (s.powerOn ok)
  | .imageWrite offset bytes => writeImage offset bytes s
  | .runLoop image => runLoopStep image s
  | .release => .next { s with released := true }

end Sys2Proof.Machine
end

