-- ==== Sys2Proof/Machine/Step.lean ====
section
/-! DEFINITION. One step: the block serves the oldest input, whole (spec/30_encoding.md R67, spec/00_scope.md R6); with
no input it waits. -/

namespace Sys2Proof.Machine

open Sys2Proof

/-- The oldest input is served. A request is decoded in the state it finds (R69) and, if accepted, noted (R195) and
executed. -/
def serve (s : State) : Host.Outcome State Fault Refusal :=
  match s.inputs with
  | [] => .next s
  | .host e :: rest => configured (s.setInputs rest) (hostStep e)
  | .request r :: rest =>
    configured (s.setInputs rest) fun s1 => accept s1 fun s2 => exec (decode s2.decodeCtx r) (s2.noteRequest r.port)

/-- One step of the machine: the oldest input is served, and then the unsettled lines, if any, hold what was drawn
(R201). -/
def step (s : State) : Host.Outcome State Fault Refusal := drifted (serve s)

/-- The state with the instruction of the bits `w` presented as the oldest input, so that the next step runs it. -/
def State.withFetchWord (s : State) (nbits w : Nat) : State :=
  s.setInputs (.request (requestOfBits (w % 2 ^ nbits)) :: s.inputs)

end Sys2Proof.Machine
end

