-- ==== Sys2Proof/Safety.lean ====
section
/-! DEFINITION. The words the claims use: the cache invariants of spec/10_state.md R26 with what keeps the record
well shaped, agreement of clean lines with the image, the premises on the backing store's answers, and frames. -/

namespace Sys2Proof.Machine

open Sys2Proof

/-- What every step keeps: R26's I-tag, I-align, I-dirty and I-lru, the parameters' constraints (R8, R9), the shape of
the record (R20: NUM_LINES slots of LINE_SIZE bytes) and the image's canonical form inside RAM_SIZE (R32). -/
structure Inv (s : State) : Prop where
  cfg_wf      : s.cfg.wf
  slot_count  : s.slots.length = s.cfg.numLines
  line_length : ∀ x ∈ s.slots, x.data.length = s.cfg.lineSize
  tag_unique  : ∀ i < s.cfg.numLines, ∀ j < s.cfg.numLines, (s.slot i).valid = true → (s.slot j).valid = true →
    (s.slot i).tag = (s.slot j).tag → i = j
  tag_aligned : ∀ x ∈ s.slots, x.valid = true → x.tag.toNat % s.cfg.lineSize = 0 ∧ x.tag.toNat < s.cfg.ramSize
  dirty_valid : ∀ x ∈ s.slots, x.dirty = true → x.valid = true
  lru_perm    : s.lru.Perm (List.range s.cfg.numLines)
  image_wf    : s.bs.wf = true
  image_bound : ∀ c ∈ s.bs, c.1 < s.cfg.ramSize

/-- A valid clean line holds what the image holds (R23: dirty is 1 when the buffer holds bytes not yet written). Only
an external write of the image while a line is resident breaks it (R201). -/
def Coherent (s : State) : Prop :=
  ∀ x ∈ s.slots, x.valid = true → x.dirty = false → x.data = s.bs.readBytes x.tag.toNat s.cfg.lineSize

/-- The console host accepts each of the next `n` output bytes. -/
def State.accepts (s : State) (n : Nat) : Prop := ∀ a ∈ s.conAnswers.take n, a = none

/-- Every backing-store event to come is answered, OK or FAIL, and every output byte accepted: no power-on reset falls
inside a transaction and no wait is endless. -/
structure State.uncut (s : State) : Prop where
  answers : ∀ a ∈ s.bsAnswers, a.cut = none
  console : ∀ a ∈ s.conAnswers, a = none

/-- Every backing-store answer still to come is OK, and no transaction is cut short. -/
structure State.quiet (s : State) : Prop extends s.uncut where
  oks : ∀ a ∈ s.bsAnswers, a.ok = true

/-- The host does its duties (R206): every event is answered and every byte accepted in finite time, but for power-on
reset, which may come at any of them. -/
structure State.dutiful (s : State) : Prop where
  answers : ∀ a ∈ s.bsAnswers, a.cut ≠ some .never
  console : ∀ a ∈ s.conAnswers, a ≠ some .never

/-- What the cache does not own: the parameters, the pending input, the halt, the console and its draws, the run loop's
code, the release, whether the image is still being booted, the inputs still to come and the unsettled lines with their
draws are those of `s`. -/
structure KeepsRest (s t : State) : Prop where
  cfg       : t.cfg = s.cfg
  pendValid : t.pendValid = s.pendValid
  pendByte  : t.pendByte = s.pendByte
  halted    : t.halted = s.halted
  conOut    : t.conOut = s.conOut
  conDraws  : t.conAnswers = s.conAnswers
  postCode  : t.postCode = s.postCode
  released  : t.released = s.released
  booting   : t.booting = s.booting
  inputs    : t.inputs = s.inputs
  unsettled : t.unsettled = s.unsettled
  draws     : t.draws = s.draws

/-- The block's fields in `t` have their power-on values, for the parameters of `s` and the bs_open_ok sample `ok`, and
there is no response (R39, R190, R192). Line buffers are not named: R39 leaves them unspecified. -/
structure PoweredOn (ok : Bool) (s t : State) : Prop where
  slot_count : t.slots.length = s.cfg.numLines
  slots      : ∀ x ∈ t.slots, x.valid = false ∧ x.dirty = false ∧ x.tag = 0#32
  lru        : t.lru = List.range s.cfg.numLines
  accesses   : t.accesses = 0#64
  hits       : t.hits = 0#64
  pendValid  : t.pendValid = false
  pendByte   : t.pendByte = 0#8
  latch      : t.ioFaultLatch = false
  halted     : t.halted = !ok
  conOut     : t.conOut = []
  errLog     : t.errLog = []
  resp       : t.resp = none

/-- An instruction that emits `n` bytes ends where the console host does not accept byte `k` of them: it waits for ever,
or power-on reset abandons it (R206, R168; the draw is the model's, log 18). -/
def EndsAtConsoleCut (s : State) (i : Instr) (n : Nat) : Prop :=
  ∀ k < n, s.accepts k →
    (s.conAnswers.getD k none = some .never → exec i s = .fault .consoleNeverAccepts) ∧
    ∀ ok, s.conAnswers.getD k none = some (.powerOn ok) →
      ∃ t, exec i s = .next t ∧ PoweredOn ok s t ∧ t.bs = s.bs ∧ t.bsLog = s.bsLog

/-- No fault was recorded: the latch and the error stream are those of `s`. -/
structure KeepsErrors (s t : State) : Prop where
  latch  : t.ioFaultLatch = s.ioFaultLatch
  errLog : t.errLog = s.errLog

/-- The cache, its statistics, the image and the backing-store port are those of `s`. -/
structure KeepsCache (s t : State) : Prop where
  slots     : t.slots = s.slots
  lru       : t.lru = s.lru
  accesses  : t.accesses = s.accesses
  hits      : t.hits = s.hits
  bs        : t.bs = s.bs
  bsAnswers : t.bsAnswers = s.bsAnswers
  bsLog     : t.bsLog = s.bsLog

/-- The line a backing-store event moves. -/
def BsEvent.tag : BsEvent → Nat
  | .read t _ => t
  | .write t _ _ => t

/-- Whether a backing-store event was answered OK. -/
def BsEvent.ok : BsEvent → Bool
  | .read _ ok => ok
  | .write _ _ ok => ok

/-- Whether a backing-store event writes line `tag`. -/
def BsEvent.writes (tag : Nat) : BsEvent → Bool
  | .read _ _ => false
  | .write t _ _ => t == tag

/-- A backing-store event of R63: it moves one whole line of RAM. -/
def BsEvent.wholeLine (c : Config) (e : BsEvent) : Prop :=
  e.tag % c.lineSize = 0 ∧ e.tag < c.ramSize ∧
    match e with
    | .read _ _ => True
    | .write _ data _ => data.length = c.lineSize

/-- The bytes the core sees from RAM offset `o` on (R50). -/
def State.viewBytes (s : State) (o n : Nat) : List Byte := (List.range n).map fun j => s.view (o + j)

/-- A line is resident: some valid slot holds its tag (R13). -/
def State.resident (s : State) (tag : Nat) : Prop := ∃ x ∈ s.slots, x.valid = true ∧ x.tag.toNat = tag

/-- A STORE to RAM (R94 to R96). -/
def storesToRam : Instr → Bool
  | .storeBRam _ _ | .storeHRam _ _ | .storeWRam _ _ => true
  | _ => false

/-! ### The RAM rows, for statements that hold of each -/

/-- FETCH.ram and the LOAD.ram rows at a bus address, with the bytes each moves (R90 to R93). -/
def ramReads (a : Word) : List (Instr × Nat) :=
  [(.fetchRam a, 4), (.loadBRam a, 1), (.loadHRam a, 2), (.loadWRam a, 4)]

/-- The STORE.ram rows at a bus address, with the bytes each moves (R94 to R96). -/
def ramWrites (a v : Word) : List (Instr × Nat) :=
  [(.storeBRam a v, 1), (.storeHRam a v, 2), (.storeWRam a v, 4)]

/-- The lines an access of `n` bytes at RAM offset `o` touches: 1 or 2 (R43, R81). -/
def linesTouched (c : Config) (o n : Nat) : Nat := if o % c.lineSize + n ≤ c.lineSize then 1 else 2

/-- How many of the `n` bytes at RAM offset `o` lie in the first `k` lines the access touches (R43). -/
def bytesUpTo (c : Config) (o n k : Nat) : Nat := min n (k * c.lineSize - o % c.lineSize)

/-- The word whose byte `j` is `bytes j` for `j < n` and 0 above (R68). -/
def wordOf (rdata : Word) (n : Nat) (bytes : Nat → Byte) : Prop :=
  ∀ j < 4, rdata.extractLsb' (8 * j) 8 = if j < n then bytes j else 0#8

/-- `t` counts `lines` accesses more than `s`, and at most that many hits more (R27, R89). -/
def CountsLines (s t : State) (lines : Nat) : Prop :=
  t.accesses = s.accesses + BitVec.ofNat 64 lines ∧ ∃ k ≤ lines, t.hits = s.hits + BitVec.ofNat 64 k

/-- `t` holds the low `m` bytes of `v` from RAM offset `o` on, and every other byte of RAM as `s` holds it. -/
def HoldsBytes (s t : State) (o m : Nat) (v : Word) : Prop :=
  ∀ p, t.view p = if o ≤ p ∧ p < o + m then v.extractLsb' (8 * (p - o)) 8 else s.view p

/-! ### The write-backs of a sweep (R97, R98) -/

/-- Slot `j` is valid and dirty. -/
def State.dirtyAt (s : State) (j : Nat) : Bool := (s.slot j).valid && (s.slot j).dirty

/-- The answer the write-back of slot `j` draws in a sweep: one answer for each dirty slot below it was drawn before. -/
def State.sweepAnswer (s : State) (j : Nat) : BsAnswer :=
  s.bsAnswers.getD ((List.range j).countP s.dirtyAt) BsAnswer.good

/-- The write-back of slot `j` is tried in a sweep and answered FAIL. -/
def State.sweepFails (s : State) (j : Nat) : Bool := s.dirtyAt j && !(s.sweepAnswer j).ok

/-- A sweep of every slot in ascending order (R97, R98): each dirty line is written once at its tag; a slot whose
write failed stays as it was and is reported; every other slot becomes `g` of itself; the response carries IOFault when
some write failed. -/
structure Swept (s t : State) (g : Slot → Slot) : Prop where
  rest     : KeepsRest s t
  lru      : t.lru = s.lru
  accesses : t.accesses = s.accesses
  hits     : t.hits = s.hits
  slots    : ∀ j < s.cfg.numLines, t.slot j = if s.sweepFails j then s.slot j else g (s.slot j)
  events   : t.bsLog = s.bsLog ++ ((List.range s.cfg.numLines).filter s.dirtyAt).map fun j =>
    .write (s.slot j).tag.toNat (s.slot j).data (s.sweepAnswer j).ok
  errLog   : t.errLog = s.errLog ++ ((List.range s.cfg.numLines).filter s.sweepFails).map fun j =>
    ⟨.io, (s.slot j).tag⟩
  latch    : t.ioFaultLatch = (s.ioFaultLatch || (List.range s.cfg.numLines).any s.sweepFails)
  resp     : t.resp = some ⟨0#32, if (List.range s.cfg.numLines).any s.sweepFails then some .io else none, none⟩

/-! ### The image and the backing-store events (R32, R63, R64) -/

/-- The image after the events `events`, the answers drawn for them standing in `answers`. -/
def replay (lineSize : Nat) : List BsEvent → List BsAnswer → Memory → Memory
  | [], _, m => m
  | .read _ _ :: es, answers, m => replay lineSize es answers.tail m
  | .write tag data ok :: es, answers, m =>
    replay lineSize es answers.tail
      (m.writeBytes tag (if ok then data else (answers.headD BsAnswer.good).left.take lineSize))

/-- The value of a string of decimal digits, most significant first. -/
def decValue (digits : List Byte) : Nat := digits.foldl (fun n d => 10 * n + (d.toNat - 0x30)) 0

/-- No slot holds a line. -/
def State.empty (s : State) : Prop := ∀ x ∈ s.slots, x.valid = false

end Sys2Proof.Machine
end

