-- ==== Sys2Proof/Certificates/Slice0/Obligations.lean ====
section
/-! DEFINITION. The statements about this model, one definition each, in the order of OBLIGATIONS.json. Each docstring
names the rules of spec/ it rests on. A statement that rests on a choice of the model names its log entry. -/

open Sys2Proof Sys2Proof.Machine

/-! ### Encoding and decoding -/

/-- R55 to R58: the encoding loses no operand; every well-formed instruction decodes back to itself. -/
def Obligations.DecodeInvertsEncode : Prop :=
  ∀ (c : DecodeCtx) (i : Instr), i.wellFormed c = true → decode c (encode i) = i

/-- R69: the decoder is total and gives only instructions whose row conditions hold. -/
def Obligations.DecodeGivesWellFormed : Prop :=
  ∀ (c : DecodeCtx) (r : Request), (decode c r).wellFormed c = true

/-- R69: every key matches exactly one row of the opcode table at the lowest priority it matches, and the decoder
answers with that row. -/
def Obligations.DecodeFollowsOpcodeTable : Prop :=
  ∀ (c : DecodeCtx) (r : Request), ∃ row, winningRows c r = [row] ∧ row.mnemonic = (decode c r).mnemonic

/-- R55, R57, R59: the bits a command ignores do not matter: rsv always, size outside LOAD and STORE, a for a command
without an address on its own port, wdata where the command takes none, wdata[31:8] for POLL_INPUT. -/
def Obligations.DecodeIgnoresUnnamedBits : Prop :=
  ∀ (c : DecodeCtx) (r r' : Request), r.port = r'.port → keyCmd r.key = keyCmd r'.key →
    (keyCmd r.key ∈ [0x1#4, 0x2#4] → keySize r.key = keySize r'.key) →
    ((∀ cmd ∈ [Cmd.flushAll, .evictAll, .getStats, .pollInput, .restart],
        ¬ (keyCmd r.key = cmd.code ∧ r.port = cmd.port)) → keyAddr r.key = keyAddr r'.key) →
    (keyCmd r.key ∈ [0x2#4, 0x4#4, 0x5#4] → r.wdata = r'.wdata) →
    (keyCmd r.key = 0x9#4 → r.wdata.setWidth 8 = r'.wdata.setWidth 8) →
    decode c r = decode c r'

/-- Words written out from the encoding of R55 to R58, one or two of each family. -/
def Obligations.SampleWordsDecode : Prop :=
  decode ⟨Config.standard, false⟩ ⟨.core, 0x008000000E#40, 0#32⟩ = .fetchRam 0x8000000E#32 ∧
  decode ⟨Config.standard, false⟩ ⟨.core, 0x148000000F#40, 0#32⟩ = .loadHRam 0x8000000F#32 ∧
  decode ⟨Config.standard, false⟩ ⟨.core, 0x2880000004#40, 0xDEADBEEF#32⟩ = .storeWRam 0x80000004#32 0xDEADBEEF#32 ∧
  decode ⟨Config.standard, false⟩ ⟨.core, 0x2B10000000#40, 0x21#32⟩ = .storeUartTx .word 0x21#32 ∧
  decode ⟨Config.standard, true⟩ ⟨.core, 0x1810000000#40, 0#32⟩ = .loadUartRx .word ∧
  decode ⟨Config.standard, false⟩ ⟨.core, 0x187FFFFFFE#40, 0#32⟩ = .loadUnmapped .word 0x7FFFFFFE#32 ∧
  decode ⟨Config.standard, false⟩ ⟨.core, 0x4000000138#40, 0x80000020#32⟩ = .csrwDbgStr 0x80000020#32 ∧
  decode ⟨Config.standard, false⟩ ⟨.core, 0x3C00000140#40, 0#32⟩ = .csrrDbgIn ∧
  decode ⟨Config.standard, false⟩ ⟨.core, 0x5000B52023#40, 3#32⟩ = .postExec 0x00B52023#32 3#32 ∧
  decode ⟨Config.standard, false⟩ ⟨.console, 0x9000000000#40, 0x41#32⟩ = .pollInput 0x41#8 ∧
  decode ⟨Config.standard, false⟩ ⟨.core, 0x9000000000#40, 0#32⟩ = .reservedWrongPort .core .pollInput 0#32 ∧
  decode ⟨Config.standard, false⟩ ⟨.core, 0xF080000000#40, 0#32⟩ = .reservedCmdCToF .core 3#2 0x80000000#32

/-- R41, R44, R45: the address map as ranges of bus addresses, and the one translation. -/
def Obligations.AddressMap : Prop :=
  ∀ (c : Config) (a : Word), c.wf →
    (c.region a = .device ↔ 0x10000000 ≤ a.toNat ∧ a.toNat < 0x10000008) ∧
    (c.region a = .ram ↔ c.ramImageOffset.toNat ≤ a.toNat ∧ a.toNat < c.ramImageOffset.toNat + c.ramSize) ∧
    (c.region a = .unmapped ↔ c.region a ≠ .device ∧ c.region a ≠ .ram) ∧
    (c.region a = .ram → c.off a = a.toNat - c.ramImageOffset.toNat)

/-- R111, R112: which row performs a LOAD, a STORE and a FETCH on the core port. -/
def Obligations.LoadStoreFetchDispatch : Prop :=
  ∀ (c : DecodeCtx) (k : Key) (v : Word) (w : Width), c.cfg.wf →
    (keyCmd k = 0x1#4 → Width.ofCode (keySize k) = some w →
      decode c ⟨.core, k, v⟩ =
        match c.cfg.region (keyAddr k) with
        | .device =>
          if keyAddr k = 0x10000000#32 then if c.pendValid then .loadUartRx w else .loadUartRxEmpty w
          else if keyAddr k = 0x10000005#32 then .loadUartLsr w
          else .loadDevDefault w ((keyAddr k).extractLsb' 0 3)
        | .ram =>
          match w with
          | .byte => .loadBRam (keyAddr k)
          | .half => .loadHRam (keyAddr k)
          | .word => .loadWRam (keyAddr k)
        | .unmapped => .loadUnmapped w (keyAddr k)) ∧
    (keyCmd k = 0x2#4 → Width.ofCode (keySize k) = some w →
      decode c ⟨.core, k, v⟩ =
        match c.cfg.region (keyAddr k) with
        | .device =>
          if keyAddr k = 0x10000000#32 then .storeUartTx w v
          else .storeDevDefault w ((keyAddr k).extractLsb' 0 3) v
        | .ram =>
          match w with
          | .byte => .storeBRam (keyAddr k) v
          | .half => .storeHRam (keyAddr k) v
          | .word => .storeWRam (keyAddr k) v
        | .unmapped => .storeUnmapped w (keyAddr k) v) ∧
    (keyCmd k = 0x0#4 →
      decode c ⟨.core, k, v⟩ =
        if c.cfg.region (keyAddr k) = .ram then .fetchRam (keyAddr k) else .fetchNonram (keyAddr k))

/-- R56, R58, R71, R130: CSR transactions are decided by the number alone; the commands without an address by `cmd`
and the port; a command on another port, a reserved command, a reserved size and a wide CSR number are reserved. -/
def Obligations.CsrCommandAndReservedDispatch : Prop :=
  ∀ (c : DecodeCtx) (k : Key) (v : Word),
    (keyCmd k = 0x3#4 → decode c ⟨.core, k, v⟩ =
      if 0x1000 ≤ (keyAddr k).toNat then .reservedCsrrWide (keyAddr k)
      else if keyAddr k = 0x140#32 then .csrrDbgIn else .csrrDefault ((keyAddr k).extractLsb' 0 12)) ∧
    (keyCmd k = 0x4#4 → decode c ⟨.core, k, v⟩ =
      if 0x1000 ≤ (keyAddr k).toNat then .reservedCsrwWide (keyAddr k)
      else if keyAddr k = 0x136#32 then .csrwDbgDec v
      else if keyAddr k = 0x137#32 then .csrwDbgHex v
      else if keyAddr k = 0x138#32 then .csrwDbgStr v
      else if keyAddr k = 0x139#32 then .csrwDbgChr v
      else .csrwDefault ((keyAddr k).extractLsb' 0 12) v) ∧
    (keyCmd k = 0x5#4 → decode c ⟨.core, k, v⟩ = .postExec (keyAddr k) v) ∧
    (keyCmd k = 0x6#4 → decode c ⟨.control, k, v⟩ = .flushAll) ∧
    (keyCmd k = 0x7#4 → decode c ⟨.control, k, v⟩ = .evictAll) ∧
    (keyCmd k = 0x8#4 → decode c ⟨.control, k, v⟩ = .getStats) ∧
    (keyCmd k = 0x9#4 → decode c ⟨.console, k, v⟩ = .pollInput (v.extractLsb' 0 8)) ∧
    (keyCmd k = 0xA#4 → decode c ⟨.control, k, v⟩ = .restart) ∧
    (keyCmd k = 0x1#4 → keySize k = 3#2 → decode c ⟨.core, k, v⟩ = .reservedLoadSize11 (keyAddr k)) ∧
    (keyCmd k = 0x2#4 → keySize k = 3#2 → decode c ⟨.core, k, v⟩ = .reservedStoreSize11 (keyAddr k)) ∧
    (∀ p : Port, keyCmd k = 0xB#4 → decode c ⟨p, k, v⟩ = .reservedCmdB p (keyAddr k)) ∧
    (∀ p : Port, 0xC#4 ≤ keyCmd k →
      decode c ⟨p, k, v⟩ = .reservedCmdCToF p ((keyCmd k).extractLsb' 0 2) (keyAddr k)) ∧
    (∀ (p : Port) (cmd : Cmd), keyCmd k = cmd.code → p ≠ cmd.port →
      decode c ⟨p, k, v⟩ = .reservedWrongPort p cmd (keyAddr k))

/-! ### The step -/

/-- R67, R69: an accepted request is decoded in the state the block is in and performed whole, with nothing around it
but the request leaving the queue of inputs (the queue is the model's, log 2), a core port's request ending the time in
which the image may be bulk-loaded (`booting`; R195, log 27), and, while an external modification has left lines
unsettled, the drawing of those lines (`drifted`; R201, log 14): with none unsettled the step is exec. -/
def Obligations.StepRunsDecodedRequest : Prop :=
  (∀ (s : State) (r : Request) (rest : List Input), s.inputs = .request r :: rest → s.cfg.wf →
    s.halted = false → s.released = false →
    ∀ s1, s1 = { s with inputs := rest, booting := if r.port = .core then false else s.booting } →
      step s = drifted (exec (decode ⟨s.cfg, s.pendValid⟩ r) s1) ∧
      (s.unsettled = [] → step s = exec (decode ⟨s.cfg, s.pendValid⟩ r) s1)) ∧
  ∀ (s : State) (nbits w : Nat) (r : Request), s.cfg.wf → s.halted = false → s.released = false →
    r = requestOfBits (w % 2 ^ nbits) → ∀ s1, s1 = { s with booting := if r.port = .core then false else s.booting } →
      step (s.withFetchWord nbits w) = drifted (exec (decode ⟨s.cfg, s.pendValid⟩ r) s1) ∧
      (s.unsettled = [] → step (s.withFetchWord nbits w) = exec (decode ⟨s.cfg, s.pendValid⟩ r) s1)

/-- R30, R192: while halted the block accepts no request; R194: nor does it after the backing store is released.
Power-on reset acts in either case. That the agent is stuck is a named stop of the step (log 12), that the release holds
until power-on reset, which clears `released`, is the model's choice (log 13, which calls it unsafe). The statement is
of requests: what the other host events do meanwhile it does not say. -/
def Obligations.HaltedBlockAcceptsNoRequest : Prop :=
  ∀ (s : State) (rest : List Input), s.cfg.wf →
    (∀ r, s.inputs = .request r :: rest → s.halted = true → step s = .fault .halted) ∧
    (∀ r, s.inputs = .request r :: rest → s.halted = false → s.released = true → step s = .fault .released) ∧
    ∀ ok, s.inputs = .host (.powerOn ok) :: rest →
      ∃ t, step s = .next t ∧ t.halted = !ok ∧ t.released = false ∧ t.inputs = rest

/-- R190, R39, R192: power-on reset sets every field of the block, issues no backing-store transaction and gives no
response (`PoweredOn`); the image stays as it was, but for lines an external modification left unsettled (R201), and it
may be bulk-loaded (R195, log 27). -/
def Obligations.PowerOnResetValues : Prop :=
  ∀ (s : State) (ok : Bool) (rest : List Input), s.cfg.wf → s.inputs = .host (.powerOn ok) :: rest →
    ∃ t, step s = .next t ∧ PoweredOn ok s t ∧ t.cfg = s.cfg ∧ t.bsLog = s.bsLog ∧ t.inputs = rest ∧
      t.empty ∧ t.booting = true ∧
      ∀ p, s.unsettledAt p = false → t.bs.read p = s.bs.read p

/-- R39: the machine right after reset, in the fields the rule gives a value. -/
def Obligations.ResetStateValues : Prop :=
  State.reset.slots.length = State.reset.cfg.numLines ∧
  (∀ x ∈ State.reset.slots, x.valid = false ∧ x.dirty = false ∧ x.tag = 0#32) ∧
  State.reset.lru = List.range State.reset.cfg.numLines ∧
  State.reset.accesses = 0#64 ∧ State.reset.hits = 0#64 ∧
  State.reset.pendValid = false ∧ State.reset.pendByte = 0#8 ∧ State.reset.ioFaultLatch = false ∧
  State.reset.halted = false ∧ State.reset.conOut = [] ∧ State.reset.errLog = []

/-! ### What every step keeps -/

/-- R26: the invariants hold right after reset, and the clean lines agree with the image (there are none). -/
def Obligations.ResetMeetsInvariant : Prop := Inv State.reset ∧ Coherent State.reset

/-- R26, R22, R63: every step keeps the cache invariants, the parameters' constraints, the shape of the record and the
canonical form of the image, whatever the input and the backing store's answers. -/
def Obligations.StepKeepsInvariant : Prop :=
  ∀ s s' : State, Inv s → step s = .next s' → Inv s'

/-- R23, R201, R195: every step keeps a clean line equal to the image, and no line becomes unsettled, unless another
agent writes the image while a slot is valid or after the core's first transaction. -/
def Obligations.StepKeepsCoherence : Prop :=
  ∀ s s' : State, Inv s → Coherent s → s.unsettled = [] →
    (∀ offset bytes rest, s.inputs = .host (.imageWrite offset bytes) :: rest →
      s.empty ∧ s.booting = true) →
    step s = .next s' → Coherent s' ∧ s'.unsettled = []

/-- R20: the parameters are configuration; no step changes them. -/
def Obligations.StepKeepsConfiguration : Prop :=
  ∀ s s' : State, step s = .next s' → s'.cfg = s.cfg

/-- R26 (I-stat), R27: a transaction keeps hits at most accesses, while the counters are too low to wrap inside it (a
wrap at 2^64 is the model's, log 16). -/
def Obligations.HitsNeverExceedAccesses : Prop :=
  ∀ (i : Instr) (s t : State), Inv s → exec i s = .next t → s.hits.toNat ≤ s.accesses.toNat →
    s.accesses.toNat + s.cfg.ramSize + 2 < 2 ^ 64 → t.hits.toNat ≤ t.accesses.toNat

/-- R26 (I-wt): under WRITE_THROUGH a slot is dirty after a transaction only if it was dirty before, with that tag, or
a write of its line's present bytes failed in the transaction. -/
def Obligations.DirtyOnlyAfterFailedWriteThrough : Prop :=
  ∀ (i : Instr) (s t : State), Inv s → s.cfg.writePolicy = .writeThrough → exec i s = .next t →
    ∀ x ∈ t.slots, x.dirty = true →
      (∃ y ∈ s.slots, y.dirty = true ∧ y.tag = x.tag) ∨
      .write x.tag.toNat x.data false ∈ t.bsLog.drop s.bsLog.length

/-- R31, R61, R62: no transaction shortens the console output or the error stream (one cut short aside). -/
def Obligations.StreamsOnlyGrow : Prop :=
  ∀ (i : Instr) (s t : State), Inv s → s.uncut → exec i s = .next t → s.conOut <+: t.conOut ∧ s.errLog <+: t.errLog

/-- R29, R163, R173: the latch rises only with an IOFault recorded in the same transaction, rises whenever one is, and
falls only by POST_EXEC and RESTART. -/
def Obligations.LatchFollowsIoFaults : Prop :=
  ∀ (i : Instr) (s t : State), Inv s → s.uncut → exec i s = .next t →
    (s.ioFaultLatch = false → (t.ioFaultLatch = true ↔ ∃ x ∈ t.errLog.drop s.errLog.length, x.kind = .io)) ∧
    (s.ioFaultLatch = true → t.ioFaultLatch = false → (∃ insn code, i = .postExec insn code) ∨ i = .restart)

/-! ### FETCH, LOAD and STORE on RAM -/

/-- R90 to R93, R46, R68: a FETCH or LOAD whose bytes lie in RAM answers with them, little-endian and zero-extended, at
every alignment; it counts one access for each line it touches and changes no byte the core sees. -/
def Obligations.ReadsReturnRamBytes : Prop :=
  ∀ (s : State) (a : Word) (i : Instr) (n : Nat), (i, n) ∈ ramReads a → Inv s → Coherent s → s.quiet →
    s.cfg.off a + n ≤ s.cfg.ramSize →
    ∃ t rdata, exec i s = .next t ∧ t.resp = some ⟨rdata, none, none⟩ ∧
      wordOf rdata n (fun j => s.view (s.cfg.off a + j)) ∧ (∀ p, t.view p = s.view p) ∧
      KeepsRest s t ∧ KeepsErrors s t ∧ CountsLines s t (linesTouched s.cfg (s.cfg.off a) n)

/-- R94 to R96, R46, R59: a STORE whose bytes lie in RAM writes exactly them, little-endian, at every alignment. -/
def Obligations.StoresWriteRamBytes : Prop :=
  ∀ (s : State) (a v : Word) (i : Instr) (n : Nat), (i, n) ∈ ramWrites a v → Inv s → Coherent s → s.quiet →
    s.cfg.off a + n ≤ s.cfg.ramSize →
    ∃ t, exec i s = .next t ∧ t.resp = some ⟨0#32, none, none⟩ ∧ HoldsBytes s t (s.cfg.off a) n v ∧
      KeepsRest s t ∧ KeepsErrors s t ∧ CountsLines s t (linesTouched s.cfg (s.cfg.off a) n)

/-- R161, R118, R119, R42: a BoundsFault is recorded with the bus address and answered, and nothing else changes.
Log 19 (DEDUCED): the statement covers every address, so also terms whose row the decoder gives no such address; there
the one bounds check the RAM rows share makes LOAD.B and STORE.B report it too, which R91 says cannot arise. -/
def Obligations.BoundsFaultsArePrecise : Prop :=
  ∀ (s : State) (a v : Word) (w : Width),
    (∀ i n, (i, n) ∈ ramReads a ++ ramWrites a v → s.cfg.ramSize < s.cfg.off a + n →
      exec i s = .next { s with
        errLog := s.errLog ++ [⟨.bounds, a⟩]
        resp   := some ⟨0#32, some .bounds, none⟩ }) ∧
    ∀ i ∈ [Instr.fetchNonram a, .loadUnmapped w a, .storeUnmapped w a v],
      exec i s = .next { s with
        errLog := s.errLog ++ [⟨.bounds, a⟩]
        resp   := some ⟨0#32, some .bounds, none⟩ }

/-- R50, R54, R89 (view), R166: no transaction but a STORE to RAM and RESTART changes a byte the core sees, whatever
the backing store answers. -/
def Obligations.OnlyStoresChangeRam : Prop :=
  ∀ (i : Instr) (s t : State), Inv s → Coherent s → s.uncut → exec i s = .next t → storesToRam i = false →
    i ≠ .restart → ∀ p, t.view p = s.view p

/-- R166, R88, R162, R86: whatever the backing store answers, a STORE to RAM either completes, or answers IOFault in the
last of the `lines` lines it counted: the last event on the port failed and the fault names its line. The bytes of the
lines before that one are written and stay written; the bytes of that line are written too where the failed event was
its write-through, which only WRITE_THROUGH issues; no other byte changes. -/
def Obligations.StoreStopsAtPieceBoundary : Prop :=
  ∀ (s : State) (a v : Word) (i : Instr) (n : Nat), (i, n) ∈ ramWrites a v → Inv s → Coherent s → s.uncut →
    s.cfg.off a + n ≤ s.cfg.ramSize →
    ∃ t, exec i s = .next t ∧ KeepsRest s t ∧
      ((t.resp = some ⟨0#32, none, none⟩ ∧ KeepsErrors s t ∧ HoldsBytes s t (s.cfg.off a) n v) ∨
        (t.resp = some ⟨0#32, some .io, none⟩ ∧ t.ioFaultLatch = true ∧
          ∃ (line : Word) (e : BsEvent) (lines : Nat),
            t.errLog = s.errLog ++ [⟨.io, line⟩] ∧ line.toNat % s.cfg.lineSize = 0 ∧ line.toNat < s.cfg.ramSize ∧
            t.bsLog.getLast? = some e ∧ e.ok = false ∧ e.tag = line.toNat ∧
            0 < lines ∧ lines ≤ linesTouched s.cfg (s.cfg.off a) n ∧
            t.accesses = s.accesses + BitVec.ofNat 64 lines ∧
            ∀ own, own = s.cfg.tagOf (s.cfg.off a) + (lines - 1) * s.cfg.lineSize →
              (e.writes own = true → s.cfg.writePolicy = .writeThrough) ∧
              HoldsBytes s t (s.cfg.off a)
                (bytesUpTo s.cfg (s.cfg.off a) n (if e.writes own then lines else lines - 1)) v))

/-- R51, R52, R53: a FETCH or LOAD right after a STORE of the same width and address answers with the stored value. -/
def Obligations.LoadAfterStoreReturnsValue : Prop :=
  ∀ (s : State) (a v : Word) (st ld : Instr) (n : Nat), (st, n) ∈ ramWrites a v → (ld, n) ∈ ramReads a →
    Inv s → Coherent s → s.quiet → s.cfg.off a + n ≤ s.cfg.ramSize →
    ∃ t u, exec st s = .next t ∧ exec ld t = .next u ∧
      u.resp = some ⟨(v.setWidth (8 * n)).setWidth 32, none, none⟩

/-- R51, R98: so it does with EVICT_ALL between them, which leaves no line in the cache ("evict-everything"). -/
def Obligations.StoredValueSurvivesEviction : Prop :=
  ∀ (s : State) (a v : Word) (st ld : Instr) (n : Nat), (st, n) ∈ ramWrites a v → (ld, n) ∈ ramReads a →
    Inv s → Coherent s → s.quiet → s.cfg.off a + n ≤ s.cfg.ramSize →
    ∃ t e u, exec st s = .next t ∧ exec .evictAll t = .next e ∧ e.empty ∧ exec ld e = .next u ∧
      u.resp = some ⟨(v.setWidth (8 * n)).setWidth 32, none, none⟩

/-! ### Line resolution, exactly -/

/-- R82, R25: a read inside a resident line counts an access and a hit, moves its slot to the head of the recency
order, and changes nothing else; no backing-store transaction. -/
def Obligations.ReadHitTouchesOnlyRecency : Prop :=
  ∀ (s : State) (a : Word) (i : Instr) (n k : Nat), (i, n) ∈ ramReads a → Inv s →
    s.cfg.off a + n ≤ s.cfg.ramSize → s.cfg.idxOf (s.cfg.off a) + n ≤ s.cfg.lineSize →
    (s.slot k).valid = true → (s.slot k).tag.toNat = s.cfg.tagOf (s.cfg.off a) →
    ∃ rdata, wordOf rdata n (fun j => (s.slot k).data.getD (s.cfg.idxOf (s.cfg.off a) + j) 0#8) ∧
      exec i s = .next { s with
        accesses := s.accesses + 1#64
        hits     := s.hits + 1#64
        lru      := k :: s.lru.filter (· != k)
        resp     := some ⟨rdata, none, none⟩ }

/-- R83, R84, R80, R86: an access inside one line that is not resident, with a clean or invalid victim, issues one
BSRead of the line, puts it into the victim's slot, clean, and touches the slot; a read answers its bytes. A STORE does
the same (write-allocate) and then changes the line's bytes: under WRITE_BACK the slot is dirty and nothing more is
issued, under WRITE_THROUGH the whole line is written and the slot is clean. -/
def Obligations.MissFillsVictim : Prop :=
  ∀ (s : State) (a v : Word) (i : Instr) (n tag : Nat) (line : List Byte), Inv s → s.quiet →
    s.cfg.off a + n ≤ s.cfg.ramSize → s.cfg.idxOf (s.cfg.off a) + n ≤ s.cfg.lineSize →
    tag = s.cfg.tagOf (s.cfg.off a) → ¬ s.resident tag → (s.slot s.victim).dirty = false →
    ((i, n) ∈ ramReads a → line = s.bs.readBytes tag s.cfg.lineSize →
      ∃ rdata, wordOf rdata n (fun j => s.bs.read (s.cfg.off a + j)) ∧
        exec i s = .next { s with
          accesses  := s.accesses + 1#64
          slots     := s.slots.set s.victim ⟨true, BitVec.ofNat 32 tag, false, line⟩
          lru       := s.victim :: s.lru.filter (· != s.victim)
          bsAnswers := s.bsAnswers.tail
          bsLog     := s.bsLog ++ [.read tag true]
          resp      := some ⟨rdata, none, none⟩ }) ∧
    ((i, n) ∈ ramWrites a v →
      line = splice (s.bs.readBytes tag s.cfg.lineSize) (s.cfg.idxOf (s.cfg.off a)) (leBytes n v) →
      (s.cfg.writePolicy = .writeBack → exec i s = .next { s with
        accesses  := s.accesses + 1#64
        slots     := s.slots.set s.victim ⟨true, BitVec.ofNat 32 tag, true, line⟩
        lru       := s.victim :: s.lru.filter (· != s.victim)
        bsAnswers := s.bsAnswers.tail
        bsLog     := s.bsLog ++ [.read tag true]
        resp      := some ⟨0#32, none, none⟩ }) ∧
      (s.cfg.writePolicy = .writeThrough → exec i s = .next { s with
        accesses  := s.accesses + 1#64
        slots     := s.slots.set s.victim ⟨true, BitVec.ofNat 32 tag, false, line⟩
        lru       := s.victim :: s.lru.filter (· != s.victim)
        bs        := s.bs.writeBytes tag line
        bsAnswers := s.bsAnswers.tail.tail
        bsLog     := s.bsLog ++ [.read tag true, .write tag line true]
        resp      := some ⟨0#32, none, none⟩ }))

/-- R83, R84, R80, R86, R89 (write-back ordering): with a dirty victim an access first issues exactly one BSWrite of the
victim's bytes at the victim's tag, and only then the BSRead; the rest is as in MissFillsVictim. -/
def Obligations.MissWritesDirtyVictimFirst : Prop :=
  ∀ (s : State) (a v : Word) (i : Instr) (n tag : Nat) (line : List Byte), Inv s → s.quiet →
    s.cfg.off a + n ≤ s.cfg.ramSize → s.cfg.idxOf (s.cfg.off a) + n ≤ s.cfg.lineSize →
    tag = s.cfg.tagOf (s.cfg.off a) → ¬ s.resident tag → (s.slot s.victim).dirty = true →
    ((i, n) ∈ ramReads a → line = s.bs.readBytes tag s.cfg.lineSize →
      ∃ rdata, wordOf rdata n (fun j => s.bs.read (s.cfg.off a + j)) ∧
        exec i s = .next { s with
          accesses  := s.accesses + 1#64
          slots     := s.slots.set s.victim ⟨true, BitVec.ofNat 32 tag, false, line⟩
          lru       := s.victim :: s.lru.filter (· != s.victim)
          bs        := s.bs.writeBytes (s.slot s.victim).tag.toNat (s.slot s.victim).data
          bsAnswers := s.bsAnswers.tail.tail
          bsLog     := s.bsLog ++ [.write (s.slot s.victim).tag.toNat (s.slot s.victim).data true, .read tag true]
          resp      := some ⟨rdata, none, none⟩ }) ∧
    ((i, n) ∈ ramWrites a v →
      line = splice (s.bs.readBytes tag s.cfg.lineSize) (s.cfg.idxOf (s.cfg.off a)) (leBytes n v) →
      (s.cfg.writePolicy = .writeBack → exec i s = .next { s with
        accesses  := s.accesses + 1#64
        slots     := s.slots.set s.victim ⟨true, BitVec.ofNat 32 tag, true, line⟩
        lru       := s.victim :: s.lru.filter (· != s.victim)
        bs        := s.bs.writeBytes (s.slot s.victim).tag.toNat (s.slot s.victim).data
        bsAnswers := s.bsAnswers.tail.tail
        bsLog     := s.bsLog ++ [.write (s.slot s.victim).tag.toNat (s.slot s.victim).data true, .read tag true]
        resp      := some ⟨0#32, none, none⟩ }) ∧
      (s.cfg.writePolicy = .writeThrough → exec i s = .next { s with
        accesses  := s.accesses + 1#64
        slots     := s.slots.set s.victim ⟨true, BitVec.ofNat 32 tag, false, line⟩
        lru       := s.victim :: s.lru.filter (· != s.victim)
        bs        := (s.bs.writeBytes (s.slot s.victim).tag.toNat (s.slot s.victim).data).writeBytes tag line
        bsAnswers := s.bsAnswers.tail.tail.tail
        bsLog     := s.bsLog ++ [.write (s.slot s.victim).tag.toNat (s.slot s.victim).data true, .read tag true,
          .write tag line true]
        resp      := some ⟨0#32, none, none⟩ }))

/-- R85: the victim is the smallest invalid slot, else the last of the recency order; with one slot, slot 0. -/
def Obligations.VictimIsInvalidOrLeastRecent : Prop :=
  ∀ s : State, Inv s →
    (∀ k < s.cfg.numLines, (s.slot k).valid = false → (∀ j < k, (s.slot j).valid = true) → s.victim = k) ∧
    ((∀ j < s.cfg.numLines, (s.slot j).valid = true) → s.lru.getLast? = some s.victim) ∧
    (s.cfg.numLines = 1 → s.victim = 0)

/-- R83, R162, R64, R166: the write-back of a dirty victim fails, for a read or a STORE: the victim stays valid and
dirty, the IOFault names its tag, the latch is set, no line is read, and the image changes only where the failed write
may have left bytes (the bytes a failed write leaves are drawn, log 4). R206: where it is never answered, the block
waits (log 18 records the wait as a stop). -/
def Obligations.FailedWriteBackKeepsVictim : Prop :=
  ∀ (s : State) (a v : Word) (i : Instr) (n : Nat) (ok : Bool) (left : List Byte) (more : List BsAnswer),
    (i, n) ∈ ramReads a ++ ramWrites a v → Inv s → s.cfg.off a + n ≤ s.cfg.ramSize →
    ¬ s.resident (s.cfg.tagOf (s.cfg.off a)) → (s.slot s.victim).dirty = true →
    (s.bsAnswers = ⟨false, left, none⟩ :: more → exec i s = .next { s with
      accesses     := s.accesses + 1#64
      bs           := s.bs.writeBytes (s.slot s.victim).tag.toNat (left.take s.cfg.lineSize)
      bsAnswers    := more
      bsLog        := s.bsLog ++ [.write (s.slot s.victim).tag.toNat (s.slot s.victim).data false]
      errLog       := s.errLog ++ [⟨.io, (s.slot s.victim).tag⟩]
      ioFaultLatch := true
      resp         := some ⟨0#32, some .io, none⟩ }) ∧
    (s.bsAnswers = ⟨ok, left, some .never⟩ :: more → exec i s = .fault .backingStoreNeverAnswers)

/-- R84, R162, R166: a fill fails, for a read or a STORE: the victim, clean or invalid, is left invalid, the IOFault
names the line asked for, and the image is unchanged. R206: where it is never answered, the block waits (log 18 records
the wait as a stop). -/
def Obligations.FailedFillDropsVictim : Prop :=
  ∀ (s : State) (a v : Word) (i : Instr) (n : Nat) (ok : Bool) (left : List Byte) (more : List BsAnswer),
    (i, n) ∈ ramReads a ++ ramWrites a v → Inv s → s.cfg.off a + n ≤ s.cfg.ramSize →
    ¬ s.resident (s.cfg.tagOf (s.cfg.off a)) → (s.slot s.victim).dirty = false →
    (s.bsAnswers = ⟨false, left, none⟩ :: more → exec i s = .next { s with
      accesses     := s.accesses + 1#64
      slots        := s.slots.set s.victim { s.slot s.victim with valid := false }
      bsAnswers    := more
      bsLog        := s.bsLog ++ [.read (s.cfg.tagOf (s.cfg.off a)) false]
      errLog       := s.errLog ++ [⟨.io, BitVec.ofNat 32 (s.cfg.tagOf (s.cfg.off a))⟩]
      ioFaultLatch := true
      resp         := some ⟨0#32, some .io, none⟩ }) ∧
    (s.bsAnswers = ⟨ok, left, some .never⟩ :: more → exec i s = .fault .backingStoreNeverAnswers)

/-- R86, R88: under WRITE_BACK a STORE inside a resident line changes that line's bytes, marks it dirty, counts a hit
and reaches no backing store. -/
def Obligations.WriteBackStoreHitStaysInCache : Prop :=
  ∀ (s : State) (a v : Word) (i : Instr) (n k : Nat), (i, n) ∈ ramWrites a v → Inv s →
    s.cfg.writePolicy = .writeBack → s.cfg.off a + n ≤ s.cfg.ramSize →
    s.cfg.idxOf (s.cfg.off a) + n ≤ s.cfg.lineSize →
    (s.slot k).valid = true → (s.slot k).tag.toNat = s.cfg.tagOf (s.cfg.off a) →
    exec i s = .next { s with
      accesses := s.accesses + 1#64
      hits     := s.hits + 1#64
      lru      := k :: s.lru.filter (· != k)
      slots    := s.slots.set k { s.slot k with
        dirty := true
        data  := splice (s.slot k).data (s.cfg.idxOf (s.cfg.off a)) (leBytes n v) }
      resp     := some ⟨0#32, none, none⟩ }

/-- R86, R88, R162: under WRITE_THROUGH it is followed by one BSWrite of the whole line with the new bytes; the line is
clean after OK, and dirty with an IOFault after FAIL. -/
def Obligations.WriteThroughStoreHitWritesLine : Prop :=
  ∀ (s : State) (a v : Word) (i : Instr) (n k : Nat) (line : List Byte), (i, n) ∈ ramWrites a v → Inv s →
    s.cfg.writePolicy = .writeThrough → s.cfg.off a + n ≤ s.cfg.ramSize →
    s.cfg.idxOf (s.cfg.off a) + n ≤ s.cfg.lineSize →
    (s.slot k).valid = true → (s.slot k).tag.toNat = s.cfg.tagOf (s.cfg.off a) →
    line = splice (s.slot k).data (s.cfg.idxOf (s.cfg.off a)) (leBytes n v) →
    (∀ (left : List Byte) (more : List BsAnswer), s.bsAnswers = ⟨true, left, none⟩ :: more →
      exec i s = .next { s with
        accesses  := s.accesses + 1#64
        hits      := s.hits + 1#64
        lru       := k :: s.lru.filter (· != k)
        slots     := s.slots.set k { s.slot k with dirty := false, data := line }
        bs        := s.bs.writeBytes (s.cfg.tagOf (s.cfg.off a)) line
        bsAnswers := more
        bsLog     := s.bsLog ++ [.write (s.cfg.tagOf (s.cfg.off a)) line true]
        resp      := some ⟨0#32, none, none⟩ }) ∧
    ∀ (left : List Byte) (more : List BsAnswer), s.bsAnswers = ⟨false, left, none⟩ :: more →
      exec i s = .next { s with
        accesses     := s.accesses + 1#64
        hits         := s.hits + 1#64
        lru          := k :: s.lru.filter (· != k)
        slots        := s.slots.set k { s.slot k with dirty := true, data := line }
        bs           := s.bs.writeBytes (s.cfg.tagOf (s.cfg.off a)) (left.take s.cfg.lineSize)
        bsAnswers    := more
        bsLog        := s.bsLog ++ [.write (s.cfg.tagOf (s.cfg.off a)) line false]
        errLog       := s.errLog ++ [⟨.io, (s.slot k).tag⟩]
        ioFaultLatch := true
        resp         := some ⟨0#32, some .io, none⟩ }

/-! ### The backing-store port -/

/-- R89 (bound): one FETCH, LOAD or STORE issues at most four backing-store transactions under WRITE_BACK and at most
six under WRITE_THROUGH. -/
def Obligations.AccessEventsAreBounded : Prop :=
  ∀ (s t : State) (a v : Word) (i : Instr) (n : Nat), (i, n) ∈ ramReads a ++ ramWrites a v → exec i s = .next t →
    t.bsLog.length ≤ s.bsLog.length + (match s.cfg.writePolicy with | .writeBack => 4 | .writeThrough => 6)

/-- R63: every backing-store transaction the block issues moves one whole line, at a tag in range. -/
def Obligations.TransfersAreWholeLines : Prop :=
  ∀ (i : Instr) (s t : State), Inv s → exec i s = .next t →
    s.bsLog <+: t.bsLog ∧ ∀ e ∈ t.bsLog.drop s.bsLog.length, e.wholeLine s.cfg

/-- R32, R64: the image changes only by the BSWrite transactions on the port: OK writes the bytes, FAIL leaves the
drawn bytes in the line (log 4), a read changes nothing; each event uses up one answer, in order. -/
def Obligations.ImageChangesOnlyByBSWrite : Prop :=
  ∀ (i : Instr) (s t : State), exec i s = .next t → ∃ events, t.bsLog = s.bsLog ++ events ∧
    t.bs = replay s.cfg.lineSize events s.bsAnswers s.bs ∧ t.bsAnswers = s.bsAnswers.drop events.length ∧
    ∀ (k : Nat) (e : BsEvent), events[k]? = some e → e.ok = (s.bsAnswers.getD k BsAnswer.good).ok

/-- R206, R168, R190: where a host does its duties, every instruction answers a next state. An instruction stops only
because a host never answers or never accepts: the block is left waiting, which the model records as a stop, and no
fault of R160 is raised. It does not go on past an unanswered backing-store event. Power-on reset arriving right after
event number `k` ends the transaction there: no response, no further event, every field at its power-on value (the draws
tell when, logs 5 and 18). What the completed events wrote is in ImageChangesOnlyByBSWrite. -/
def Obligations.HostWaitsEndTransactions : Prop :=
  ∀ (i : Instr) (s : State),
    (s.dutiful → ∃ t, exec i s = .next t) ∧
    (∀ f, exec i s = .fault f →
      (f = .backingStoreNeverAnswers ∧ ∃ a ∈ s.bsAnswers, a.cut = some .never) ∨
      (f = .consoleNeverAccepts ∧ some .never ∈ s.conAnswers)) ∧
    (∀ r, exec i s ≠ .refused r) ∧
    ∀ (t : State) (k : Nat), exec i s = .next t → (∀ j < k, (s.bsAnswers.getD j BsAnswer.good).cut = none) →
      ((s.bsAnswers.getD k BsAnswer.good).cut = some .never → t.bsLog.length ≤ s.bsLog.length + k) ∧
      ∀ ok, (s.bsAnswers.getD k BsAnswer.good).cut = some (.powerOn ok) → s.bsLog.length + k < t.bsLog.length →
        t.bsLog.length = s.bsLog.length + k + 1 ∧ PoweredOn ok s t

/-! ### Control transactions -/

/-- R97: FLUSH_ALL writes every dirty line back in ascending slot order, whatever is answered on the way; a slot is
clean after it unless its write failed, which is reported; and then every byte of RAM outside the failed lines is in
the image (R54). -/
def Obligations.FlushAllWritesDirtyLines : Prop :=
  ∀ s : State, Inv s → s.uncut →
    ∃ t, exec .flushAll s = .next t ∧ Swept s t (fun x => { x with dirty := false }) ∧
      (Coherent s → ∀ p < s.cfg.ramSize,
        (∀ j < s.cfg.numLines, s.sweepFails j = true → (s.slot j).tag.toNat ≠ s.cfg.tagOf p) →
        t.bs.read p = s.view p)

/-- R98: EVICT_ALL does the same and leaves every slot invalid unless its write failed; with no failure no line stays
and the core sees the image. -/
def Obligations.EvictAllEmptiesCache : Prop :=
  ∀ s : State, Inv s → s.uncut →
    ∃ t, exec .evictAll s = .next t ∧ Swept s t (fun x => { x with valid := false, dirty := false }) ∧
      ((∀ j < s.cfg.numLines, s.sweepFails j = false) → t.empty ∧ ∀ p, t.view p = t.bs.read p)

/-- R99: GET_STATS answers with the two counters and changes nothing. -/
def Obligations.GetStatsReportsCounters : Prop :=
  ∀ s : State, exec .getStats s = .next { s with resp := some ⟨0#32, none, some (s.hits, s.accesses)⟩ }

/-- R193: RESTART invalidates and cleans every slot without writing anything back, clears the latch, and changes
nothing else of the block; no response. (The model's field `booting`, log 27, is BulkLoadOverwritesItsRange's.) -/
def Obligations.RestartDiscardsDirtyLines : Prop :=
  ∀ s : State, ∃ t, exec .restart s = .next t ∧
    t = { s with slots := t.slots, ioFaultLatch := false, booting := t.booting, resp := none } ∧
    t.slots.length = s.slots.length ∧
    (∀ j, (t.slot j).valid = false ∧ (t.slot j).dirty = false ∧
      (t.slot j).tag = (s.slot j).tag ∧ (t.slot j).data = (s.slot j).data) ∧
    ∀ p, t.view p = s.bs.read p

/-- R137: a delivered byte becomes pending, or is lost when one is pending already; no response. -/
def Obligations.PollInputDeliversOrLosesByte : Prop :=
  ∀ (s : State) (b : Byte),
    (s.pendValid = false → exec (.pollInput b) s = .next { s with pendValid := true, pendByte := b, resp := none }) ∧
    (s.pendValid = true → exec (.pollInput b) s = .next { s with resp := none })

/-- R150: POST_EXEC answers FAIL_CODE while the latch is set and the core's code otherwise, whatever the instruction
word, and clears the latch. (`postCode` keeps the code for the run loop, log 17.) -/
def Obligations.PostExecSurfacesIoFault : Prop :=
  ∀ (s : State) (insn code : Word),
    (s.ioFaultLatch = true → exec (.postExec insn code) s = .next { s with
      ioFaultLatch := false
      postCode     := some s.cfg.failCode
      resp         := some ⟨s.cfg.failCode, none, none⟩ }) ∧
    (s.ioFaultLatch = false → exec (.postExec insn code) s = .next { s with
      postCode := some code
      resp     := some ⟨code, none, none⟩ })

/-- R151, R193, R194, R195: the run loop's effect on the block for each step-result code. 0, 1 and 3: none.
POWEROFF_CODE: FLUSH_ALL, then the backing store is released. Every other code: RESTART, then the bulk load. (`drift`
draws the lines an external modification left unsettled, if any, R201; the code acted on is the last, log 26.) -/
def Obligations.RunLoopActsOnStepResult : Prop :=
  ∀ (s s1 : State) (image : List (Nat × List Byte)) (rest : List Input) (code : Word), s.cfg.wf →
    s.inputs = .host (.runLoop image) :: rest → s.postCode = some code → s.halted = false → s.released = false →
    s1 = { s with inputs := rest, postCode := none } →
    (code ∈ [0#32, 1#32, 3#32] → step s = .next s1.drift) ∧
    (code = s.cfg.poweroffCode → Inv s → s.uncut →
      ∃ t, exec .flushAll s1 = .next t ∧ step s = .next (State.drift { t with released := true })) ∧
    (code ∉ [0#32, 1#32, 3#32, s.cfg.poweroffCode] → (∀ part ∈ image, part.1 + part.2.length ≤ s.cfg.ramSize) →
      ∃ t, exec .restart s1 = .next t ∧
        step s = .next (State.drift { t with bs := image.foldl (fun m part => m.writeBytes part.1 part.2) t.bs }))

/-! ### The console window and the CSR ports -/

/-- R113, R206: a STORE to UART_DATA emits the bytes of the stored value, low byte first, up to the first NUL, which is
not emitted, as far as the console host accepts them; nothing else changes. -/
def Obligations.UartTransmitsUpToNul : Prop :=
  ∀ (s : State) (w : Width) (v : Word) (out : List Byte), out = (leBytes w.bytes v).takeWhile (· != 0#8) →
    (s.accepts out.length → exec (.storeUartTx w v) s = .next { s with
      conOut     := s.conOut ++ out
      conAnswers := s.conAnswers.drop out.length
      resp       := some ⟨0#32, none, none⟩ }) ∧
    EndsAtConsoleCut s (.storeUartTx w v) out.length

/-- R114, R115: a LOAD from UART_DATA takes the pending byte, zero-extended at every width, or answers 0. -/
def Obligations.UartReceivesPendingByte : Prop :=
  ∀ (s : State) (w : Width),
    (∃ rdata : Word, rdata.toNat = s.pendByte.toNat ∧ exec (.loadUartRx w) s = .next { s with
      pendValid := false
      resp      := some ⟨rdata, none, none⟩ }) ∧
    exec (.loadUartRxEmpty w) s = .next { s with resp := some ⟨0#32, none, none⟩ }

/-- R116: UART_LSR answers 0x60, or 0x61 with a byte pending, at every width, and consumes nothing. -/
def Obligations.LineStatusShowsPendingByte : Prop :=
  ∀ (s : State) (w : Width),
    exec (.loadUartLsr w) s = .next { s with resp := some ⟨if s.pendValid then 0x61#32 else 0x60#32, none, none⟩ }

/-- R117, R136: the other device-window addresses and CSR numbers read 0, ignore writes, and change nothing. -/
def Obligations.UndecodedPortsDoNothing : Prop :=
  ∀ (s : State) (w : Width) (reg : BitVec 3) (n : BitVec 12) (v : Word),
    ∀ i ∈ [Instr.loadDevDefault w reg, .storeDevDefault w reg v, .csrrDefault n, .csrwDefault n v],
      exec i s = .next { s with resp := some ⟨0#32, none, none⟩ }

/-- R131, R206: DBG_DEC emits the written value as signed decimal text: a minus sign for a negative value, then digits
whose value is the magnitude, with no leading zero; as far as the console host accepts them. -/
def Obligations.DbgDecEmitsDecimalText : Prop :=
  ∀ (s : State) (v : Word), ∃ digits out : List Byte,
    out = (if v.toInt < 0 then [0x2D#8] else []) ++ digits ∧
    decValue digits = v.toInt.natAbs ∧ (∀ d ∈ digits, 0x30 ≤ d.toNat ∧ d.toNat ≤ 0x39) ∧
    (digits = [0x30#8] ∨ ∃ d more, digits = d :: more ∧ d ≠ 0x30#8) ∧
    (s.accepts out.length → exec (.csrwDbgDec v) s = .next { s with
      conOut     := s.conOut ++ out
      conAnswers := s.conAnswers.drop out.length
      resp       := some ⟨0#32, none, none⟩ }) ∧
    EndsAtConsoleCut s (.csrwDbgDec v) out.length

/-- R132, R206: DBG_HEX emits eight lower-case hexadecimal digits, most significant first, as far as the console host
accepts them. -/
def Obligations.DbgHexEmitsEightDigits : Prop :=
  ∀ (s : State) (v : Word),
    (s.accepts 8 → exec (.csrwDbgHex v) s = .next { s with
      conOut := s.conOut ++ [7, 6, 5, 4, 3, 2, 1, 0].map fun k =>
        let d := v.toNat / 16 ^ k % 16
        BitVec.ofNat 8 (if d < 10 then 0x30 + d else 0x61 + (d - 10))
      conAnswers := s.conAnswers.drop 8
      resp       := some ⟨0#32, none, none⟩ }) ∧
    EndsAtConsoleCut s (.csrwDbgHex v) 8

/-- R133: DBG_STR reports a pointer outside RAM and does nothing else; for a pointer in RAM it emits the bytes the core
sees there up to the first NUL or the end of RAM, counting one access for each byte read. -/
def Obligations.DbgStrEmitsString : Prop :=
  ∀ (s : State) (v : Word),
    (s.cfg.ramSize ≤ s.cfg.off v → exec (.csrwDbgStr v) s = .next { s with
      errLog := s.errLog ++ [⟨.device, v⟩]
      resp   := some ⟨0#32, some .device, none⟩ }) ∧
    (Inv s → Coherent s → s.quiet → s.cfg.off v < s.cfg.ramSize →
      ∀ str, str = (s.viewBytes (s.cfg.off v) (s.cfg.ramSize - s.cfg.off v)).takeWhile (· != 0#8) →
      ∃ t, exec (.csrwDbgStr v) s = .next t ∧ t.resp = some ⟨0#32, none, none⟩ ∧ t.conOut = s.conOut ++ str ∧
        t.conAnswers = s.conAnswers.drop str.length ∧
        KeepsRest { s with conOut := t.conOut, conAnswers := t.conAnswers } t ∧ KeepsErrors s t ∧
        (∀ p, t.view p = s.view p) ∧
        CountsLines s t (if s.cfg.off v + str.length < s.cfg.ramSize then str.length + 1 else str.length))

/-- R133, R166, R162: whatever the backing store answers, DBG_STR either emits the whole string and answers 0, or
answers IOFault at the byte it could not read: the bytes before it, a prefix of the string, are emitted and stay
emitted, one access is counted for each of them and one for that byte, and the fault names a line of RAM. -/
def Obligations.DbgStrKeepsEmittedPrefix : Prop :=
  ∀ (s : State) (v : Word) (str : List Byte), Inv s → Coherent s → s.uncut → s.cfg.off v < s.cfg.ramSize →
    str = (s.viewBytes (s.cfg.off v) (s.cfg.ramSize - s.cfg.off v)).takeWhile (· != 0#8) →
    ∃ t out, exec (.csrwDbgStr v) s = .next t ∧ t.conOut = s.conOut ++ out ∧
      t.conAnswers = s.conAnswers.drop out.length ∧
      KeepsRest { s with conOut := t.conOut, conAnswers := t.conAnswers } t ∧ (∀ p, t.view p = s.view p) ∧
      ((t.resp = some ⟨0#32, none, none⟩ ∧ KeepsErrors s t ∧ out = str) ∨
        (t.resp = some ⟨0#32, some .io, none⟩ ∧ t.ioFaultLatch = true ∧ out <+: str ∧
          out.length < s.cfg.ramSize - s.cfg.off v ∧
          t.accesses = s.accesses + BitVec.ofNat 64 (out.length + 1) ∧
          ∃ line : Word, t.errLog = s.errLog ++ [⟨.io, line⟩] ∧ line.toNat % s.cfg.lineSize = 0 ∧
            line.toNat < s.cfg.ramSize))

/-- R134, R206: DBG_CHR emits the low byte, 0x00 included, if the console host accepts it. -/
def Obligations.DbgChrEmitsLowByte : Prop :=
  ∀ (s : State) (v : Word),
    (s.accepts 1 → exec (.csrwDbgChr v) s = .next { s with
      conOut     := s.conOut ++ [v.extractLsb' 0 8]
      conAnswers := s.conAnswers.drop 1
      resp       := some ⟨0#32, none, none⟩ }) ∧
    EndsAtConsoleCut s (.csrwDbgChr v) 1

/-- R135: DBG_IN takes the pending byte, or answers the sentinel; the two can be told apart by bit 31. -/
def Obligations.DbgInConsumesOrAnswersSentinel : Prop :=
  ∀ s : State, s.cfg.wf →
    (s.pendValid = true → ∃ rdata : Word, rdata.toNat = s.pendByte.toNat ∧ rdata.msb = false ∧
      exec .csrrDbgIn s = .next { s with pendValid := false, resp := some ⟨rdata, none, none⟩ }) ∧
    (s.pendValid = false → s.cfg.noDataSentinel.msb = true ∧
      exec .csrrDbgIn s = .next { s with resp := some ⟨s.cfg.noDataSentinel, none, none⟩ })

/-- R71: a reserved key reports DeviceFault with its a field, answers it on the core and control ports and not on the
console input port, and changes nothing else. -/
def Obligations.ReservedKeysReportDeviceFault : Prop :=
  ∀ (s : State) (p : Port) (cmd : Cmd) (low : BitVec 2) (a : Word),
    (∀ i ∈ [Instr.reservedCmdB p a, .reservedCmdCToF p low a, .reservedWrongPort p cmd a],
      exec i s = .next { s with
        errLog := s.errLog ++ [⟨.device, a⟩]
        resp   := if p = .console then none else some ⟨0#32, some .device, none⟩ }) ∧
    ∀ i ∈ [Instr.reservedLoadSize11 a, .reservedStoreSize11 a, .reservedCsrrWide a, .reservedCsrwWide a],
      exec i s = .next { s with
        errLog := s.errLog ++ [⟨.device, a⟩]
        resp   := some ⟨0#32, some .device, none⟩ }

/-! ### Other writers of the image -/

/-- R195: a bulk load while no slot is valid and before the core's first transaction overwrites exactly the bytes in its
range and changes nothing else; one past the end of RAM breaks its precondition and the model stops (log 15). `drift`
draws the lines an earlier breach left unsettled, if any (R201). RESTART, as power-on reset (PowerOnResetValues), makes
the image loadable; a core port's request ends that (StepRunsDecodedRequest). That the load lands while the block is
halted or the backing store released too is the model's choice (log 28). -/
def Obligations.BulkLoadOverwritesItsRange : Prop :=
  (∀ s : State, ∃ t, exec .restart s = .next t ∧ t.empty ∧ t.booting = true) ∧
  ∀ (s : State) (offset : Nat) (bytes : List Byte) (rest : List Input), Inv s → s.empty → s.booting = true →
    s.inputs = .host (.imageWrite offset bytes) :: rest →
    (offset + bytes.length ≤ s.cfg.ramSize →
      ∃ t : State, step s = .next t.drift ∧ t = { s with inputs := rest, bs := t.bs } ∧
        ∀ p, t.view p = if offset ≤ p ∧ p < offset + bytes.length then bytes.getD (p - offset) 0#8 else s.view p) ∧
    (s.cfg.ramSize < offset + bytes.length → step s = .fault .imageWriteOutOfRange)

/-- R201, R195 (D43): another agent's write of the image while a slot is valid, or after the core's first transaction
since power-on reset or RESTART, unsettles exactly the lines it touches and leaves what the core sees in every settled
line unchanged. From then on, with no step ever settling a line again, what the core sees in an unsettled line after any
step is whatever bytes were drawn for it (log 14): any values at any of its bytes. That the write is made while the block
is halted or the backing store released too is the model's choice (log 28). -/
def Obligations.ExternalWriteUnsettlesTouchedLines : Prop :=
  (∀ (s : State) (offset : Nat) (bytes : List Byte) (rest : List Input), Inv s → ¬ (s.empty ∧ s.booting = true) →
    offset + bytes.length ≤ s.cfg.ramSize → s.inputs = .host (.imageWrite offset bytes) :: rest →
    ∃ t, step s = .next t ∧
      (∀ tag, tag ∈ t.unsettled ↔ tag ∈ s.unsettled ∨ ∃ j < bytes.length, s.cfg.tagOf (offset + j) = tag) ∧
      ∀ p, t.unsettledAt p = false → t.view p = s.view p) ∧
  ∀ s t : State, Inv s → step s = .next t →
    (∀ tag ∈ s.unsettled, tag ∈ t.unsettled) ∧
    ∀ (d : LineDraw) (more : List LineDraw), s.draws = d :: more → (d.view.map (·.1)).Nodup →
      ∀ c ∈ d.view, t.unsettledAt c.1 = true → t.view c.1 = c.2

/-- R198: a second RESTART and bulk load of the same image right after the first changes nothing at all; after either
no slot is valid and the core sees the image. -/
def Obligations.RebootIsIdempotent : Prop :=
  ∀ (s r1 u1 r2 u2 : State) (image : List (Nat × List Byte)), Inv s → exec .restart s = .next r1 →
    u1 = { r1 with bs := image.foldl (fun m part => m.writeBytes part.1 part.2) r1.bs } →
    exec .restart u1 = .next r2 →
    u2 = { r2 with bs := image.foldl (fun m part => m.writeBytes part.1 part.2) r2.bs } →
    u2 = u1 ∧ u1.empty ∧ ∀ p, u1.view p = u1.bs.read p
end

