-- ==== Sys2Proof/Laws/Memory.lean ====
section
/-! SUPPORT. The laws of the backing-store image: a read after a write, the bytes a write leaves alone, and the
canonical form every operation keeps. -/

namespace Sys2Proof.Machine

open Sys2Proof

theorem Memory.wf_nil : Memory.wf [] = true := by decide

theorem Memory.wf_cons {k : Nat} {b : Byte} {m : Memory} :
    Memory.wf ((k, b) :: m) = true ↔ (∀ c ∈ m, k < c.1) ∧ b ≠ Memory.unlisted ∧ Memory.wf m = true := by
  simp only [Memory.wf, List.pairwise_cons, List.all_cons, Bool.and_eq_true, decide_eq_true_eq, bne_iff_ne]
  tauto

/-- Below its lowest cell an image reads as unlisted. -/
theorem Memory.read_below {m : Memory} {o : Nat} (h : ∀ c ∈ m, o < c.1) : m.read o = Memory.unlisted := by
  induction m with
  | nil => rfl
  | cons c m ih =>
    obtain ⟨k, b⟩ := c
    have hk : o < k := h (k, b) (by simp)
    rw [Memory.read, if_neg (by omega)]
    exact ih fun c hc => h c (by simp [hc])

/-- A write leaves every other offset alone. -/
theorem Memory.read_write_other (m : Memory) {o p : Nat} (v : Byte) (h : p ≠ o) :
    (m.write o v).read p = m.read p := by
  induction m with
  | nil =>
    unfold Memory.write
    split
    · rfl
    · simp [Memory.read, Ne.symm h]
  | cons c m ih =>
    obtain ⟨k, b⟩ := c
    unfold Memory.write
    split
    · split
      · rfl
      · simp [Memory.read, Ne.symm h]
    · split
      · next hk =>
        subst hk
        split <;> simp [Memory.read, Ne.symm h]
      · simp [Memory.read, ih]

/-- A read after a write to the same offset gives the value written. -/
theorem Memory.read_write_same {m : Memory} (hm : m.wf = true) (o : Nat) (v : Byte) : (m.write o v).read o = v := by
  induction m with
  | nil =>
    unfold Memory.write
    split
    · next h => simp [Memory.read, h]
    · simp [Memory.read]
  | cons c m ih =>
    obtain ⟨k, b⟩ := c
    obtain ⟨hlt, hb, hwf⟩ := Memory.wf_cons.1 hm
    unfold Memory.write
    split
    · next hok =>
      split
      · next hv =>
        rw [hv]
        exact Memory.read_below fun c hc => by
          rcases List.mem_cons.1 hc with rfl | hc
          · exact hok
          · exact lt_trans hok (hlt c hc)
      · simp [Memory.read]
    · split
      · next hk =>
        subst hk
        split
        · next hv => rw [hv]; exact Memory.read_below hlt
        · simp [Memory.read]
      · next h1 h2 => rw [Memory.read, if_neg (by omega)]; exact ih hwf

theorem Memory.read_write {m : Memory} (hm : m.wf = true) (o p : Nat) (v : Byte) :
    (m.write o v).read p = if p = o then v else m.read p := by
  split
  · next h => subst h; exact Memory.read_write_same hm _ v
  · next h => exact Memory.read_write_other m v h

/-- A write adds at most its own cell. -/
theorem Memory.mem_write {m : Memory} {o : Nat} {v : Byte} {c : Host.Cell} (h : c ∈ m.write o v) :
    c ∈ m ∨ (c = (o, v) ∧ v ≠ Memory.unlisted) := by
  induction m with
  | nil =>
    unfold Memory.write at h
    split at h
    · simp at h
    · next hv => exact .inr ⟨by simpa using h, hv⟩
  | cons d m ih =>
    obtain ⟨k, b⟩ := d
    unfold Memory.write at h
    split at h
    · split at h
      · exact .inl h
      · next hv =>
        rcases List.mem_cons.1 h with h | h
        · exact .inr ⟨h, hv⟩
        · exact .inl h
    · split at h
      · split at h
        · exact .inl (List.mem_cons_of_mem _ h)
        · next hv =>
          rcases List.mem_cons.1 h with h | h
          · exact .inr ⟨h, hv⟩
          · exact .inl (List.mem_cons_of_mem _ h)
      · rcases List.mem_cons.1 h with h | h
        · exact .inl (by simp [h])
        · rcases ih h with h | h
          · exact .inl (List.mem_cons_of_mem _ h)
          · exact .inr h

/-- A write keeps the canonical form. -/
theorem Memory.write_wf {m : Memory} (hm : m.wf = true) (o : Nat) (v : Byte) : (m.write o v).wf = true := by
  induction m with
  | nil =>
    unfold Memory.write
    split
    · exact Memory.wf_nil
    · next hv => exact Memory.wf_cons.2 ⟨by simp, hv, Memory.wf_nil⟩
  | cons c m ih =>
    obtain ⟨k, b⟩ := c
    obtain ⟨hlt, hb, hwf⟩ := Memory.wf_cons.1 hm
    unfold Memory.write
    split
    · next hok =>
      split
      · exact hm
      · next hv =>
        refine Memory.wf_cons.2 ⟨fun c hc => ?_, hv, hm⟩
        rcases List.mem_cons.1 hc with rfl | hc
        · exact hok
        · exact lt_trans hok (hlt c hc)
    · split
      · next hk =>
        subst hk
        split
        · exact hwf
        · next hv => exact Memory.wf_cons.2 ⟨hlt, hv, hwf⟩
      · next h1 h2 =>
        refine Memory.wf_cons.2 ⟨fun c hc => ?_, hb, ih hwf⟩
        rcases Memory.mem_write hc with hc | ⟨rfl, -⟩
        · exact hlt c hc
        · simp only; omega

/-- Two canonical images that read the same are equal: equal memories are equal data. -/
theorem Memory.ext_of_read {m n : Memory} (hm : m.wf = true) (hn : n.wf = true) (h : ∀ o, m.read o = n.read o) :
    m = n := by
  induction m generalizing n with
  | nil =>
    cases n with
    | nil => rfl
    | cons c n =>
      obtain ⟨k, b⟩ := c
      have := h k
      simp [Memory.read] at this
      exact absurd this.symm (Memory.wf_cons.1 hn).2.1
  | cons c m ih =>
    obtain ⟨k, b⟩ := c
    obtain ⟨hlt, hb, hwf⟩ := Memory.wf_cons.1 hm
    cases n with
    | nil =>
      have := h k
      simp [Memory.read] at this
      exact absurd this hb
    | cons d n =>
      obtain ⟨l, e⟩ := d
      obtain ⟨hlt', he, hwf'⟩ := Memory.wf_cons.1 hn
      have hk := h k
      have hl := h l
      have hkl : k = l := by
        rcases lt_trichotomy k l with hkl | hkl | hkl
        · have : Memory.read ((l, e) :: n) k = Memory.unlisted :=
            Memory.read_below fun c hc => by
              rcases List.mem_cons.1 hc with rfl | hc
              · exact hkl
              · exact lt_trans hkl (hlt' c hc)
          simp [Memory.read] at hk this
          rw [this] at hk
          exact absurd hk hb
        · exact hkl
        · have : Memory.read ((k, b) :: m) l = Memory.unlisted :=
            Memory.read_below fun c hc => by
              rcases List.mem_cons.1 hc with rfl | hc
              · exact hkl
              · exact lt_trans hkl (hlt c hc)
          simp [Memory.read] at hl this
          rw [this] at hl
          exact absurd hl.symm he
      subst hkl
      have hbe : b = e := by simpa [Memory.read] using hk
      subst hbe
      have : m = n := by
        refine ih hwf hwf' fun o => ?_
        by_cases ho : k = o
        · subst ho
          rw [Memory.read_below hlt, Memory.read_below hlt']
        · simpa [Memory.read, ho] using h o
      rw [this]

@[simp] theorem Memory.length_readBytes (m : Memory) (o n : Nat) : (m.readBytes o n).length = n := by
  induction n generalizing o with
  | zero => rfl
  | succ n ih => simp [Memory.readBytes, ih]

theorem Memory.getD_readBytes (m : Memory) (o : Nat) {i n : Nat} (h : i < n) (d : Byte) :
    (m.readBytes o n).getD i d = m.read (o + i) := by
  induction n generalizing o i with
  | zero => omega
  | succ n ih =>
    cases i with
    | zero => simp [Memory.readBytes]
    | succ i =>
      have := ih (o + 1) (i := i) (by omega)
      simp only [Memory.readBytes, List.getD_cons_succ, this]
      congr 1
      omega

/-- The bytes of a range depend only on what the range reads as. -/
theorem Memory.readBytes_congr {m m' : Memory} {o n : Nat} (h : ∀ p, o ≤ p → p < o + n → m.read p = m'.read p) :
    m.readBytes o n = m'.readBytes o n := by
  induction n generalizing o with
  | zero => rfl
  | succ n ih =>
    simp only [Memory.readBytes]
    rw [h o (by omega) (by omega), ih fun p h1 h2 => h p (by omega) (by omega)]

/-- A write of bytes keeps the canonical form. -/
theorem Memory.writeBytes_wf {m : Memory} (hm : m.wf = true) (o : Nat) (bs : List Byte) :
    (m.writeBytes o bs).wf = true := by
  induction bs generalizing m o with
  | nil => exact hm
  | cons b bs ih => exact ih (Memory.write_wf hm o b) (o + 1)

/-- What every offset reads as after a write of bytes. -/
theorem Memory.read_writeBytes {m : Memory} (hm : m.wf = true) (o : Nat) (bs : List Byte) (p : Nat) :
    (m.writeBytes o bs).read p = if o ≤ p ∧ p < o + bs.length then bs.getD (p - o) Memory.unlisted else m.read p := by
  induction bs generalizing m o with
  | nil => simp [Memory.writeBytes]
  | cons b bs ih =>
    rw [Memory.writeBytes, ih (Memory.write_wf hm o b), Memory.read_write hm]
    simp only [List.length_cons]
    by_cases h : p = o
    · subst h
      rw [if_neg (by omega), if_pos rfl, if_pos (by omega)]
      simp
    · rw [if_neg h]
      by_cases h1 : o + 1 ≤ p ∧ p < o + 1 + bs.length
      · rw [if_pos h1, if_pos (by omega)]
        obtain ⟨q, rfl⟩ : ∃ q, p = o + 1 + q := ⟨p - (o + 1), by omega⟩
        rw [show o + 1 + q - (o + 1) = q by omega, show o + 1 + q - o = q + 1 by omega]
        simp
      · rw [if_neg h1, if_neg (by omega)]

/-- A write of bytes leaves every offset outside them alone. -/
theorem Memory.read_writeBytes_outside {m : Memory} (hm : m.wf = true) {o : Nat} {bs : List Byte} {p : Nat}
    (h : p < o ∨ o + bs.length ≤ p) : (m.writeBytes o bs).read p = m.read p := by
  rw [Memory.read_writeBytes hm, if_neg (by omega)]

/-- Bytes written are the bytes read back. -/
theorem Memory.readBytes_writeBytes_same {m : Memory} (hm : m.wf = true) (o : Nat) (bs : List Byte) :
    (m.writeBytes o bs).readBytes o bs.length = bs := by
  refine List.ext_getElem (by simp) fun i h1 h2 => ?_
  have h3 := Memory.getD_readBytes (m.writeBytes o bs) o (i := i) (n := bs.length) h2 Memory.unlisted
  rw [Memory.read_writeBytes hm, if_pos (by omega), show o + i - o = i by omega] at h3
  simpa [List.getD_eq_getElem?_getD, List.getElem?_eq_getElem h1, List.getElem?_eq_getElem h2] using h3

/-- Cells stay below a bound the written range is below. -/
theorem Memory.writeBytes_bound {m : Memory} {o n : Nat} {bs : List Byte} (hm : ∀ c ∈ m, c.1 < n)
    (h : o + bs.length ≤ n) : ∀ c ∈ m.writeBytes o bs, c.1 < n := by
  induction bs generalizing m o with
  | nil => exact hm
  | cons b bs ih =>
    refine ih (fun c hc => ?_) (by simp at h; omega)
    rcases Memory.mem_write hc with hc | ⟨rfl, -⟩
    · exact hm c hc
    · simp only [List.length_cons] at h ⊢; omega

end Sys2Proof.Machine
end

