-- ==== Sys2Proof/Laws/Operands.lean ====
section
/-! SUPPORT. The laws of operand assembly: line arithmetic (spec/20_memory.md R43) and byte sequences. -/

namespace Sys2Proof

theorem Config.lineSize_pos (c : Config) : 0 < c.lineSize := Nat.two_pow_pos _

theorem Config.four_le_lineSize {c : Config} (h : c.wf) : 4 ≤ c.lineSize :=
  show 2 ^ 2 ≤ 2 ^ c.lsBits from Nat.pow_le_pow_right (by decide) h.1

theorem Config.idxOf_lt (c : Config) (o : Nat) : c.idxOf o < c.lineSize := Nat.mod_lt _ c.lineSize_pos

theorem Config.tagOf_add_idxOf (c : Config) (o : Nat) : c.tagOf o + c.idxOf o = o :=
  Nat.sub_add_cancel (Nat.mod_le _ _)

theorem Config.tagOf_mod (c : Config) (o : Nat) : c.tagOf o % c.lineSize = 0 := by
  have h := Nat.div_add_mod o c.lineSize
  have : c.tagOf o = c.lineSize * (o / c.lineSize) := by unfold Config.tagOf; omega
  rw [this]
  exact Nat.mul_mod_right _ _

/-- The line of an offset is the one aligned line that covers it. -/
theorem Config.tagOf_eq {c : Config} {tag o : Nat} (ht : tag % c.lineSize = 0) (h1 : tag ≤ o)
    (h2 : o < tag + c.lineSize) : c.tagOf o = tag ∧ c.idxOf o = o - tag := by
  obtain ⟨k, hk⟩ := Nat.dvd_of_mod_eq_zero ht
  have h3 : o % c.lineSize = o - tag := by
    conv_lhs => rw [show o = (o - tag) + c.lineSize * k by omega]
    rw [Nat.add_mul_mod_self_left, Nat.mod_eq_of_lt (by omega)]
  refine ⟨?_, h3⟩
  unfold Config.tagOf
  omega

/-- An offset lies in line `tag` exactly when its tag is `tag`. -/
theorem Config.tagOf_eq_iff {c : Config} {tag o : Nat} (ht : tag % c.lineSize = 0) :
    c.tagOf o = tag ↔ tag ≤ o ∧ o < tag + c.lineSize := by
  constructor
  · rintro rfl
    have h1 := c.tagOf_add_idxOf o
    have h2 := c.idxOf_lt o
    omega
  · rintro ⟨h1, h2⟩
    exact (Config.tagOf_eq ht h1 h2).1

/-- A line that starts inside RAM ends inside RAM (R63: every transfer is in range). -/
theorem Config.line_in_ram {c : Config} (h : c.wf) {tag : Nat} (ht : tag % c.lineSize = 0) (hr : tag < c.ramSize) :
    tag + c.lineSize ≤ c.ramSize := by
  obtain ⟨k, rfl⟩ := Nat.dvd_of_mod_eq_zero ht
  obtain ⟨l, hl⟩ := Nat.dvd_of_mod_eq_zero h.2.1
  rw [hl] at hr ⊢
  have hkl : k < l := lt_of_mul_lt_mul_left hr (Nat.zero_le _)
  calc c.lineSize * k + c.lineSize = c.lineSize * (k + 1) := by ring
    _ ≤ c.lineSize * l := Nat.mul_le_mul_left _ hkl

theorem Config.ramSize_le {c : Config} (h : c.wf) : c.ramSize ≤ 2 ^ 32 := by
  have := h.2.2.2.1
  omega

/-- Two aligned tags that differ name disjoint lines. -/
theorem Config.lines_disjoint {c : Config} {t u : Nat} (ht : t % c.lineSize = 0) (hu : u % c.lineSize = 0)
    (h : t ≠ u) : t + c.lineSize ≤ u ∨ u + c.lineSize ≤ t := by
  by_contra hc
  have h1 : t ≤ u ∨ u ≤ t := by omega
  rcases h1 with h1 | h1
  · exact h ((Config.tagOf_eq_iff ht).2 ⟨h1, by omega⟩ ▸ (Config.tagOf_eq_iff hu).2 ⟨le_refl u, by
      have := c.lineSize_pos; omega⟩)
  · exact h ((Config.tagOf_eq_iff ht).2 ⟨le_refl t, by have := c.lineSize_pos; omega⟩ ▸
      (Config.tagOf_eq_iff hu).2 ⟨h1, by omega⟩)

/-- A piece that stays inside one line of RAM. -/
structure Piece.Inside (c : Config) (p : Piece) : Prop where
  aligned : p.tag % c.lineSize = 0
  in_ram  : p.tag < c.ramSize
  in_line : p.first + p.count ≤ c.lineSize
  pos     : 0 < p.count

/-- Every piece of an access inside RAM stays inside one line of RAM. -/
theorem Config.pieces_inside {c : Config} (h : c.wf) {o n : Nat} (hn : 0 < n) (hn4 : n ≤ 4)
    (ho : o + n ≤ c.ramSize) : ∀ p ∈ c.pieces o n, p.Inside c := by
  have h4 := c.four_le_lineSize h
  have hadd := c.tagOf_add_idxOf o
  have hlt := c.idxOf_lt o
  have hmod := c.tagOf_mod o
  intro p hp
  unfold Config.pieces at hp
  split at hp
  · next hle =>
    rw [List.mem_singleton] at hp
    subst hp
    exact ⟨hmod, by simp only; omega, by simp only; omega, hn⟩
  · next hgt =>
    simp only [List.mem_cons, List.not_mem_nil, or_false] at hp
    rcases hp with rfl | rfl
    · exact ⟨hmod, by simp only; omega, by simp only; omega, by simp only; omega⟩
    · refine ⟨?_, by simp only; omega, by simp only; omega, by simp only; omega⟩
      simp only
      rw [Nat.add_mod_right]
      exact hmod

/-- One or two pieces (R43). -/
theorem Config.length_pieces (c : Config) (o n : Nat) : (c.pieces o n).length = 1 ∨ (c.pieces o n).length = 2 := by
  unfold Config.pieces
  split <;> simp

@[simp] theorem length_leBytes (n : Nat) (v : Word) : (leBytes n v).length = n := by simp [leBytes]

/-- Byte `i` is `v[8i+7:8i]` (R10). -/
theorem getD_leBytes {n i : Nat} (h : i < n) (v : Word) (d : Byte) : (leBytes n v).getD i d = v.extractLsb' (8 * i) 8 := by
  simp [leBytes, List.getD_eq_getElem?_getD, h]

theorem leValue_lt (s : List Byte) : leValue s < 256 ^ s.length := by
  induction s with
  | nil => simp [leValue]
  | cons b s ih =>
    have := b.isLt
    simp only [leValue, List.length_cons, pow_succ]
    omega

@[simp] theorem length_splice {line : List Byte} {first : Nat} {bytes : List Byte}
    (h : first + bytes.length ≤ line.length) : (splice line first bytes).length = line.length := by
  simp only [splice, List.length_append, List.length_take, List.length_drop]
  omega

/-- A spliced line holds the new bytes in their range and the old ones elsewhere (R88). -/
theorem getD_splice {line : List Byte} {first : Nat} {bytes : List Byte} (h : first + bytes.length ≤ line.length)
    (j : Nat) (d : Byte) :
    (splice line first bytes).getD j d =
      if first ≤ j ∧ j < first + bytes.length then bytes.getD (j - first) d else line.getD j d := by
  have hf : (line.take first).length = first := by simp; omega
  unfold splice
  simp only [List.getD_eq_getElem?_getD]
  by_cases h1 : j < first
  · rw [if_neg (by omega), List.getElem?_append_left (by simp; omega), List.getElem?_append_left (by omega),
      List.getElem?_take_of_lt h1]
  · by_cases h2 : j < first + bytes.length
    · rw [if_pos ⟨by omega, h2⟩, List.getElem?_append_left (by simp; omega), List.getElem?_append_right (by omega), hf]
    · rw [if_neg (by omega), List.getElem?_append_right (by simp; omega), List.getElem?_drop]
      congr 2
      simp only [List.length_append, hf]
      omega

/-- A byte of a little-endian value (R10). -/
theorem leValue_byte (s : List Byte) (j : Nat) : leValue s / 256 ^ j % 256 = (s.getD j 0#8).toNat := by
  induction s generalizing j with
  | nil => simp [leValue]
  | cons b s ih =>
    have hb := b.isLt
    cases j with
    | zero => simp [leValue]; omega
    | succ j =>
      rw [List.getD_cons_succ, ← ih j, leValue, Nat.pow_succ', ← Nat.div_div_eq_div_mul]
      congr 2
      omega

/-- A byte of a word, as a number. -/
theorem byte_toNat (v : Word) (j : Nat) : (v.extractLsb' (8 * j) 8).toNat = v.toNat / 256 ^ j % 256 := by
  rw [BitVec.extractLsb'_toNat, Nat.shiftRight_eq_div_pow, Nat.pow_mul]

/-- `le_value` puts byte `j` at bits `8j+7:8j`, and 0 above the sequence (R68). -/
theorem leWord_byte {s : List Byte} (hs : s.length ≤ 4) {j : Nat} : (leWord s).extractLsb' (8 * j) 8 = s.getD j 0#8 := by
  apply BitVec.eq_of_toNat_eq
  have h : leValue s < 2 ^ 32 := lt_of_lt_of_le (leValue_lt s) (by
    calc 256 ^ s.length ≤ 256 ^ 4 := Nat.pow_le_pow_right (by omega) hs
      _ = 2 ^ 32 := by norm_num)
  rw [byte_toNat, leWord, BitVec.toNat_ofNat, Nat.mod_eq_of_lt h, leValue_byte]

/-- A word is its four bytes. -/
theorem word_ext {v u : Word} (h : ∀ j < 4, v.extractLsb' (8 * j) 8 = u.extractLsb' (8 * j) 8) : v = u := by
  apply BitVec.eq_of_toNat_eq
  have h' : ∀ j < 4, v.toNat / 256 ^ j % 256 = u.toNat / 256 ^ j % 256 := fun j hj => by
    rw [← byte_toNat, ← byte_toNat, h j hj]
  have h0 := h' 0 (by omega); have h1 := h' 1 (by omega); have h2 := h' 2 (by omega); have h3 := h' 3 (by omega)
  have hv := v.isLt; have hu := u.isLt
  simp only [Nat.pow_zero, Nat.div_one, Nat.pow_one, Nat.reducePow] at *
  omega

/-- Truncation to a width keeps the low bytes and clears the others (R68). -/
theorem narrow_byte (v : Word) (w : Width) (j : Nat) (hj : j < 4) :
    (w.narrow v).extractLsb' (8 * j) 8 = if j < w.bytes then v.extractLsb' (8 * j) 8 else 0#8 := by
  apply BitVec.eq_of_toNat_eq
  have hw : (w.narrow v).toNat = v.toNat % 256 ^ w.bytes := by
    cases w <;> simp [Width.narrow, Width.bytes] <;> omega
  rw [byte_toNat, hw]
  have hv := v.isLt
  split
  · rw [byte_toNat]
    cases w <;> simp only [Width.bytes] at * <;> interval_cases j <;> simp <;> omega
  · cases w <;> simp only [Width.bytes] at * <;> interval_cases j <;> simp <;> omega
/-- `zext_32(v[8n-1:0])` byte by byte. -/
theorem truncated_byte (v : Word) {n : Nat} (hn : n ∈ [1, 2, 4]) {j : Nat} (hj : j < 4) :
    ((v.setWidth (8 * n)).setWidth 32).extractLsb' (8 * j) 8 = if j < n then v.extractLsb' (8 * j) 8 else 0#8 := by
  simp only [List.mem_cons, List.not_mem_nil, or_false] at hn
  rcases hn with rfl | rfl | rfl
  · exact narrow_byte v .byte j hj
  · exact narrow_byte v .half j hj
  · exact narrow_byte v .word j hj

/-- `le_value` of `le_bytes_n` is the value truncated to `n` bytes (R10). -/
theorem leWord_leBytes (v : Word) {n : Nat} (hn : n ∈ [1, 2, 4]) :
    leWord (leBytes n v) = (v.setWidth (8 * n)).setWidth 32 := by
  have h4 : n ≤ 4 := by simp at hn; omega
  refine word_ext fun j hj => ?_
  rw [leWord_byte (by simpa using h4), truncated_byte v hn hj]
  split
  · next h => exact getD_leBytes h v _
  · next h => exact List.getD_eq_default _ _ (by simp; omega)

/-- A zero-extended byte survives truncation to any width. -/
theorem narrow_zext (b : Byte) (w : Width) : w.narrow (b.setWidth 32) = b.setWidth 32 := by
  have h := b.isLt
  apply BitVec.eq_of_toNat_eq
  cases w <;> simp [Width.narrow, Width.bytes]

/-- The bytes above the access width are NUL, so they are never emitted (R113). -/
theorem uartBytes_eq (w : Width) (v : Word) : uartBytes w v = (leBytes w.bytes v).takeWhile (· != 0#8) := by
  have hsplit : leBytes 4 (w.narrow v) = leBytes w.bytes v ++ List.replicate (4 - w.bytes) 0#8 := by
    refine List.ext_getElem (by cases w <;> simp [Width.bytes]) fun j h1 h2 => ?_
    have hj : j < 4 := by simpa using h1
    rw [List.getElem_append]
    simp only [leBytes, List.getElem_map, List.getElem_range, narrow_byte v w j hj, List.length_map, List.length_range,
      List.getElem_replicate]
    split <;> rfl
  rw [uartBytes, hsplit, List.takeWhile_append]
  split
  · next h =>
    have hz : (List.replicate (4 - w.bytes) 0#8).takeWhile (· != 0#8) = [] := by cases w <;> rfl
    rw [hz, List.append_nil]
    exact ((List.takeWhile_prefix _).eq_of_length h).symm
  · rfl

end Sys2Proof
end

