-- ==== Sys2Proof/Laws/State.lean ====
section
/-! SUPPORT. One lemma per field per update of State, so that no later proof unfolds a record update. -/

namespace Sys2Proof.Machine

open Sys2Proof

variable (s : State)

/-! ### setLatch -/

@[simp] theorem State.setLatch_cfg (v : Bool) : (s.setLatch v).cfg = s.cfg := rfl
@[simp] theorem State.setLatch_slots (v : Bool) : (s.setLatch v).slots = s.slots := rfl
@[simp] theorem State.setLatch_lru (v : Bool) : (s.setLatch v).lru = s.lru := rfl
@[simp] theorem State.setLatch_accesses (v : Bool) : (s.setLatch v).accesses = s.accesses := rfl
@[simp] theorem State.setLatch_hits (v : Bool) : (s.setLatch v).hits = s.hits := rfl
@[simp] theorem State.setLatch_pendValid (v : Bool) : (s.setLatch v).pendValid = s.pendValid := rfl
@[simp] theorem State.setLatch_pendByte (v : Bool) : (s.setLatch v).pendByte = s.pendByte := rfl
@[simp] theorem State.setLatch_ioFaultLatch (v : Bool) : (s.setLatch v).ioFaultLatch = v := rfl
@[simp] theorem State.setLatch_halted (v : Bool) : (s.setLatch v).halted = s.halted := rfl
@[simp] theorem State.setLatch_conOut (v : Bool) : (s.setLatch v).conOut = s.conOut := rfl
@[simp] theorem State.setLatch_errLog (v : Bool) : (s.setLatch v).errLog = s.errLog := rfl
@[simp] theorem State.setLatch_bs (v : Bool) : (s.setLatch v).bs = s.bs := rfl
@[simp] theorem State.setLatch_resp (v : Bool) : (s.setLatch v).resp = s.resp := rfl
@[simp] theorem State.setLatch_postCode (v : Bool) : (s.setLatch v).postCode = s.postCode := rfl
@[simp] theorem State.setLatch_released (v : Bool) : (s.setLatch v).released = s.released := rfl
@[simp] theorem State.setLatch_booting (v : Bool) : (s.setLatch v).booting = s.booting := rfl
@[simp] theorem State.setLatch_inputs (v : Bool) : (s.setLatch v).inputs = s.inputs := rfl
@[simp] theorem State.setLatch_bsAnswers (v : Bool) : (s.setLatch v).bsAnswers = s.bsAnswers := rfl
@[simp] theorem State.setLatch_bsLog (v : Bool) : (s.setLatch v).bsLog = s.bsLog := rfl
@[simp] theorem State.setLatch_conAnswers (v : Bool) : (s.setLatch v).conAnswers = s.conAnswers := rfl
@[simp] theorem State.setLatch_unsettled (v : Bool) : (s.setLatch v).unsettled = s.unsettled := rfl
@[simp] theorem State.setLatch_draws (v : Bool) : (s.setLatch v).draws = s.draws := rfl

/-! ### consumeInput -/

@[simp] theorem State.consumeInput_cfg : (s.consumeInput).cfg = s.cfg := rfl
@[simp] theorem State.consumeInput_slots : (s.consumeInput).slots = s.slots := rfl
@[simp] theorem State.consumeInput_lru : (s.consumeInput).lru = s.lru := rfl
@[simp] theorem State.consumeInput_accesses : (s.consumeInput).accesses = s.accesses := rfl
@[simp] theorem State.consumeInput_hits : (s.consumeInput).hits = s.hits := rfl
@[simp] theorem State.consumeInput_pendValid : (s.consumeInput).pendValid = false := rfl
@[simp] theorem State.consumeInput_pendByte : (s.consumeInput).pendByte = s.pendByte := rfl
@[simp] theorem State.consumeInput_ioFaultLatch : (s.consumeInput).ioFaultLatch = s.ioFaultLatch := rfl
@[simp] theorem State.consumeInput_halted : (s.consumeInput).halted = s.halted := rfl
@[simp] theorem State.consumeInput_conOut : (s.consumeInput).conOut = s.conOut := rfl
@[simp] theorem State.consumeInput_errLog : (s.consumeInput).errLog = s.errLog := rfl
@[simp] theorem State.consumeInput_bs : (s.consumeInput).bs = s.bs := rfl
@[simp] theorem State.consumeInput_resp : (s.consumeInput).resp = s.resp := rfl
@[simp] theorem State.consumeInput_postCode : (s.consumeInput).postCode = s.postCode := rfl
@[simp] theorem State.consumeInput_released : (s.consumeInput).released = s.released := rfl
@[simp] theorem State.consumeInput_booting : (s.consumeInput).booting = s.booting := rfl
@[simp] theorem State.consumeInput_inputs : (s.consumeInput).inputs = s.inputs := rfl
@[simp] theorem State.consumeInput_bsAnswers : (s.consumeInput).bsAnswers = s.bsAnswers := rfl
@[simp] theorem State.consumeInput_bsLog : (s.consumeInput).bsLog = s.bsLog := rfl
@[simp] theorem State.consumeInput_conAnswers : (s.consumeInput).conAnswers = s.conAnswers := rfl
@[simp] theorem State.consumeInput_unsettled : (s.consumeInput).unsettled = s.unsettled := rfl
@[simp] theorem State.consumeInput_draws : (s.consumeInput).draws = s.draws := rfl

/-! ### drawAccept -/

@[simp] theorem State.drawAccept_cfg : (s.drawAccept).cfg = s.cfg := rfl
@[simp] theorem State.drawAccept_slots : (s.drawAccept).slots = s.slots := rfl
@[simp] theorem State.drawAccept_lru : (s.drawAccept).lru = s.lru := rfl
@[simp] theorem State.drawAccept_accesses : (s.drawAccept).accesses = s.accesses := rfl
@[simp] theorem State.drawAccept_hits : (s.drawAccept).hits = s.hits := rfl
@[simp] theorem State.drawAccept_pendValid : (s.drawAccept).pendValid = s.pendValid := rfl
@[simp] theorem State.drawAccept_pendByte : (s.drawAccept).pendByte = s.pendByte := rfl
@[simp] theorem State.drawAccept_ioFaultLatch : (s.drawAccept).ioFaultLatch = s.ioFaultLatch := rfl
@[simp] theorem State.drawAccept_halted : (s.drawAccept).halted = s.halted := rfl
@[simp] theorem State.drawAccept_conOut : (s.drawAccept).conOut = s.conOut := rfl
@[simp] theorem State.drawAccept_errLog : (s.drawAccept).errLog = s.errLog := rfl
@[simp] theorem State.drawAccept_bs : (s.drawAccept).bs = s.bs := rfl
@[simp] theorem State.drawAccept_resp : (s.drawAccept).resp = s.resp := rfl
@[simp] theorem State.drawAccept_postCode : (s.drawAccept).postCode = s.postCode := rfl
@[simp] theorem State.drawAccept_released : (s.drawAccept).released = s.released := rfl
@[simp] theorem State.drawAccept_booting : (s.drawAccept).booting = s.booting := rfl
@[simp] theorem State.drawAccept_inputs : (s.drawAccept).inputs = s.inputs := rfl
@[simp] theorem State.drawAccept_bsAnswers : (s.drawAccept).bsAnswers = s.bsAnswers := rfl
@[simp] theorem State.drawAccept_bsLog : (s.drawAccept).bsLog = s.bsLog := rfl
@[simp] theorem State.drawAccept_conAnswers : (s.drawAccept).conAnswers = s.conAnswers.tail := rfl
@[simp] theorem State.drawAccept_unsettled : (s.drawAccept).unsettled = s.unsettled := rfl
@[simp] theorem State.drawAccept_draws : (s.drawAccept).draws = s.draws := rfl

/-! ### output -/

@[simp] theorem State.output_cfg (b : Byte) : (s.output b).cfg = s.cfg := rfl
@[simp] theorem State.output_slots (b : Byte) : (s.output b).slots = s.slots := rfl
@[simp] theorem State.output_lru (b : Byte) : (s.output b).lru = s.lru := rfl
@[simp] theorem State.output_accesses (b : Byte) : (s.output b).accesses = s.accesses := rfl
@[simp] theorem State.output_hits (b : Byte) : (s.output b).hits = s.hits := rfl
@[simp] theorem State.output_pendValid (b : Byte) : (s.output b).pendValid = s.pendValid := rfl
@[simp] theorem State.output_pendByte (b : Byte) : (s.output b).pendByte = s.pendByte := rfl
@[simp] theorem State.output_ioFaultLatch (b : Byte) : (s.output b).ioFaultLatch = s.ioFaultLatch := rfl
@[simp] theorem State.output_halted (b : Byte) : (s.output b).halted = s.halted := rfl
@[simp] theorem State.output_conOut (b : Byte) : (s.output b).conOut = s.conOut ++ [b] := rfl
@[simp] theorem State.output_errLog (b : Byte) : (s.output b).errLog = s.errLog := rfl
@[simp] theorem State.output_bs (b : Byte) : (s.output b).bs = s.bs := rfl
@[simp] theorem State.output_resp (b : Byte) : (s.output b).resp = s.resp := rfl
@[simp] theorem State.output_postCode (b : Byte) : (s.output b).postCode = s.postCode := rfl
@[simp] theorem State.output_released (b : Byte) : (s.output b).released = s.released := rfl
@[simp] theorem State.output_booting (b : Byte) : (s.output b).booting = s.booting := rfl
@[simp] theorem State.output_inputs (b : Byte) : (s.output b).inputs = s.inputs := rfl
@[simp] theorem State.output_bsAnswers (b : Byte) : (s.output b).bsAnswers = s.bsAnswers := rfl
@[simp] theorem State.output_bsLog (b : Byte) : (s.output b).bsLog = s.bsLog := rfl
@[simp] theorem State.output_conAnswers (b : Byte) : (s.output b).conAnswers = s.conAnswers := rfl
@[simp] theorem State.output_unsettled (b : Byte) : (s.output b).unsettled = s.unsettled := rfl
@[simp] theorem State.output_draws (b : Byte) : (s.output b).draws = s.draws := rfl

/-! ### report -/

@[simp] theorem State.report_cfg (k : FaultKind) (info : Word) : (s.report k info).cfg = s.cfg := rfl
@[simp] theorem State.report_slots (k : FaultKind) (info : Word) : (s.report k info).slots = s.slots := rfl
@[simp] theorem State.report_lru (k : FaultKind) (info : Word) : (s.report k info).lru = s.lru := rfl
@[simp] theorem State.report_accesses (k : FaultKind) (info : Word) : (s.report k info).accesses = s.accesses := rfl
@[simp] theorem State.report_hits (k : FaultKind) (info : Word) : (s.report k info).hits = s.hits := rfl
@[simp] theorem State.report_pendValid (k : FaultKind) (info : Word) : (s.report k info).pendValid = s.pendValid := rfl
@[simp] theorem State.report_pendByte (k : FaultKind) (info : Word) : (s.report k info).pendByte = s.pendByte := rfl
@[simp] theorem State.report_ioFaultLatch (k : FaultKind) (info : Word) : (s.report k info).ioFaultLatch = s.ioFaultLatch := rfl
@[simp] theorem State.report_halted (k : FaultKind) (info : Word) : (s.report k info).halted = s.halted := rfl
@[simp] theorem State.report_conOut (k : FaultKind) (info : Word) : (s.report k info).conOut = s.conOut := rfl
@[simp] theorem State.report_errLog (k : FaultKind) (info : Word) : (s.report k info).errLog = s.errLog ++ [⟨k, info⟩] := rfl
@[simp] theorem State.report_bs (k : FaultKind) (info : Word) : (s.report k info).bs = s.bs := rfl
@[simp] theorem State.report_resp (k : FaultKind) (info : Word) : (s.report k info).resp = s.resp := rfl
@[simp] theorem State.report_postCode (k : FaultKind) (info : Word) : (s.report k info).postCode = s.postCode := rfl
@[simp] theorem State.report_released (k : FaultKind) (info : Word) : (s.report k info).released = s.released := rfl
@[simp] theorem State.report_booting (k : FaultKind) (info : Word) : (s.report k info).booting = s.booting := rfl
@[simp] theorem State.report_inputs (k : FaultKind) (info : Word) : (s.report k info).inputs = s.inputs := rfl
@[simp] theorem State.report_bsAnswers (k : FaultKind) (info : Word) : (s.report k info).bsAnswers = s.bsAnswers := rfl
@[simp] theorem State.report_bsLog (k : FaultKind) (info : Word) : (s.report k info).bsLog = s.bsLog := rfl
@[simp] theorem State.report_conAnswers (k : FaultKind) (info : Word) : (s.report k info).conAnswers = s.conAnswers := rfl
@[simp] theorem State.report_unsettled (k : FaultKind) (info : Word) : (s.report k info).unsettled = s.unsettled := rfl
@[simp] theorem State.report_draws (k : FaultKind) (info : Word) : (s.report k info).draws = s.draws := rfl

/-! ### setResp -/

@[simp] theorem State.setResp_cfg (r : Option Response) : (s.setResp r).cfg = s.cfg := rfl
@[simp] theorem State.setResp_slots (r : Option Response) : (s.setResp r).slots = s.slots := rfl
@[simp] theorem State.setResp_lru (r : Option Response) : (s.setResp r).lru = s.lru := rfl
@[simp] theorem State.setResp_accesses (r : Option Response) : (s.setResp r).accesses = s.accesses := rfl
@[simp] theorem State.setResp_hits (r : Option Response) : (s.setResp r).hits = s.hits := rfl
@[simp] theorem State.setResp_pendValid (r : Option Response) : (s.setResp r).pendValid = s.pendValid := rfl
@[simp] theorem State.setResp_pendByte (r : Option Response) : (s.setResp r).pendByte = s.pendByte := rfl
@[simp] theorem State.setResp_ioFaultLatch (r : Option Response) : (s.setResp r).ioFaultLatch = s.ioFaultLatch := rfl
@[simp] theorem State.setResp_halted (r : Option Response) : (s.setResp r).halted = s.halted := rfl
@[simp] theorem State.setResp_conOut (r : Option Response) : (s.setResp r).conOut = s.conOut := rfl
@[simp] theorem State.setResp_errLog (r : Option Response) : (s.setResp r).errLog = s.errLog := rfl
@[simp] theorem State.setResp_bs (r : Option Response) : (s.setResp r).bs = s.bs := rfl
@[simp] theorem State.setResp_resp (r : Option Response) : (s.setResp r).resp = r := rfl
@[simp] theorem State.setResp_postCode (r : Option Response) : (s.setResp r).postCode = s.postCode := rfl
@[simp] theorem State.setResp_released (r : Option Response) : (s.setResp r).released = s.released := rfl
@[simp] theorem State.setResp_booting (r : Option Response) : (s.setResp r).booting = s.booting := rfl
@[simp] theorem State.setResp_inputs (r : Option Response) : (s.setResp r).inputs = s.inputs := rfl
@[simp] theorem State.setResp_bsAnswers (r : Option Response) : (s.setResp r).bsAnswers = s.bsAnswers := rfl
@[simp] theorem State.setResp_bsLog (r : Option Response) : (s.setResp r).bsLog = s.bsLog := rfl
@[simp] theorem State.setResp_conAnswers (r : Option Response) : (s.setResp r).conAnswers = s.conAnswers := rfl
@[simp] theorem State.setResp_unsettled (r : Option Response) : (s.setResp r).unsettled = s.unsettled := rfl
@[simp] theorem State.setResp_draws (r : Option Response) : (s.setResp r).draws = s.draws := rfl

/-! ### respond -/

@[simp] theorem State.respond_cfg (rdata : Word) (err : Option FaultKind) : (s.respond rdata err).cfg = s.cfg := rfl
@[simp] theorem State.respond_slots (rdata : Word) (err : Option FaultKind) : (s.respond rdata err).slots = s.slots := rfl
@[simp] theorem State.respond_lru (rdata : Word) (err : Option FaultKind) : (s.respond rdata err).lru = s.lru := rfl
@[simp] theorem State.respond_accesses (rdata : Word) (err : Option FaultKind) : (s.respond rdata err).accesses = s.accesses := rfl
@[simp] theorem State.respond_hits (rdata : Word) (err : Option FaultKind) : (s.respond rdata err).hits = s.hits := rfl
@[simp] theorem State.respond_pendValid (rdata : Word) (err : Option FaultKind) : (s.respond rdata err).pendValid = s.pendValid := rfl
@[simp] theorem State.respond_pendByte (rdata : Word) (err : Option FaultKind) : (s.respond rdata err).pendByte = s.pendByte := rfl
@[simp] theorem State.respond_ioFaultLatch (rdata : Word) (err : Option FaultKind) : (s.respond rdata err).ioFaultLatch = s.ioFaultLatch := rfl
@[simp] theorem State.respond_halted (rdata : Word) (err : Option FaultKind) : (s.respond rdata err).halted = s.halted := rfl
@[simp] theorem State.respond_conOut (rdata : Word) (err : Option FaultKind) : (s.respond rdata err).conOut = s.conOut := rfl
@[simp] theorem State.respond_errLog (rdata : Word) (err : Option FaultKind) : (s.respond rdata err).errLog = s.errLog := rfl
@[simp] theorem State.respond_bs (rdata : Word) (err : Option FaultKind) : (s.respond rdata err).bs = s.bs := rfl
@[simp] theorem State.respond_resp (rdata : Word) (err : Option FaultKind) : (s.respond rdata err).resp = some ⟨rdata, err, none⟩ := rfl
@[simp] theorem State.respond_postCode (rdata : Word) (err : Option FaultKind) : (s.respond rdata err).postCode = s.postCode := rfl
@[simp] theorem State.respond_released (rdata : Word) (err : Option FaultKind) : (s.respond rdata err).released = s.released := rfl
@[simp] theorem State.respond_booting (rdata : Word) (err : Option FaultKind) : (s.respond rdata err).booting = s.booting := rfl
@[simp] theorem State.respond_inputs (rdata : Word) (err : Option FaultKind) : (s.respond rdata err).inputs = s.inputs := rfl
@[simp] theorem State.respond_bsAnswers (rdata : Word) (err : Option FaultKind) : (s.respond rdata err).bsAnswers = s.bsAnswers := rfl
@[simp] theorem State.respond_bsLog (rdata : Word) (err : Option FaultKind) : (s.respond rdata err).bsLog = s.bsLog := rfl
@[simp] theorem State.respond_conAnswers (rdata : Word) (err : Option FaultKind) : (s.respond rdata err).conAnswers = s.conAnswers := rfl
@[simp] theorem State.respond_unsettled (rdata : Word) (err : Option FaultKind) : (s.respond rdata err).unsettled = s.unsettled := rfl
@[simp] theorem State.respond_draws (rdata : Word) (err : Option FaultKind) : (s.respond rdata err).draws = s.draws := rfl

/-! ### noteIoFault -/

@[simp] theorem State.noteIoFault_cfg (tag : Word) : (s.noteIoFault tag).cfg = s.cfg := rfl
@[simp] theorem State.noteIoFault_slots (tag : Word) : (s.noteIoFault tag).slots = s.slots := rfl
@[simp] theorem State.noteIoFault_lru (tag : Word) : (s.noteIoFault tag).lru = s.lru := rfl
@[simp] theorem State.noteIoFault_accesses (tag : Word) : (s.noteIoFault tag).accesses = s.accesses := rfl
@[simp] theorem State.noteIoFault_hits (tag : Word) : (s.noteIoFault tag).hits = s.hits := rfl
@[simp] theorem State.noteIoFault_pendValid (tag : Word) : (s.noteIoFault tag).pendValid = s.pendValid := rfl
@[simp] theorem State.noteIoFault_pendByte (tag : Word) : (s.noteIoFault tag).pendByte = s.pendByte := rfl
@[simp] theorem State.noteIoFault_ioFaultLatch (tag : Word) : (s.noteIoFault tag).ioFaultLatch = true := rfl
@[simp] theorem State.noteIoFault_halted (tag : Word) : (s.noteIoFault tag).halted = s.halted := rfl
@[simp] theorem State.noteIoFault_conOut (tag : Word) : (s.noteIoFault tag).conOut = s.conOut := rfl
@[simp] theorem State.noteIoFault_errLog (tag : Word) : (s.noteIoFault tag).errLog = s.errLog ++ [⟨.io, tag⟩] := rfl
@[simp] theorem State.noteIoFault_bs (tag : Word) : (s.noteIoFault tag).bs = s.bs := rfl
@[simp] theorem State.noteIoFault_resp (tag : Word) : (s.noteIoFault tag).resp = s.resp := rfl
@[simp] theorem State.noteIoFault_postCode (tag : Word) : (s.noteIoFault tag).postCode = s.postCode := rfl
@[simp] theorem State.noteIoFault_released (tag : Word) : (s.noteIoFault tag).released = s.released := rfl
@[simp] theorem State.noteIoFault_booting (tag : Word) : (s.noteIoFault tag).booting = s.booting := rfl
@[simp] theorem State.noteIoFault_inputs (tag : Word) : (s.noteIoFault tag).inputs = s.inputs := rfl
@[simp] theorem State.noteIoFault_bsAnswers (tag : Word) : (s.noteIoFault tag).bsAnswers = s.bsAnswers := rfl
@[simp] theorem State.noteIoFault_bsLog (tag : Word) : (s.noteIoFault tag).bsLog = s.bsLog := rfl
@[simp] theorem State.noteIoFault_conAnswers (tag : Word) : (s.noteIoFault tag).conAnswers = s.conAnswers := rfl
@[simp] theorem State.noteIoFault_unsettled (tag : Word) : (s.noteIoFault tag).unsettled = s.unsettled := rfl
@[simp] theorem State.noteIoFault_draws (tag : Word) : (s.noteIoFault tag).draws = s.draws := rfl

/-! ### logEvent -/

@[simp] theorem State.logEvent_cfg (e : BsEvent) : (s.logEvent e).cfg = s.cfg := rfl
@[simp] theorem State.logEvent_slots (e : BsEvent) : (s.logEvent e).slots = s.slots := rfl
@[simp] theorem State.logEvent_lru (e : BsEvent) : (s.logEvent e).lru = s.lru := rfl
@[simp] theorem State.logEvent_accesses (e : BsEvent) : (s.logEvent e).accesses = s.accesses := rfl
@[simp] theorem State.logEvent_hits (e : BsEvent) : (s.logEvent e).hits = s.hits := rfl
@[simp] theorem State.logEvent_pendValid (e : BsEvent) : (s.logEvent e).pendValid = s.pendValid := rfl
@[simp] theorem State.logEvent_pendByte (e : BsEvent) : (s.logEvent e).pendByte = s.pendByte := rfl
@[simp] theorem State.logEvent_ioFaultLatch (e : BsEvent) : (s.logEvent e).ioFaultLatch = s.ioFaultLatch := rfl
@[simp] theorem State.logEvent_halted (e : BsEvent) : (s.logEvent e).halted = s.halted := rfl
@[simp] theorem State.logEvent_conOut (e : BsEvent) : (s.logEvent e).conOut = s.conOut := rfl
@[simp] theorem State.logEvent_errLog (e : BsEvent) : (s.logEvent e).errLog = s.errLog := rfl
@[simp] theorem State.logEvent_bs (e : BsEvent) : (s.logEvent e).bs = s.bs := rfl
@[simp] theorem State.logEvent_resp (e : BsEvent) : (s.logEvent e).resp = s.resp := rfl
@[simp] theorem State.logEvent_postCode (e : BsEvent) : (s.logEvent e).postCode = s.postCode := rfl
@[simp] theorem State.logEvent_released (e : BsEvent) : (s.logEvent e).released = s.released := rfl
@[simp] theorem State.logEvent_booting (e : BsEvent) : (s.logEvent e).booting = s.booting := rfl
@[simp] theorem State.logEvent_inputs (e : BsEvent) : (s.logEvent e).inputs = s.inputs := rfl
@[simp] theorem State.logEvent_bsAnswers (e : BsEvent) : (s.logEvent e).bsAnswers = s.bsAnswers.tail := rfl
@[simp] theorem State.logEvent_bsLog (e : BsEvent) : (s.logEvent e).bsLog = s.bsLog ++ [e] := rfl
@[simp] theorem State.logEvent_conAnswers (e : BsEvent) : (s.logEvent e).conAnswers = s.conAnswers := rfl
@[simp] theorem State.logEvent_unsettled (e : BsEvent) : (s.logEvent e).unsettled = s.unsettled := rfl
@[simp] theorem State.logEvent_draws (e : BsEvent) : (s.logEvent e).draws = s.draws := rfl

/-! ### setBs -/

@[simp] theorem State.setBs_cfg (m : Memory) : (s.setBs m).cfg = s.cfg := rfl
@[simp] theorem State.setBs_slots (m : Memory) : (s.setBs m).slots = s.slots := rfl
@[simp] theorem State.setBs_lru (m : Memory) : (s.setBs m).lru = s.lru := rfl
@[simp] theorem State.setBs_accesses (m : Memory) : (s.setBs m).accesses = s.accesses := rfl
@[simp] theorem State.setBs_hits (m : Memory) : (s.setBs m).hits = s.hits := rfl
@[simp] theorem State.setBs_pendValid (m : Memory) : (s.setBs m).pendValid = s.pendValid := rfl
@[simp] theorem State.setBs_pendByte (m : Memory) : (s.setBs m).pendByte = s.pendByte := rfl
@[simp] theorem State.setBs_ioFaultLatch (m : Memory) : (s.setBs m).ioFaultLatch = s.ioFaultLatch := rfl
@[simp] theorem State.setBs_halted (m : Memory) : (s.setBs m).halted = s.halted := rfl
@[simp] theorem State.setBs_conOut (m : Memory) : (s.setBs m).conOut = s.conOut := rfl
@[simp] theorem State.setBs_errLog (m : Memory) : (s.setBs m).errLog = s.errLog := rfl
@[simp] theorem State.setBs_bs (m : Memory) : (s.setBs m).bs = m := rfl
@[simp] theorem State.setBs_resp (m : Memory) : (s.setBs m).resp = s.resp := rfl
@[simp] theorem State.setBs_postCode (m : Memory) : (s.setBs m).postCode = s.postCode := rfl
@[simp] theorem State.setBs_released (m : Memory) : (s.setBs m).released = s.released := rfl
@[simp] theorem State.setBs_booting (m : Memory) : (s.setBs m).booting = s.booting := rfl
@[simp] theorem State.setBs_inputs (m : Memory) : (s.setBs m).inputs = s.inputs := rfl
@[simp] theorem State.setBs_bsAnswers (m : Memory) : (s.setBs m).bsAnswers = s.bsAnswers := rfl
@[simp] theorem State.setBs_bsLog (m : Memory) : (s.setBs m).bsLog = s.bsLog := rfl
@[simp] theorem State.setBs_conAnswers (m : Memory) : (s.setBs m).conAnswers = s.conAnswers := rfl
@[simp] theorem State.setBs_unsettled (m : Memory) : (s.setBs m).unsettled = s.unsettled := rfl
@[simp] theorem State.setBs_draws (m : Memory) : (s.setBs m).draws = s.draws := rfl

/-! ### setSlot -/

@[simp] theorem State.setSlot_cfg (i : Nat) (x : Slot) : (s.setSlot i x).cfg = s.cfg := rfl
@[simp] theorem State.setSlot_slots (i : Nat) (x : Slot) : (s.setSlot i x).slots = s.slots.set i x := rfl
@[simp] theorem State.setSlot_lru (i : Nat) (x : Slot) : (s.setSlot i x).lru = s.lru := rfl
@[simp] theorem State.setSlot_accesses (i : Nat) (x : Slot) : (s.setSlot i x).accesses = s.accesses := rfl
@[simp] theorem State.setSlot_hits (i : Nat) (x : Slot) : (s.setSlot i x).hits = s.hits := rfl
@[simp] theorem State.setSlot_pendValid (i : Nat) (x : Slot) : (s.setSlot i x).pendValid = s.pendValid := rfl
@[simp] theorem State.setSlot_pendByte (i : Nat) (x : Slot) : (s.setSlot i x).pendByte = s.pendByte := rfl
@[simp] theorem State.setSlot_ioFaultLatch (i : Nat) (x : Slot) : (s.setSlot i x).ioFaultLatch = s.ioFaultLatch := rfl
@[simp] theorem State.setSlot_halted (i : Nat) (x : Slot) : (s.setSlot i x).halted = s.halted := rfl
@[simp] theorem State.setSlot_conOut (i : Nat) (x : Slot) : (s.setSlot i x).conOut = s.conOut := rfl
@[simp] theorem State.setSlot_errLog (i : Nat) (x : Slot) : (s.setSlot i x).errLog = s.errLog := rfl
@[simp] theorem State.setSlot_bs (i : Nat) (x : Slot) : (s.setSlot i x).bs = s.bs := rfl
@[simp] theorem State.setSlot_resp (i : Nat) (x : Slot) : (s.setSlot i x).resp = s.resp := rfl
@[simp] theorem State.setSlot_postCode (i : Nat) (x : Slot) : (s.setSlot i x).postCode = s.postCode := rfl
@[simp] theorem State.setSlot_released (i : Nat) (x : Slot) : (s.setSlot i x).released = s.released := rfl
@[simp] theorem State.setSlot_booting (i : Nat) (x : Slot) : (s.setSlot i x).booting = s.booting := rfl
@[simp] theorem State.setSlot_inputs (i : Nat) (x : Slot) : (s.setSlot i x).inputs = s.inputs := rfl
@[simp] theorem State.setSlot_bsAnswers (i : Nat) (x : Slot) : (s.setSlot i x).bsAnswers = s.bsAnswers := rfl
@[simp] theorem State.setSlot_bsLog (i : Nat) (x : Slot) : (s.setSlot i x).bsLog = s.bsLog := rfl
@[simp] theorem State.setSlot_conAnswers (i : Nat) (x : Slot) : (s.setSlot i x).conAnswers = s.conAnswers := rfl
@[simp] theorem State.setSlot_unsettled (i : Nat) (x : Slot) : (s.setSlot i x).unsettled = s.unsettled := rfl
@[simp] theorem State.setSlot_draws (i : Nat) (x : Slot) : (s.setSlot i x).draws = s.draws := rfl

/-! ### touch -/

@[simp] theorem State.touch_cfg (i : Nat) : (s.touch i).cfg = s.cfg := rfl
@[simp] theorem State.touch_slots (i : Nat) : (s.touch i).slots = s.slots := rfl
@[simp] theorem State.touch_lru (i : Nat) : (s.touch i).lru = i :: s.lru.filter (· != i) := rfl
@[simp] theorem State.touch_accesses (i : Nat) : (s.touch i).accesses = s.accesses := rfl
@[simp] theorem State.touch_hits (i : Nat) : (s.touch i).hits = s.hits := rfl
@[simp] theorem State.touch_pendValid (i : Nat) : (s.touch i).pendValid = s.pendValid := rfl
@[simp] theorem State.touch_pendByte (i : Nat) : (s.touch i).pendByte = s.pendByte := rfl
@[simp] theorem State.touch_ioFaultLatch (i : Nat) : (s.touch i).ioFaultLatch = s.ioFaultLatch := rfl
@[simp] theorem State.touch_halted (i : Nat) : (s.touch i).halted = s.halted := rfl
@[simp] theorem State.touch_conOut (i : Nat) : (s.touch i).conOut = s.conOut := rfl
@[simp] theorem State.touch_errLog (i : Nat) : (s.touch i).errLog = s.errLog := rfl
@[simp] theorem State.touch_bs (i : Nat) : (s.touch i).bs = s.bs := rfl
@[simp] theorem State.touch_resp (i : Nat) : (s.touch i).resp = s.resp := rfl
@[simp] theorem State.touch_postCode (i : Nat) : (s.touch i).postCode = s.postCode := rfl
@[simp] theorem State.touch_released (i : Nat) : (s.touch i).released = s.released := rfl
@[simp] theorem State.touch_booting (i : Nat) : (s.touch i).booting = s.booting := rfl
@[simp] theorem State.touch_inputs (i : Nat) : (s.touch i).inputs = s.inputs := rfl
@[simp] theorem State.touch_bsAnswers (i : Nat) : (s.touch i).bsAnswers = s.bsAnswers := rfl
@[simp] theorem State.touch_bsLog (i : Nat) : (s.touch i).bsLog = s.bsLog := rfl
@[simp] theorem State.touch_conAnswers (i : Nat) : (s.touch i).conAnswers = s.conAnswers := rfl
@[simp] theorem State.touch_unsettled (i : Nat) : (s.touch i).unsettled = s.unsettled := rfl
@[simp] theorem State.touch_draws (i : Nat) : (s.touch i).draws = s.draws := rfl

/-! ### countAccess -/

@[simp] theorem State.countAccess_cfg : (s.countAccess).cfg = s.cfg := rfl
@[simp] theorem State.countAccess_slots : (s.countAccess).slots = s.slots := rfl
@[simp] theorem State.countAccess_lru : (s.countAccess).lru = s.lru := rfl
@[simp] theorem State.countAccess_accesses : (s.countAccess).accesses = s.accesses + 1#64 := rfl
@[simp] theorem State.countAccess_hits : (s.countAccess).hits = s.hits := rfl
@[simp] theorem State.countAccess_pendValid : (s.countAccess).pendValid = s.pendValid := rfl
@[simp] theorem State.countAccess_pendByte : (s.countAccess).pendByte = s.pendByte := rfl
@[simp] theorem State.countAccess_ioFaultLatch : (s.countAccess).ioFaultLatch = s.ioFaultLatch := rfl
@[simp] theorem State.countAccess_halted : (s.countAccess).halted = s.halted := rfl
@[simp] theorem State.countAccess_conOut : (s.countAccess).conOut = s.conOut := rfl
@[simp] theorem State.countAccess_errLog : (s.countAccess).errLog = s.errLog := rfl
@[simp] theorem State.countAccess_bs : (s.countAccess).bs = s.bs := rfl
@[simp] theorem State.countAccess_resp : (s.countAccess).resp = s.resp := rfl
@[simp] theorem State.countAccess_postCode : (s.countAccess).postCode = s.postCode := rfl
@[simp] theorem State.countAccess_released : (s.countAccess).released = s.released := rfl
@[simp] theorem State.countAccess_booting : (s.countAccess).booting = s.booting := rfl
@[simp] theorem State.countAccess_inputs : (s.countAccess).inputs = s.inputs := rfl
@[simp] theorem State.countAccess_bsAnswers : (s.countAccess).bsAnswers = s.bsAnswers := rfl
@[simp] theorem State.countAccess_bsLog : (s.countAccess).bsLog = s.bsLog := rfl
@[simp] theorem State.countAccess_conAnswers : (s.countAccess).conAnswers = s.conAnswers := rfl
@[simp] theorem State.countAccess_unsettled : (s.countAccess).unsettled = s.unsettled := rfl
@[simp] theorem State.countAccess_draws : (s.countAccess).draws = s.draws := rfl

/-! ### countHit -/

@[simp] theorem State.countHit_cfg : (s.countHit).cfg = s.cfg := rfl
@[simp] theorem State.countHit_slots : (s.countHit).slots = s.slots := rfl
@[simp] theorem State.countHit_lru : (s.countHit).lru = s.lru := rfl
@[simp] theorem State.countHit_accesses : (s.countHit).accesses = s.accesses := rfl
@[simp] theorem State.countHit_hits : (s.countHit).hits = s.hits + 1#64 := rfl
@[simp] theorem State.countHit_pendValid : (s.countHit).pendValid = s.pendValid := rfl
@[simp] theorem State.countHit_pendByte : (s.countHit).pendByte = s.pendByte := rfl
@[simp] theorem State.countHit_ioFaultLatch : (s.countHit).ioFaultLatch = s.ioFaultLatch := rfl
@[simp] theorem State.countHit_halted : (s.countHit).halted = s.halted := rfl
@[simp] theorem State.countHit_conOut : (s.countHit).conOut = s.conOut := rfl
@[simp] theorem State.countHit_errLog : (s.countHit).errLog = s.errLog := rfl
@[simp] theorem State.countHit_bs : (s.countHit).bs = s.bs := rfl
@[simp] theorem State.countHit_resp : (s.countHit).resp = s.resp := rfl
@[simp] theorem State.countHit_postCode : (s.countHit).postCode = s.postCode := rfl
@[simp] theorem State.countHit_released : (s.countHit).released = s.released := rfl
@[simp] theorem State.countHit_booting : (s.countHit).booting = s.booting := rfl
@[simp] theorem State.countHit_inputs : (s.countHit).inputs = s.inputs := rfl
@[simp] theorem State.countHit_bsAnswers : (s.countHit).bsAnswers = s.bsAnswers := rfl
@[simp] theorem State.countHit_bsLog : (s.countHit).bsLog = s.bsLog := rfl
@[simp] theorem State.countHit_conAnswers : (s.countHit).conAnswers = s.conAnswers := rfl
@[simp] theorem State.countHit_unsettled : (s.countHit).unsettled = s.unsettled := rfl
@[simp] theorem State.countHit_draws : (s.countHit).draws = s.draws := rfl

/-! ### setPostCode -/

@[simp] theorem State.setPostCode_cfg (c : Option Word) : (s.setPostCode c).cfg = s.cfg := rfl
@[simp] theorem State.setPostCode_slots (c : Option Word) : (s.setPostCode c).slots = s.slots := rfl
@[simp] theorem State.setPostCode_lru (c : Option Word) : (s.setPostCode c).lru = s.lru := rfl
@[simp] theorem State.setPostCode_accesses (c : Option Word) : (s.setPostCode c).accesses = s.accesses := rfl
@[simp] theorem State.setPostCode_hits (c : Option Word) : (s.setPostCode c).hits = s.hits := rfl
@[simp] theorem State.setPostCode_pendValid (c : Option Word) : (s.setPostCode c).pendValid = s.pendValid := rfl
@[simp] theorem State.setPostCode_pendByte (c : Option Word) : (s.setPostCode c).pendByte = s.pendByte := rfl
@[simp] theorem State.setPostCode_ioFaultLatch (c : Option Word) : (s.setPostCode c).ioFaultLatch = s.ioFaultLatch := rfl
@[simp] theorem State.setPostCode_halted (c : Option Word) : (s.setPostCode c).halted = s.halted := rfl
@[simp] theorem State.setPostCode_conOut (c : Option Word) : (s.setPostCode c).conOut = s.conOut := rfl
@[simp] theorem State.setPostCode_errLog (c : Option Word) : (s.setPostCode c).errLog = s.errLog := rfl
@[simp] theorem State.setPostCode_bs (c : Option Word) : (s.setPostCode c).bs = s.bs := rfl
@[simp] theorem State.setPostCode_resp (c : Option Word) : (s.setPostCode c).resp = s.resp := rfl
@[simp] theorem State.setPostCode_postCode (c : Option Word) : (s.setPostCode c).postCode = c := rfl
@[simp] theorem State.setPostCode_released (c : Option Word) : (s.setPostCode c).released = s.released := rfl
@[simp] theorem State.setPostCode_booting (c : Option Word) : (s.setPostCode c).booting = s.booting := rfl
@[simp] theorem State.setPostCode_inputs (c : Option Word) : (s.setPostCode c).inputs = s.inputs := rfl
@[simp] theorem State.setPostCode_bsAnswers (c : Option Word) : (s.setPostCode c).bsAnswers = s.bsAnswers := rfl
@[simp] theorem State.setPostCode_bsLog (c : Option Word) : (s.setPostCode c).bsLog = s.bsLog := rfl
@[simp] theorem State.setPostCode_conAnswers (c : Option Word) : (s.setPostCode c).conAnswers = s.conAnswers := rfl
@[simp] theorem State.setPostCode_unsettled (c : Option Word) : (s.setPostCode c).unsettled = s.unsettled := rfl
@[simp] theorem State.setPostCode_draws (c : Option Word) : (s.setPostCode c).draws = s.draws := rfl

/-! ### setInputs -/

@[simp] theorem State.setInputs_cfg (q : List Input) : (s.setInputs q).cfg = s.cfg := rfl
@[simp] theorem State.setInputs_slots (q : List Input) : (s.setInputs q).slots = s.slots := rfl
@[simp] theorem State.setInputs_lru (q : List Input) : (s.setInputs q).lru = s.lru := rfl
@[simp] theorem State.setInputs_accesses (q : List Input) : (s.setInputs q).accesses = s.accesses := rfl
@[simp] theorem State.setInputs_hits (q : List Input) : (s.setInputs q).hits = s.hits := rfl
@[simp] theorem State.setInputs_pendValid (q : List Input) : (s.setInputs q).pendValid = s.pendValid := rfl
@[simp] theorem State.setInputs_pendByte (q : List Input) : (s.setInputs q).pendByte = s.pendByte := rfl
@[simp] theorem State.setInputs_ioFaultLatch (q : List Input) : (s.setInputs q).ioFaultLatch = s.ioFaultLatch := rfl
@[simp] theorem State.setInputs_halted (q : List Input) : (s.setInputs q).halted = s.halted := rfl
@[simp] theorem State.setInputs_conOut (q : List Input) : (s.setInputs q).conOut = s.conOut := rfl
@[simp] theorem State.setInputs_errLog (q : List Input) : (s.setInputs q).errLog = s.errLog := rfl
@[simp] theorem State.setInputs_bs (q : List Input) : (s.setInputs q).bs = s.bs := rfl
@[simp] theorem State.setInputs_resp (q : List Input) : (s.setInputs q).resp = s.resp := rfl
@[simp] theorem State.setInputs_postCode (q : List Input) : (s.setInputs q).postCode = s.postCode := rfl
@[simp] theorem State.setInputs_released (q : List Input) : (s.setInputs q).released = s.released := rfl
@[simp] theorem State.setInputs_booting (q : List Input) : (s.setInputs q).booting = s.booting := rfl
@[simp] theorem State.setInputs_inputs (q : List Input) : (s.setInputs q).inputs = q := rfl
@[simp] theorem State.setInputs_bsAnswers (q : List Input) : (s.setInputs q).bsAnswers = s.bsAnswers := rfl
@[simp] theorem State.setInputs_bsLog (q : List Input) : (s.setInputs q).bsLog = s.bsLog := rfl
@[simp] theorem State.setInputs_conAnswers (q : List Input) : (s.setInputs q).conAnswers = s.conAnswers := rfl
@[simp] theorem State.setInputs_unsettled (q : List Input) : (s.setInputs q).unsettled = s.unsettled := rfl
@[simp] theorem State.setInputs_draws (q : List Input) : (s.setInputs q).draws = s.draws := rfl

/-! ### noteRequest -/

@[simp] theorem State.noteRequest_cfg (p : Port) : (s.noteRequest p).cfg = s.cfg := rfl
@[simp] theorem State.noteRequest_slots (p : Port) : (s.noteRequest p).slots = s.slots := rfl
@[simp] theorem State.noteRequest_lru (p : Port) : (s.noteRequest p).lru = s.lru := rfl
@[simp] theorem State.noteRequest_accesses (p : Port) : (s.noteRequest p).accesses = s.accesses := rfl
@[simp] theorem State.noteRequest_hits (p : Port) : (s.noteRequest p).hits = s.hits := rfl
@[simp] theorem State.noteRequest_pendValid (p : Port) : (s.noteRequest p).pendValid = s.pendValid := rfl
@[simp] theorem State.noteRequest_pendByte (p : Port) : (s.noteRequest p).pendByte = s.pendByte := rfl
@[simp] theorem State.noteRequest_ioFaultLatch (p : Port) : (s.noteRequest p).ioFaultLatch = s.ioFaultLatch := rfl
@[simp] theorem State.noteRequest_halted (p : Port) : (s.noteRequest p).halted = s.halted := rfl
@[simp] theorem State.noteRequest_conOut (p : Port) : (s.noteRequest p).conOut = s.conOut := rfl
@[simp] theorem State.noteRequest_errLog (p : Port) : (s.noteRequest p).errLog = s.errLog := rfl
@[simp] theorem State.noteRequest_bs (p : Port) : (s.noteRequest p).bs = s.bs := rfl
@[simp] theorem State.noteRequest_resp (p : Port) : (s.noteRequest p).resp = s.resp := rfl
@[simp] theorem State.noteRequest_postCode (p : Port) : (s.noteRequest p).postCode = s.postCode := rfl
@[simp] theorem State.noteRequest_released (p : Port) : (s.noteRequest p).released = s.released := rfl
@[simp] theorem State.noteRequest_booting (p : Port) : (s.noteRequest p).booting = (s.booting && p != .core) := rfl
@[simp] theorem State.noteRequest_inputs (p : Port) : (s.noteRequest p).inputs = s.inputs := rfl
@[simp] theorem State.noteRequest_bsAnswers (p : Port) : (s.noteRequest p).bsAnswers = s.bsAnswers := rfl
@[simp] theorem State.noteRequest_bsLog (p : Port) : (s.noteRequest p).bsLog = s.bsLog := rfl
@[simp] theorem State.noteRequest_conAnswers (p : Port) : (s.noteRequest p).conAnswers = s.conAnswers := rfl
@[simp] theorem State.noteRequest_unsettled (p : Port) : (s.noteRequest p).unsettled = s.unsettled := rfl
@[simp] theorem State.noteRequest_draws (p : Port) : (s.noteRequest p).draws = s.draws := rfl

/-! ### unsettle -/

@[simp] theorem State.unsettle_cfg (tags : List Nat) : (s.unsettle tags).cfg = s.cfg := rfl
@[simp] theorem State.unsettle_slots (tags : List Nat) : (s.unsettle tags).slots = s.slots := rfl
@[simp] theorem State.unsettle_lru (tags : List Nat) : (s.unsettle tags).lru = s.lru := rfl
@[simp] theorem State.unsettle_accesses (tags : List Nat) : (s.unsettle tags).accesses = s.accesses := rfl
@[simp] theorem State.unsettle_hits (tags : List Nat) : (s.unsettle tags).hits = s.hits := rfl
@[simp] theorem State.unsettle_pendValid (tags : List Nat) : (s.unsettle tags).pendValid = s.pendValid := rfl
@[simp] theorem State.unsettle_pendByte (tags : List Nat) : (s.unsettle tags).pendByte = s.pendByte := rfl
@[simp] theorem State.unsettle_ioFaultLatch (tags : List Nat) : (s.unsettle tags).ioFaultLatch = s.ioFaultLatch := rfl
@[simp] theorem State.unsettle_halted (tags : List Nat) : (s.unsettle tags).halted = s.halted := rfl
@[simp] theorem State.unsettle_conOut (tags : List Nat) : (s.unsettle tags).conOut = s.conOut := rfl
@[simp] theorem State.unsettle_errLog (tags : List Nat) : (s.unsettle tags).errLog = s.errLog := rfl
@[simp] theorem State.unsettle_bs (tags : List Nat) : (s.unsettle tags).bs = s.bs := rfl
@[simp] theorem State.unsettle_resp (tags : List Nat) : (s.unsettle tags).resp = s.resp := rfl
@[simp] theorem State.unsettle_postCode (tags : List Nat) : (s.unsettle tags).postCode = s.postCode := rfl
@[simp] theorem State.unsettle_released (tags : List Nat) : (s.unsettle tags).released = s.released := rfl
@[simp] theorem State.unsettle_booting (tags : List Nat) : (s.unsettle tags).booting = s.booting := rfl
@[simp] theorem State.unsettle_inputs (tags : List Nat) : (s.unsettle tags).inputs = s.inputs := rfl
@[simp] theorem State.unsettle_bsAnswers (tags : List Nat) : (s.unsettle tags).bsAnswers = s.bsAnswers := rfl
@[simp] theorem State.unsettle_bsLog (tags : List Nat) : (s.unsettle tags).bsLog = s.bsLog := rfl
@[simp] theorem State.unsettle_conAnswers (tags : List Nat) : (s.unsettle tags).conAnswers = s.conAnswers := rfl
@[simp] theorem State.unsettle_unsettled (tags : List Nat) : (s.unsettle tags).unsettled = tags.foldr List.insert s.unsettled := rfl
@[simp] theorem State.unsettle_draws (tags : List Nat) : (s.unsettle tags).draws = s.draws := rfl

/-! ### dropDraw -/

@[simp] theorem State.dropDraw_cfg : (s.dropDraw).cfg = s.cfg := rfl
@[simp] theorem State.dropDraw_slots : (s.dropDraw).slots = s.slots := rfl
@[simp] theorem State.dropDraw_lru : (s.dropDraw).lru = s.lru := rfl
@[simp] theorem State.dropDraw_accesses : (s.dropDraw).accesses = s.accesses := rfl
@[simp] theorem State.dropDraw_hits : (s.dropDraw).hits = s.hits := rfl
@[simp] theorem State.dropDraw_pendValid : (s.dropDraw).pendValid = s.pendValid := rfl
@[simp] theorem State.dropDraw_pendByte : (s.dropDraw).pendByte = s.pendByte := rfl
@[simp] theorem State.dropDraw_ioFaultLatch : (s.dropDraw).ioFaultLatch = s.ioFaultLatch := rfl
@[simp] theorem State.dropDraw_halted : (s.dropDraw).halted = s.halted := rfl
@[simp] theorem State.dropDraw_conOut : (s.dropDraw).conOut = s.conOut := rfl
@[simp] theorem State.dropDraw_errLog : (s.dropDraw).errLog = s.errLog := rfl
@[simp] theorem State.dropDraw_bs : (s.dropDraw).bs = s.bs := rfl
@[simp] theorem State.dropDraw_resp : (s.dropDraw).resp = s.resp := rfl
@[simp] theorem State.dropDraw_postCode : (s.dropDraw).postCode = s.postCode := rfl
@[simp] theorem State.dropDraw_released : (s.dropDraw).released = s.released := rfl
@[simp] theorem State.dropDraw_booting : (s.dropDraw).booting = s.booting := rfl
@[simp] theorem State.dropDraw_inputs : (s.dropDraw).inputs = s.inputs := rfl
@[simp] theorem State.dropDraw_bsAnswers : (s.dropDraw).bsAnswers = s.bsAnswers := rfl
@[simp] theorem State.dropDraw_bsLog : (s.dropDraw).bsLog = s.bsLog := rfl
@[simp] theorem State.dropDraw_conAnswers : (s.dropDraw).conAnswers = s.conAnswers := rfl
@[simp] theorem State.dropDraw_unsettled : (s.dropDraw).unsettled = s.unsettled := rfl
@[simp] theorem State.dropDraw_draws : (s.dropDraw).draws = s.draws.tail := rfl

/-! ### restartBlock -/

@[simp] theorem State.restartBlock_cfg : (s.restartBlock).cfg = s.cfg := rfl
@[simp] theorem State.restartBlock_slots : (s.restartBlock).slots = s.slots.map fun x => { x with valid := false, dirty := false } := rfl
@[simp] theorem State.restartBlock_lru : (s.restartBlock).lru = s.lru := rfl
@[simp] theorem State.restartBlock_accesses : (s.restartBlock).accesses = s.accesses := rfl
@[simp] theorem State.restartBlock_hits : (s.restartBlock).hits = s.hits := rfl
@[simp] theorem State.restartBlock_pendValid : (s.restartBlock).pendValid = s.pendValid := rfl
@[simp] theorem State.restartBlock_pendByte : (s.restartBlock).pendByte = s.pendByte := rfl
@[simp] theorem State.restartBlock_ioFaultLatch : (s.restartBlock).ioFaultLatch = false := rfl
@[simp] theorem State.restartBlock_halted : (s.restartBlock).halted = s.halted := rfl
@[simp] theorem State.restartBlock_conOut : (s.restartBlock).conOut = s.conOut := rfl
@[simp] theorem State.restartBlock_errLog : (s.restartBlock).errLog = s.errLog := rfl
@[simp] theorem State.restartBlock_bs : (s.restartBlock).bs = s.bs := rfl
@[simp] theorem State.restartBlock_resp : (s.restartBlock).resp = none := rfl
@[simp] theorem State.restartBlock_postCode : (s.restartBlock).postCode = s.postCode := rfl
@[simp] theorem State.restartBlock_released : (s.restartBlock).released = s.released := rfl
@[simp] theorem State.restartBlock_booting : (s.restartBlock).booting = true := rfl
@[simp] theorem State.restartBlock_inputs : (s.restartBlock).inputs = s.inputs := rfl
@[simp] theorem State.restartBlock_bsAnswers : (s.restartBlock).bsAnswers = s.bsAnswers := rfl
@[simp] theorem State.restartBlock_bsLog : (s.restartBlock).bsLog = s.bsLog := rfl
@[simp] theorem State.restartBlock_conAnswers : (s.restartBlock).conAnswers = s.conAnswers := rfl
@[simp] theorem State.restartBlock_unsettled : (s.restartBlock).unsettled = s.unsettled := rfl
@[simp] theorem State.restartBlock_draws : (s.restartBlock).draws = s.draws := rfl

/-! ### powerOn -/

@[simp] theorem State.powerOn_cfg (ok : Bool) : (s.powerOn ok).cfg = s.cfg := rfl
@[simp] theorem State.powerOn_slots (ok : Bool) : (s.powerOn ok).slots = List.replicate s.cfg.numLines (Slot.empty s.cfg.lineSize) := rfl
@[simp] theorem State.powerOn_lru (ok : Bool) : (s.powerOn ok).lru = List.range s.cfg.numLines := rfl
@[simp] theorem State.powerOn_accesses (ok : Bool) : (s.powerOn ok).accesses = 0#64 := rfl
@[simp] theorem State.powerOn_hits (ok : Bool) : (s.powerOn ok).hits = 0#64 := rfl
@[simp] theorem State.powerOn_pendValid (ok : Bool) : (s.powerOn ok).pendValid = false := rfl
@[simp] theorem State.powerOn_pendByte (ok : Bool) : (s.powerOn ok).pendByte = 0#8 := rfl
@[simp] theorem State.powerOn_ioFaultLatch (ok : Bool) : (s.powerOn ok).ioFaultLatch = false := rfl
@[simp] theorem State.powerOn_halted (ok : Bool) : (s.powerOn ok).halted = !ok := rfl
@[simp] theorem State.powerOn_conOut (ok : Bool) : (s.powerOn ok).conOut = [] := rfl
@[simp] theorem State.powerOn_errLog (ok : Bool) : (s.powerOn ok).errLog = [] := rfl
@[simp] theorem State.powerOn_bs (ok : Bool) : (s.powerOn ok).bs = s.bs := rfl
@[simp] theorem State.powerOn_resp (ok : Bool) : (s.powerOn ok).resp = none := rfl
@[simp] theorem State.powerOn_postCode (ok : Bool) : (s.powerOn ok).postCode = none := rfl
@[simp] theorem State.powerOn_released (ok : Bool) : (s.powerOn ok).released = false := rfl
@[simp] theorem State.powerOn_booting (ok : Bool) : (s.powerOn ok).booting = true := rfl
@[simp] theorem State.powerOn_inputs (ok : Bool) : (s.powerOn ok).inputs = s.inputs := rfl
@[simp] theorem State.powerOn_bsAnswers (ok : Bool) : (s.powerOn ok).bsAnswers = s.bsAnswers := rfl
@[simp] theorem State.powerOn_bsLog (ok : Bool) : (s.powerOn ok).bsLog = s.bsLog := rfl
@[simp] theorem State.powerOn_conAnswers (ok : Bool) : (s.powerOn ok).conAnswers = s.conAnswers := rfl
@[simp] theorem State.powerOn_unsettled (ok : Bool) : (s.powerOn ok).unsettled = s.unsettled := rfl
@[simp] theorem State.powerOn_draws (ok : Bool) : (s.powerOn ok).draws = s.draws := rfl

/-! ### raise and deliverInput, by cases -/

@[simp] theorem State.raise_cfg (k : FaultKind) (info : Word) : (s.raise k info).cfg = s.cfg := by
  cases k <;> rfl
@[simp] theorem State.raise_slots (k : FaultKind) (info : Word) : (s.raise k info).slots = s.slots := by
  cases k <;> rfl
@[simp] theorem State.raise_lru (k : FaultKind) (info : Word) : (s.raise k info).lru = s.lru := by
  cases k <;> rfl
@[simp] theorem State.raise_accesses (k : FaultKind) (info : Word) : (s.raise k info).accesses = s.accesses := by
  cases k <;> rfl
@[simp] theorem State.raise_hits (k : FaultKind) (info : Word) : (s.raise k info).hits = s.hits := by
  cases k <;> rfl
@[simp] theorem State.raise_pendValid (k : FaultKind) (info : Word) : (s.raise k info).pendValid = s.pendValid := by
  cases k <;> rfl
@[simp] theorem State.raise_pendByte (k : FaultKind) (info : Word) : (s.raise k info).pendByte = s.pendByte := by
  cases k <;> rfl
@[simp] theorem State.raise_halted (k : FaultKind) (info : Word) : (s.raise k info).halted = s.halted := by
  cases k <;> rfl
@[simp] theorem State.raise_conOut (k : FaultKind) (info : Word) : (s.raise k info).conOut = s.conOut := by
  cases k <;> rfl
@[simp] theorem State.raise_bs (k : FaultKind) (info : Word) : (s.raise k info).bs = s.bs := by
  cases k <;> rfl
@[simp] theorem State.raise_postCode (k : FaultKind) (info : Word) : (s.raise k info).postCode = s.postCode := by
  cases k <;> rfl
@[simp] theorem State.raise_released (k : FaultKind) (info : Word) : (s.raise k info).released = s.released := by
  cases k <;> rfl
@[simp] theorem State.raise_booting (k : FaultKind) (info : Word) : (s.raise k info).booting = s.booting := by
  cases k <;> rfl
@[simp] theorem State.raise_inputs (k : FaultKind) (info : Word) : (s.raise k info).inputs = s.inputs := by
  cases k <;> rfl
@[simp] theorem State.raise_bsAnswers (k : FaultKind) (info : Word) : (s.raise k info).bsAnswers = s.bsAnswers := by
  cases k <;> rfl
@[simp] theorem State.raise_bsLog (k : FaultKind) (info : Word) : (s.raise k info).bsLog = s.bsLog := by
  cases k <;> rfl
@[simp] theorem State.raise_conAnswers (k : FaultKind) (info : Word) : (s.raise k info).conAnswers = s.conAnswers := by
  cases k <;> rfl
@[simp] theorem State.raise_unsettled (k : FaultKind) (info : Word) : (s.raise k info).unsettled = s.unsettled := by
  cases k <;> rfl
@[simp] theorem State.raise_draws (k : FaultKind) (info : Word) : (s.raise k info).draws = s.draws := by
  cases k <;> rfl
@[simp] theorem State.raise_errLog (k : FaultKind) (info : Word) :
    (s.raise k info).errLog = s.errLog ++ [⟨k, info⟩] := by
  cases k <;> rfl
@[simp] theorem State.raise_resp (k : FaultKind) (info : Word) :
    (s.raise k info).resp = some ⟨0#32, some k, none⟩ := by
  cases k <;> rfl
@[simp] theorem State.raise_ioFaultLatch (k : FaultKind) (info : Word) :
    (s.raise k info).ioFaultLatch = (s.ioFaultLatch || decide (k = .io)) := by
  cases k <;> simp [State.raise]

@[simp] theorem State.deliverInput_cfg (b : Byte) : (s.deliverInput b).cfg = s.cfg := by
  unfold State.deliverInput; split <;> rfl
@[simp] theorem State.deliverInput_slots (b : Byte) : (s.deliverInput b).slots = s.slots := by
  unfold State.deliverInput; split <;> rfl
@[simp] theorem State.deliverInput_lru (b : Byte) : (s.deliverInput b).lru = s.lru := by
  unfold State.deliverInput; split <;> rfl
@[simp] theorem State.deliverInput_accesses (b : Byte) : (s.deliverInput b).accesses = s.accesses := by
  unfold State.deliverInput; split <;> rfl
@[simp] theorem State.deliverInput_hits (b : Byte) : (s.deliverInput b).hits = s.hits := by
  unfold State.deliverInput; split <;> rfl
@[simp] theorem State.deliverInput_ioFaultLatch (b : Byte) : (s.deliverInput b).ioFaultLatch = s.ioFaultLatch := by
  unfold State.deliverInput; split <;> rfl
@[simp] theorem State.deliverInput_halted (b : Byte) : (s.deliverInput b).halted = s.halted := by
  unfold State.deliverInput; split <;> rfl
@[simp] theorem State.deliverInput_conOut (b : Byte) : (s.deliverInput b).conOut = s.conOut := by
  unfold State.deliverInput; split <;> rfl
@[simp] theorem State.deliverInput_errLog (b : Byte) : (s.deliverInput b).errLog = s.errLog := by
  unfold State.deliverInput; split <;> rfl
@[simp] theorem State.deliverInput_bs (b : Byte) : (s.deliverInput b).bs = s.bs := by
  unfold State.deliverInput; split <;> rfl
@[simp] theorem State.deliverInput_resp (b : Byte) : (s.deliverInput b).resp = s.resp := by
  unfold State.deliverInput; split <;> rfl
@[simp] theorem State.deliverInput_postCode (b : Byte) : (s.deliverInput b).postCode = s.postCode := by
  unfold State.deliverInput; split <;> rfl
@[simp] theorem State.deliverInput_released (b : Byte) : (s.deliverInput b).released = s.released := by
  unfold State.deliverInput; split <;> rfl
@[simp] theorem State.deliverInput_booting (b : Byte) : (s.deliverInput b).booting = s.booting := by
  unfold State.deliverInput; split <;> rfl
@[simp] theorem State.deliverInput_inputs (b : Byte) : (s.deliverInput b).inputs = s.inputs := by
  unfold State.deliverInput; split <;> rfl
@[simp] theorem State.deliverInput_bsAnswers (b : Byte) : (s.deliverInput b).bsAnswers = s.bsAnswers := by
  unfold State.deliverInput; split <;> rfl
@[simp] theorem State.deliverInput_bsLog (b : Byte) : (s.deliverInput b).bsLog = s.bsLog := by
  unfold State.deliverInput; split <;> rfl
@[simp] theorem State.deliverInput_conAnswers (b : Byte) : (s.deliverInput b).conAnswers = s.conAnswers := by
  unfold State.deliverInput; split <;> rfl
@[simp] theorem State.deliverInput_unsettled (b : Byte) : (s.deliverInput b).unsettled = s.unsettled := by
  unfold State.deliverInput; split <;> rfl
@[simp] theorem State.deliverInput_draws (b : Byte) : (s.deliverInput b).draws = s.draws := by
  unfold State.deliverInput; split <;> rfl
@[simp] theorem State.deliverInput_pendValid (b : Byte) : (s.deliverInput b).pendValid = true := by
  unfold State.deliverInput; split <;> simp_all
@[simp] theorem State.deliverInput_pendByte (b : Byte) :
    (s.deliverInput b).pendByte = if s.pendValid then s.pendByte else b := by
  unfold State.deliverInput; split <;> rfl

end Sys2Proof.Machine
end

