-- ==== Sys2Proof/Laws/Txn.lean ====
section
/-! SUPPORT. How a transaction can end: `Txn.Spec r Q E` says that `Q` holds where it goes on and `E` where it stops.
One rule for `andThen` and one lemma for each backing-store transaction. -/

namespace Sys2Proof.Machine

open Sys2Proof

/-- `Q` holds of the value and state where the transaction goes on, `E` of the reason and state where it stops. -/
def Txn.Spec {α : Type} (r : Txn α) (Q : α → State → Prop) (E : Stop → State → Prop) : Prop :=
  match r with
  | .done a s => Q a s
  | .stop why s => E why s

@[simp] theorem Txn.spec_done {α : Type} (a : α) (s : State) (Q : α → State → Prop) (E : Stop → State → Prop) :
    (Txn.done a s).Spec Q E ↔ Q a s := Iff.rfl

@[simp] theorem Txn.spec_stop {α : Type} (why : Stop) (s : State) (Q : α → State → Prop) (E : Stop → State → Prop) :
    (Txn.stop why s : Txn α).Spec Q E ↔ E why s := Iff.rfl

theorem Txn.Spec.andThen {α β : Type} {r : Txn α} {f : α → State → Txn β} {P : α → State → Prop}
    {Q : β → State → Prop} {E : Stop → State → Prop} (h : r.Spec P E) (hf : ∀ a s, P a s → (f a s).Spec Q E) :
    (r.andThen f).Spec Q E := by
  cases r with
  | done a s => exact hf a s h
  | stop why s => exact h

theorem Txn.Spec.mono {α : Type} {r : Txn α} {P Q : α → State → Prop} {E F : Stop → State → Prop} (h : r.Spec P E)
    (hQ : ∀ a s, P a s → Q a s) (hE : ∀ w s, E w s → F w s) : r.Spec Q F := by
  cases r with
  | done a s => exact hQ a s h
  | stop why s => exact hE why s h

theorem Txn.Spec.and {α : Type} {r : Txn α} {P Q : α → State → Prop} {E F : Stop → State → Prop} (h : r.Spec P E)
    (h' : r.Spec Q F) : r.Spec (fun a s => P a s ∧ Q a s) (fun w s => E w s ∧ F w s) := by
  cases r with
  | done a s => exact ⟨h, h'⟩
  | stop why s => exact ⟨h, h'⟩

@[simp] theorem Txn.andThen_done {α β : Type} (a : α) (s : State) (f : α → State → Txn β) :
    (Txn.done a s).andThen f = f a s := rfl

@[simp] theorem Txn.andThen_stop {α β : Type} (w : Stop) (s : State) (f : α → State → Txn β) :
    (Txn.stop w s : Txn α).andThen f = .stop w s := rfl

/-- The state of the image after a backing-store write (R64). -/
def writtenBs (tag : Nat) (data : List Byte) (s : State) : Memory :=
  s.bs.writeBytes tag (if s.nextAnswer.ok then data else s.nextAnswer.left.take s.cfg.lineSize)

/-- All a wait for the host can do. -/
theorem waited_spec {α : Type} {c : Option Cut} {f : Fault} {x : α} {s : State} {Q : α → State → Prop}
    {E : Stop → State → Prop} (hdone : c = none → Q x s) (hcut : ∀ k, c = some k → E (k.stop f) s) :
    (waited c f x s).Spec Q E := by
  cases c with
  | none => exact hdone rfl
  | some k => exact hcut k rfl

@[simp] theorem waited_none {α : Type} (f : Fault) (x : α) (s : State) : waited none f x s = .done x s := rfl

/-- A BSRead under any property of the state it leaves (R63, R64, R206). -/
theorem bsRead_spec {tag : Nat} {s : State} {Q : Option (List Byte) → State → Prop} {E : Stop → State → Prop}
    (hok : s.nextAnswer.cut = none → s.nextAnswer.ok = true →
      Q (some (s.bs.readBytes tag s.cfg.lineSize)) (s.logEvent (.read tag true)))
    (hfail : s.nextAnswer.cut = none → s.nextAnswer.ok = false → Q none (s.logEvent (.read tag false)))
    (hcut : ∀ c, s.nextAnswer.cut = some c →
      E (c.stop .backingStoreNeverAnswers) (s.logEvent (.read tag s.nextAnswer.ok))) :
    (bsRead tag s).Spec Q E :=
  waited_spec
    (fun hc => by
      by_cases h : s.nextAnswer.ok = true
      · simp only [h, if_true]; exact hok hc h
      · rw [Bool.not_eq_true] at h
        simp only [h]; exact hfail hc h)
    hcut

/-- A BSWrite under any property of the state it leaves (R63, R64, R206). -/
theorem bsWrite_spec {tag : Nat} {data : List Byte} {s : State} {Q : Bool → State → Prop} {E : Stop → State → Prop}
    (hdone : s.nextAnswer.cut = none →
      Q s.nextAnswer.ok ((s.logEvent (.write tag data s.nextAnswer.ok)).setBs (writtenBs tag data s)))
    (hcut : ∀ c, s.nextAnswer.cut = some c → E (c.stop .backingStoreNeverAnswers)
      ((s.logEvent (.write tag data s.nextAnswer.ok)).setBs (writtenBs tag data s))) :
    (bsWrite tag data s).Spec Q E := waited_spec hdone hcut

/-! ### Premises on the host, as the answers are used up -/

/-- The draws to come are the last of those found: the transaction used up some from the head. -/
structure DrawsLeft (s t : State) : Prop where
  answers : t.bsAnswers <:+ s.bsAnswers
  console : t.conAnswers <:+ s.conAnswers

theorem DrawsLeft.of_eq {s t : State} (ha : t.bsAnswers = s.bsAnswers) (hc : t.conAnswers = s.conAnswers) :
    DrawsLeft s t := ⟨ha ▸ List.suffix_refl _, hc ▸ List.suffix_refl _⟩

theorem DrawsLeft.trans {s t u : State} (h : DrawsLeft s t) (h' : DrawsLeft t u) : DrawsLeft s u :=
  ⟨h'.answers.trans h.answers, h'.console.trans h.console⟩

theorem DrawsLeft.logEvent (s : State) (e : BsEvent) : DrawsLeft s (s.logEvent e) :=
  ⟨List.tail_suffix _, List.suffix_refl _⟩

theorem DrawsLeft.uncut {s t : State} (h : DrawsLeft s t) (hs : s.uncut) : t.uncut :=
  ⟨fun a ha => hs.answers a (h.answers.subset ha), fun a ha => hs.console a (h.console.subset ha)⟩

theorem DrawsLeft.quiet {s t : State} (h : DrawsLeft s t) (hs : s.quiet) : t.quiet :=
  ⟨h.uncut hs.touncut, fun a ha => hs.oks a (h.answers.subset ha)⟩

theorem DrawsLeft.dutiful {s t : State} (h : DrawsLeft s t) (hs : s.dutiful) : t.dutiful :=
  ⟨fun a ha => hs.answers a (h.answers.subset ha), fun a ha => hs.console a (h.console.subset ha)⟩

theorem State.uncut.dutiful {s : State} (h : s.uncut) : s.dutiful :=
  ⟨fun a ha => by simp [h.answers a ha], fun a ha => by simp [h.console a ha]⟩

/-- What holds of every answer to come, and of OK, holds of the next one. -/
theorem State.nextAnswer_of {s : State} {P : BsAnswer → Prop} (h : ∀ a ∈ s.bsAnswers, P a) (hg : P BsAnswer.good) :
    P s.nextAnswer := by
  unfold State.nextAnswer
  cases hb : s.bsAnswers with
  | nil => exact hg
  | cons a l => exact h a (by simp [hb])

theorem State.uncut.nextAnswer {s : State} (h : s.uncut) : s.nextAnswer.cut = none :=
  State.nextAnswer_of h.answers rfl

theorem State.quiet.nextAnswer {s : State} (h : s.quiet) : s.nextAnswer.ok = true ∧ s.nextAnswer.cut = none :=
  ⟨State.nextAnswer_of h.oks rfl, h.touncut.nextAnswer⟩

theorem State.dutiful.nextAnswer {s : State} (h : s.dutiful) : s.nextAnswer.cut ≠ some .never :=
  State.nextAnswer_of (P := fun a => a.cut ≠ some .never) h.answers (by simp [BsAnswer.good])

/-- What a cache operation never changes while it runs: everything beside the cache, the image and the backing-store
port, the error stream and the response included (they change when the transaction ends). -/
structure Inner (s t : State) : Prop where
  rest   : KeepsRest s t
  errors : KeepsErrors s t
  resp   : t.resp = s.resp

theorem KeepsRest.refl (s : State) : KeepsRest s s := by constructor <;> rfl

theorem KeepsRest.trans {s t u : State} (h : KeepsRest s t) (h' : KeepsRest t u) : KeepsRest s u := by
  constructor
  · rw [h'.cfg, h.cfg]
  · rw [h'.pendValid, h.pendValid]
  · rw [h'.pendByte, h.pendByte]
  · rw [h'.halted, h.halted]
  · rw [h'.conOut, h.conOut]
  · rw [h'.conDraws, h.conDraws]
  · rw [h'.postCode, h.postCode]
  · rw [h'.released, h.released]
  · rw [h'.booting, h.booting]
  · rw [h'.inputs, h.inputs]
  · rw [h'.unsettled, h.unsettled]
  · rw [h'.draws, h.draws]

theorem Inner.refl (s : State) : Inner s s := ⟨.refl s, ⟨rfl, rfl⟩, rfl⟩

theorem Inner.trans {s t u : State} (h : Inner s t) (h' : Inner t u) : Inner s u :=
  ⟨h.rest.trans h'.rest, ⟨by rw [h'.errors.latch, h.errors.latch], by rw [h'.errors.errLog, h.errors.errLog]⟩,
    by rw [h'.resp, h.resp]⟩

theorem Inner.cfg {s t : State} (h : Inner s t) : t.cfg = s.cfg := h.rest.cfg

theorem Inner.setSlot (s : State) (i : Nat) (x : Slot) : Inner s (s.setSlot i x) :=
  ⟨by constructor <;> rfl, ⟨rfl, rfl⟩, rfl⟩

theorem Inner.touch (s : State) (i : Nat) : Inner s (s.touch i) := ⟨by constructor <;> rfl, ⟨rfl, rfl⟩, rfl⟩

theorem Inner.countAccess (s : State) : Inner s s.countAccess := ⟨by constructor <;> rfl, ⟨rfl, rfl⟩, rfl⟩

theorem Inner.countHit (s : State) : Inner s s.countHit := ⟨by constructor <;> rfl, ⟨rfl, rfl⟩, rfl⟩

theorem Inner.logEvent (s : State) (e : BsEvent) : Inner s (s.logEvent e) :=
  ⟨by constructor <;> rfl, ⟨rfl, rfl⟩, rfl⟩

theorem Inner.setBs (s : State) (m : Memory) : Inner s (s.setBs m) := ⟨by constructor <;> rfl, ⟨rfl, rfl⟩, rfl⟩

end Sys2Proof.Machine
end

