-- ==== Sys2Proof/Laws/Cache.lean ====
section
/-! SUPPORT. The laws of the cache controller: slots and lookups, the invariant `Inv` kept by every cache operation,
and coherence with the image and the RAM view kept by line resolution (spec/10_state.md R26, spec/20_memory.md R50). -/

namespace Sys2Proof.Machine

open Sys2Proof

variable {s t : State}

/-! ### Slots -/

theorem State.slot_mem {i : Nat} (h : i < s.slots.length) : s.slot i ∈ s.slots := by
  simp [State.slot, List.getD_eq_getElem?_getD, h]

theorem State.slot_of_mem {x : Slot} (h : x ∈ s.slots) : ∃ i, i < s.slots.length ∧ s.slot i = x := by
  obtain ⟨i, hi, rfl⟩ := List.getElem_of_mem h
  exact ⟨i, hi, by simp [State.slot, List.getD_eq_getElem?_getD, hi]⟩

/-- Past the last slot there is only an invalid one. -/
theorem State.slot_out {i : Nat} (h : s.slots.length ≤ i) : s.slot i = Slot.empty s.cfg.lineSize := by
  simp [State.slot, List.getD_eq_getElem?_getD, h]

theorem State.lt_of_valid {i : Nat} (h : (s.slot i).valid = true) : i < s.slots.length := by
  by_contra hi
  rw [State.slot_out (by omega)] at h
  simp [Slot.empty] at h

theorem State.slot_setSlot_same {i : Nat} (h : i < s.slots.length) (x : Slot) : (s.setSlot i x).slot i = x := by
  simp [State.slot, List.getD_eq_getElem?_getD, h]

theorem State.slot_setSlot_other {i j : Nat} (h : j ≠ i) (x : Slot) : (s.setSlot i x).slot j = s.slot j := by
  simp [State.slot, List.getD_eq_getElem?_getD, Ne.symm h]

theorem State.slot_congr (h : t.slots = s.slots) (hc : t.cfg = s.cfg) (i : Nat) : t.slot i = s.slot i := by
  simp [State.slot, h, hc]

theorem State.mem_setSlot {i : Nat} {x y : Slot} (h : y ∈ (s.setSlot i x).slots) : y = x ∨ y ∈ s.slots := by
  rw [State.setSlot_slots] at h
  exact (List.mem_or_eq_of_mem_set h).symm

/-- A slot other than the one set is still there. -/
theorem State.slot_setSlot (s : State) (i : Nat) (x : Slot) (j : Nat) :
    (s.setSlot i x).slot j = if j = i ∧ i < s.slots.length then x else s.slot j := by
  by_cases h : j = i
  · subst h
    by_cases hj : j < s.slots.length
    · rw [if_pos ⟨rfl, hj⟩, State.slot_setSlot_same hj]
    · rw [if_neg (by omega), State.slot_out (by simpa using hj), State.slot_out (by omega)]
      rfl
  · rw [if_neg (by tauto), State.slot_setSlot_other h]

/-! ### Lookups -/

theorem State.lookup_some {tag i : Nat} (h : s.lookup tag = some i) :
    i < s.slots.length ∧ (s.slot i).valid = true ∧ (s.slot i).tag.toNat = tag := by
  unfold State.lookup at h
  obtain ⟨hi, hp, -⟩ := List.findIdx?_eq_some_iff_getElem.1 h
  simp only [Bool.and_eq_true, beq_iff_eq] at hp
  refine ⟨hi, ?_, ?_⟩ <;> simp [State.slot, List.getD_eq_getElem?_getD, hi, hp]

theorem State.lookup_none {tag : Nat} (h : s.lookup tag = none) {x : Slot} (hx : x ∈ s.slots)
    (hv : x.valid = true) : x.tag.toNat ≠ tag := by
  unfold State.lookup at h
  have := List.findIdx?_eq_none_iff.1 h x hx
  simpa [hv] using this

theorem State.lookup_eq_none (h : ∀ x ∈ s.slots, x.valid = true → x.tag.toNat ≠ tag) : s.lookup tag = none := by
  unfold State.lookup
  refine List.findIdx?_eq_none_iff.2 fun x hx => ?_
  by_cases hv : x.valid = true
  · simp [hv, h x hx hv]
  · simp [hv]

/-- The one slot that holds a line is the one the lookup finds (I-tag). -/
theorem Inv.lookup_eq (h : Inv s) {i : Nat} (hv : (s.slot i).valid = true) :
    s.lookup (s.slot i).tag.toNat = some i := by
  cases hl : s.lookup (s.slot i).tag.toNat with
  | none => exact absurd rfl (State.lookup_none hl (State.slot_mem (State.lt_of_valid hv)) hv)
  | some j =>
    obtain ⟨hj, hjv, hjt⟩ := State.lookup_some hl
    have hi := State.lt_of_valid hv
    rw [h.slot_count] at hi hj
    rw [h.tag_unique j hj i hi hjv hv (BitVec.eq_of_toNat_eq hjt)]

theorem State.lookup_congr (h : t.slots = s.slots) (tag : Nat) : t.lookup tag = s.lookup tag := by
  simp [State.lookup, h]

/-! ### The RAM view (R50) -/

theorem State.view_congr (h : t.slots = s.slots) (hc : t.cfg = s.cfg) (hb : t.bs = s.bs) (o : Nat) :
    t.view o = s.view o := by
  simp only [State.view, State.lookup_congr h, State.slot_congr h hc, hc, hb]

@[simp] theorem State.view_setResp (s : State) (r : Option Response) (o : Nat) : (s.setResp r).view o = s.view o :=
  State.view_congr (t := s.setResp r) rfl rfl rfl o

@[simp] theorem State.view_raise (s : State) (k : FaultKind) (info : Word) (o : Nat) :
    (s.raise k info).view o = s.view o :=
  State.view_congr (t := s.raise k info) (by simp) (by simp) (by simp) o

/-- A resident offset reads from its slot. -/
theorem Inv.view_resident (h : Inv s) {i o : Nat} (hv : (s.slot i).valid = true)
    (ht : (s.slot i).tag.toNat = s.cfg.tagOf o) :
    s.view o = (s.slot i).data.getD (s.cfg.idxOf o) Memory.unlisted := by
  have := h.lookup_eq hv
  rw [ht] at this
  simp [State.view, this]

/-- An offset no slot holds reads from the image. -/
theorem State.view_absent {o : Nat} (h : ∀ x ∈ s.slots, x.valid = true → x.tag.toNat ≠ s.cfg.tagOf o) :
    s.view o = s.bs.read o := by
  simp [State.view, State.lookup_eq_none h]

/-! ### The invariant -/

theorem Inv.tag_slot (h : Inv s) {i : Nat} (hv : (s.slot i).valid = true) :
    (s.slot i).tag.toNat % s.cfg.lineSize = 0 ∧ (s.slot i).tag.toNat < s.cfg.ramSize :=
  h.tag_aligned _ (State.slot_mem (State.lt_of_valid hv)) hv

theorem Inv.data_length (h : Inv s) (i : Nat) : (s.slot i).data.length = s.cfg.lineSize := by
  by_cases hi : i < s.slots.length
  · exact h.line_length _ (State.slot_mem hi)
  · rw [State.slot_out (by omega)]
    simp [Slot.empty]

/-- Equal slots, order, image and parameters carry the invariant over. -/
theorem Inv.congr (h : Inv s) (hc : t.cfg = s.cfg) (hs : t.slots = s.slots) (hl : t.lru = s.lru)
    (hb : t.bs = s.bs) : Inv t where
  cfg_wf := hc ▸ h.cfg_wf
  slot_count := by rw [hs, hc, h.slot_count]
  line_length := by rw [hs, hc]; exact h.line_length
  tag_unique := by
    rw [hc]
    simp only [State.slot_congr hs hc]
    exact h.tag_unique
  tag_aligned := by rw [hs, hc]; exact h.tag_aligned
  dirty_valid := by rw [hs]; exact h.dirty_valid
  lru_perm := by rw [hl, hc]; exact h.lru_perm
  image_wf := hb ▸ h.image_wf
  image_bound := by rw [hb, hc]; exact h.image_bound

theorem Inv.countAccess (h : Inv s) : Inv s.countAccess := h.congr rfl rfl rfl rfl

theorem Inv.countHit (h : Inv s) : Inv s.countHit := h.congr rfl rfl rfl rfl

theorem Inv.logEvent (h : Inv s) (e : BsEvent) : Inv (s.logEvent e) := h.congr rfl rfl rfl rfl

theorem Inv.report (h : Inv s) (k : FaultKind) (info : Word) : Inv (s.report k info) := h.congr rfl rfl rfl rfl

theorem Inv.noteIoFault (h : Inv s) (tag : Word) : Inv (s.noteIoFault tag) := h.congr rfl rfl rfl rfl

theorem Inv.setResp (h : Inv s) (r : Option Response) : Inv (s.setResp r) := h.congr rfl rfl rfl rfl

theorem Inv.drawAccept (h : Inv s) : Inv s.drawAccept := h.congr rfl rfl rfl rfl

theorem Inv.output (h : Inv s) (b : Byte) : Inv (s.output b) := h.congr rfl rfl rfl rfl

theorem Inv.raise (h : Inv s) (k : FaultKind) (info : Word) : Inv (s.raise k info) :=
  h.congr (by simp) (by simp) (by simp) (by simp)

/-- Touching a slot keeps the recency order a permutation (I-lru). -/
theorem Inv.touch (h : Inv s) {i : Nat} (hi : i < s.cfg.numLines) : Inv (s.touch i) := by
  have hp : (i :: s.lru.filter (· != i)).Perm (List.range s.cfg.numLines) := by
    have hmem : i ∈ s.lru := h.lru_perm.mem_iff.2 (List.mem_range.2 hi)
    have hnd : s.lru.Nodup := h.lru_perm.nodup_iff.2 List.nodup_range
    have he : s.lru.filter (· != i) = s.lru.erase i := by
      rw [hnd.erase_eq_filter]
    rw [he]
    exact (List.perm_cons_erase hmem).symm.trans h.lru_perm
  exact { (h.congr rfl rfl rfl rfl : Inv { s.touch i with lru := s.lru }) with lru_perm := hp }

/-- Setting a slot keeps the invariant if the new slot has the shape R26 asks and its tag is its own. -/
theorem Inv.setSlot (h : Inv s) {i : Nat} {x : Slot} (hd : x.data.length = s.cfg.lineSize)
    (ha : x.valid = true → x.tag.toNat % s.cfg.lineSize = 0 ∧ x.tag.toNat < s.cfg.ramSize)
    (hv : x.dirty = true → x.valid = true)
    (hu : x.valid = true → ∀ j, j ≠ i → (s.slot j).valid = true → (s.slot j).tag ≠ x.tag) :
    Inv (s.setSlot i x) where
  cfg_wf := h.cfg_wf
  slot_count := by simp [h.slot_count]
  line_length y hy := by
    rcases State.mem_setSlot hy with rfl | hy
    · exact hd
    · exact h.line_length y hy
  tag_unique j hj k hk hjv hkv he := by
    rw [State.slot_setSlot] at hjv hkv he
    rw [State.slot_setSlot] at he
    by_cases hji : j = i ∧ i < s.slots.length <;> by_cases hki : k = i ∧ i < s.slots.length
    · omega
    · rw [if_pos hji] at hjv he
      rw [if_neg hki] at hkv he
      exact absurd he.symm (hu hjv k (by rintro rfl; exact hki ⟨rfl, hji.2⟩) hkv)
    · rw [if_neg hji] at hjv he
      rw [if_pos hki] at hkv he
      exact absurd he (hu hkv j (by rintro rfl; exact hji ⟨rfl, hki.2⟩) hjv)
    · rw [if_neg hji] at hjv he
      rw [if_neg hki] at hkv he
      exact h.tag_unique j hj k hk hjv hkv he
  tag_aligned y hy hyv := by
    rcases State.mem_setSlot hy with rfl | hy
    · exact ha hyv
    · exact h.tag_aligned y hy hyv
  dirty_valid y hy hyd := by
    rcases State.mem_setSlot hy with rfl | hy
    · exact hv hyd
    · exact h.dirty_valid y hy hyd
  lru_perm := h.lru_perm
  image_wf := h.image_wf
  image_bound := h.image_bound

/-- A slot may keep its line and change its dirty bit and bytes, or be invalidated. -/
theorem Inv.setSlot_same (h : Inv s) {i : Nat} {x : Slot} (ht : x.tag = (s.slot i).tag)
    (hx : x.valid = true → (s.slot i).valid = true) (hd : x.data.length = s.cfg.lineSize)
    (hv : x.dirty = true → x.valid = true) : Inv (s.setSlot i x) := by
  refine h.setSlot hd (fun hxv => ht ▸ h.tag_slot (hx hxv)) hv fun hxv j hj hjv he => hj ?_
  rw [ht] at he
  have h1 := State.lt_of_valid hjv
  have h2 := State.lt_of_valid (hx hxv)
  rw [h.slot_count] at h1 h2
  exact h.tag_unique j h1 i h2 hjv (hx hxv) he

/-- Bytes written inside RAM keep the image canonical and inside RAM. -/
theorem Inv.setBs_writeBytes (h : Inv s) {o : Nat} {bytes : List Byte} (hr : o + bytes.length ≤ s.cfg.ramSize) :
    Inv (s.setBs (s.bs.writeBytes o bytes)) :=
  { (h.congr rfl rfl rfl rfl : Inv { s.setBs (s.bs.writeBytes o bytes) with bs := s.bs }) with
    image_wf := Memory.writeBytes_wf h.image_wf o bytes
    image_bound := Memory.writeBytes_bound h.image_bound hr }

/-! ### One event on the backing-store port -/

/-- The bytes a BSWrite lands are at most a line. -/
theorem landed_length {data : List Byte} (hd : data.length = s.cfg.lineSize) :
    (if s.nextAnswer.ok then data else s.nextAnswer.left.take s.cfg.lineSize).length ≤ s.cfg.lineSize := by
  split
  · exact hd.le
  · simp

/-- A BSWrite of a line of RAM keeps the invariant. -/
theorem Inv.written (h : Inv s) {tag : Nat} {data : List Byte} (hd : data.length = s.cfg.lineSize)
    (ht : tag % s.cfg.lineSize = 0) (hr : tag < s.cfg.ramSize) (e : BsEvent) :
    Inv ((s.logEvent e).setBs (writtenBs tag data s)) := by
  have h1 := Config.line_in_ram h.cfg_wf ht hr
  have h2 := landed_length (s := s) hd
  exact (h.logEvent e).setBs_writeBytes (o := tag)
    (bytes := if s.nextAnswer.ok then data else s.nextAnswer.left.take s.cfg.lineSize) (by simp only [State.logEvent_cfg]; omega)

/-- A BSWrite of a line leaves every offset outside the line alone. -/
theorem writtenBs_outside (h : s.bs.wf = true) {tag : Nat} {data : List Byte} (hd : data.length = s.cfg.lineSize)
    {o : Nat} (ho : o < tag ∨ tag + s.cfg.lineSize ≤ o) : (writtenBs tag data s).read o = s.bs.read o := by
  have h2 := landed_length (s := s) hd
  exact Memory.read_writeBytes_outside h (by omega)

end Sys2Proof.Machine
end

