-- ==== Sys2Proof/Laws/Encoding.lean ====
section
/-! SUPPORT. The laws of the request key (spec/30_encoding.md R55): a key is its fields, each field of a built key
reads back, and a mask acts on each field. -/

namespace Sys2Proof

/-- A key with every field given, the rsv bits too. -/
def keyFields (cmd : BitVec 4) (size rsv : BitVec 2) (a : Word) : Key := cmd ++ size ++ rsv ++ a

theorem mkKey_eq (cmd : BitVec 4) (size : BitVec 2) (a : Word) : mkKey cmd size a = keyFields cmd size 0#2 a := rfl

/-- Every bit of a built key. -/
theorem getLsbD_keyFields (cmd : BitVec 4) (size rsv : BitVec 2) (a : Word) (i : Nat) :
    (keyFields cmd size rsv a).getLsbD i =
      if i < 32 then a.getLsbD i else if i < 34 then rsv.getLsbD (i - 32) else if i < 36 then size.getLsbD (i - 34)
      else cmd.getLsbD (i - 36) := by
  have h : (keyFields cmd size rsv a).getLsbD i = (cmd ++ size ++ rsv ++ a : BitVec (4 + 2 + 2 + 32)).getLsbD i := rfl
  rw [h]
  simp only [BitVec.getLsbD_append, Nat.sub_sub]
  repeat' split
  all_goals first
    | rfl
    | omega

@[simp] theorem keyCmd_keyFields (cmd : BitVec 4) (size rsv : BitVec 2) (a : Word) :
    keyCmd (keyFields cmd size rsv a) = cmd := by
  ext i hi
  rw [keyCmd, BitVec.getElem_extractLsb', getLsbD_keyFields, if_neg (by omega), if_neg (by omega), if_neg (by omega)]
  simp [hi]

@[simp] theorem keySize_keyFields (cmd : BitVec 4) (size rsv : BitVec 2) (a : Word) :
    keySize (keyFields cmd size rsv a) = size := by
  ext i hi
  rw [keySize, BitVec.getElem_extractLsb', getLsbD_keyFields, if_neg (by omega), if_neg (by omega), if_pos (by omega)]
  simp [hi]

@[simp] theorem keyAddr_keyFields (cmd : BitVec 4) (size rsv : BitVec 2) (a : Word) :
    keyAddr (keyFields cmd size rsv a) = a := by
  ext i hi
  rw [keyAddr, BitVec.getElem_extractLsb', getLsbD_keyFields, if_pos (by omega)]
  simp [hi]

@[simp] theorem keyCmd_mkKey (cmd : BitVec 4) (size : BitVec 2) (a : Word) : keyCmd (mkKey cmd size a) = cmd :=
  keyCmd_keyFields ..

@[simp] theorem keySize_mkKey (cmd : BitVec 4) (size : BitVec 2) (a : Word) : keySize (mkKey cmd size a) = size :=
  keySize_keyFields ..

@[simp] theorem keyAddr_mkKey (cmd : BitVec 4) (size : BitVec 2) (a : Word) : keyAddr (mkKey cmd size a) = a :=
  keyAddr_keyFields ..

/-- A key is its fields. -/
theorem keyFields_self (k : Key) : keyFields (keyCmd k) (keySize k) (k.extractLsb' 32 2) (keyAddr k) = k := by
  refine BitVec.eq_of_getLsbD_eq fun i hi => ?_
  rw [getLsbD_keyFields]
  simp only [keyCmd, keySize, keyAddr, BitVec.getLsbD_extractLsb']
  repeat' split
  · simp [*]
  all_goals
    rw [decide_eq_true (by omega), Bool.true_and]
    congr 1
    omega

/-- A mask acts on each field. -/
theorem keyFields_and (c d : BitVec 4) (s t u x : BitVec 2) (a b : Word) :
    keyFields c s u a &&& keyFields d t x b = keyFields (c &&& d) (s &&& t) (u &&& x) (a &&& b) := by
  change (c ++ s ++ u ++ a : BitVec (4 + 2 + 2 + 32)) &&& (d ++ t ++ x ++ b : BitVec (4 + 2 + 2 + 32)) =
    (c &&& d) ++ (s &&& t) ++ (u &&& x) ++ (a &&& b)
  simp only [BitVec.and_append]

theorem mkKey_and (c d : BitVec 4) (s t : BitVec 2) (a b : Word) :
    mkKey c s a &&& mkKey d t b = mkKey (c &&& d) (s &&& t) (a &&& b) := by
  rw [mkKey_eq, mkKey_eq, keyFields_and]
  rfl

/-- When a key under a mask is a given value: field by field. -/
theorem masked_eq_iff (k : Key) (d c : BitVec 4) (t s : BitVec 2) (b a : Word) :
    (k &&& mkKey d t b == mkKey c s a) = ((keyCmd k &&& d == c) && (keySize k &&& t == s) && (keyAddr k &&& b == a)) := by
  have hk : k &&& mkKey d t b = mkKey (keyCmd k &&& d) (keySize k &&& t) (keyAddr k &&& b) := by
    conv => lhs; rw [← keyFields_self k, mkKey_eq, keyFields_and, BitVec.and_zero]
    rfl
  rw [hk, Bool.eq_iff_iff, Bool.and_eq_true, Bool.and_eq_true, beq_iff_eq, beq_iff_eq, beq_iff_eq, beq_iff_eq]
  constructor
  · intro h
    have h1 := congrArg keyCmd h
    have h2 := congrArg keySize h
    have h3 := congrArg keyAddr h
    simp only [keyCmd_mkKey, keySize_mkKey, keyAddr_mkKey] at h1 h2 h3
    exact ⟨⟨h1, h2⟩, h3⟩
  · rintro ⟨⟨rfl, rfl⟩, rfl⟩
    rfl

@[simp] theorem Cmd.ofCode_code (cmd : Cmd) : Cmd.ofCode cmd.code = some cmd := by
  cases cmd <;> rfl

@[simp] theorem Width.ofCode_code (w : Width) : Width.ofCode w.code = some w := by
  cases w <;> rfl

theorem Cmd.code_of_ofCode {c : BitVec 4} {cmd : Cmd} (h : Cmd.ofCode c = some cmd) : c = cmd.code := by
  revert c cmd
  decide

theorem Width.code_of_ofCode {c : BitVec 2} {w : Width} (h : Width.ofCode c = some w) : c = w.code := by
  revert c w
  decide

end Sys2Proof
end

