-- ==== Sys2Proof/Laws/Resolve.lean ====
section
/-! SUPPORT. One specification lemma for each operation of the cache controller (spec/40_cache.md R81 to R88): what it
leaves unchanged while it runs (`Calm`), how it can stop (`StopOk`), and what holds where it goes on. Callers cite
these and unfold nothing. -/

namespace Sys2Proof.Machine

open Sys2Proof

/-- What every cache operation that writes no byte keeps while it runs: the invariant, everything beside the cache,
and, where the clean lines agree with the image, that agreement and the RAM view. It draws answers from the head and
adds line-aligned events in range to the trace (R63). -/
structure Calm (s t : State) : Prop where
  inv      : Inv t
  inner    : Inner s t
  coherent : Coherent s → Coherent t
  view     : Coherent s → ∀ o, t.view o = s.view o
  left     : DrawsLeft s t
  trace    : ∃ events, t.bsLog = s.bsLog ++ events ∧
    ∀ e ∈ events, e.wholeLine s.cfg

/-- How an operation may stop: by an IOFault at a line of RAM, by a power-on reset, or in an endless wait; never while
the draws are quiet, neither cut while they are uncut, and no endless wait while the host does its duties. -/
def StopOk (s : State) (w : Stop) : Prop :=
  ¬ s.quiet ∧
    match w with
    | .fault k info => k = .io ∧ info.toNat % s.cfg.lineSize = 0 ∧ info.toNat < s.cfg.ramSize
    | .powerOn _ => ¬ s.uncut
    | .stuck _ => ¬ s.dutiful

/-- The recency order and the statistics are untouched. -/
structure SameStats (s t : State) : Prop where
  lru      : t.lru = s.lru
  accesses : t.accesses = s.accesses
  hits     : t.hits = s.hits

theorem SameStats.trans {s t u : State} (h : SameStats s t) (h' : SameStats t u) : SameStats s u :=
  ⟨by rw [h'.lru, h.lru], by rw [h'.accesses, h.accesses], by rw [h'.hits, h.hits]⟩

theorem Calm.refl {s : State} (h : Inv s) : Calm s s :=
  ⟨h, .refl s, id, fun _ _ => rfl, .of_eq rfl rfl, ⟨[], by simp⟩⟩

theorem Calm.trans {s t u : State} (h : Calm s t) (h' : Calm t u) : Calm s u where
  inv := h'.inv
  inner := h.inner.trans h'.inner
  coherent hc := h'.coherent (h.coherent hc)
  view hc o := by rw [h'.view (h.coherent hc), h.view hc]
  left := h.left.trans h'.left
  trace := by
    obtain ⟨e1, h1, p1⟩ := h.trace
    obtain ⟨e2, h2, p2⟩ := h'.trace
    rw [h.inner.cfg] at p2
    refine ⟨e1 ++ e2, by rw [h2, h1, List.append_assoc], fun e he => ?_⟩
    rcases List.mem_append.1 he with he | he
    · exact p1 e he
    · exact p2 e he

theorem StopOk.of_left {s t : State} (h : DrawsLeft s t) (hc : t.cfg = s.cfg) {w : Stop} (hw : StopOk t w) :
    StopOk s w := by
  refine ⟨fun hq => hw.1 (h.quiet hq), ?_⟩
  have h2 := hw.2
  cases w with
  | fault k info =>
    simp only [hc] at h2
    exact h2
  | powerOn ok => exact fun hq => h2 (h.uncut hq)
  | stuck f => exact fun hq => h2 (h.dutiful hq)

theorem Calm.stopOk {s t : State} (h : Calm s t) {w : Stop} (hw : StopOk t w) : StopOk s w :=
  .of_left h.left h.inner.cfg hw

/-- A wait for the backing store that is cut short stops as an operation may. -/
theorem StopOk.cut {s : State} {c : Cut} (h : s.nextAnswer.cut = some c) (f : Fault) : StopOk s (c.stop f) := by
  refine ⟨fun hq => by simp [hq.nextAnswer.2] at h, ?_⟩
  cases c with
  | powerOn ok => exact fun hq => by simp [hq.nextAnswer] at h
  | never => exact fun hq => hq.nextAnswer h

/-- A stop that is a cut, not an IOFault. -/
def Stop.isCut : Stop → Prop
  | .fault _ _ => False
  | _ => True

theorem Cut.stop_isCut (c : Cut) (f : Fault) : (c.stop f).isCut := by cases c <;> trivial

variable {s t : State}

/-! ### Steps inside the cache -/

/-- A change of recency order and statistics. -/
theorem Calm.of_same (h : Inv s) (hl : t.lru.Perm (List.range s.cfg.numLines)) (hi : Inner s t)
    (hs : t.slots = s.slots) (hb : t.bs = s.bs) (ha : t.bsAnswers = s.bsAnswers) (he : t.bsLog = s.bsLog) :
    Calm s t where
  inv := { (h.congr hi.cfg hs rfl hb : Inv { t with lru := s.lru }) with lru_perm := hi.cfg ▸ hl }
  inner := hi
  coherent hc := by
    intro x hx
    rw [hs] at hx
    rw [hb, hi.cfg]
    exact hc x hx
  view _ o := State.view_congr hs hi.cfg hb o
  left := .of_eq ha hi.rest.conDraws
  trace := ⟨[], by simp [he]⟩

theorem Calm.countAccess (h : Inv s) : Calm s s.countAccess :=
  .of_same h h.lru_perm (.countAccess s) rfl rfl rfl rfl

theorem Calm.countHit (h : Inv s) : Calm s s.countHit := .of_same h h.lru_perm (.countHit s) rfl rfl rfl rfl

theorem Calm.touch (h : Inv s) {i : Nat} (hi : i < s.cfg.numLines) : Calm s (s.touch i) :=
  .of_same h (h.touch hi).lru_perm (.touch s i) rfl rfl rfl rfl

/-- A line read joins the trace and nothing else happens. -/
theorem Calm.readEvent (h : Inv s) {tag : Nat} (ok : Bool) (ht : tag % s.cfg.lineSize = 0)
    (hr : tag < s.cfg.ramSize) : Calm s (s.logEvent (.read tag ok)) where
  inv := h.logEvent _
  inner := .logEvent s _
  coherent hc := hc
  view _ o := State.view_congr rfl rfl rfl o
  left := .logEvent s _
  trace := ⟨[.read tag ok], rfl, by simpa [BsEvent.wholeLine, BsEvent.tag] using ⟨ht, hr⟩⟩

/-- Where no valid slot holds an offset's line, its byte is the image's; where one does, the image does not matter. -/
theorem view_written (h : Inv s) {i : Nat} (hv : (s.slot i).valid = true) (e : BsEvent) (o : Nat) :
    ((s.logEvent e).setBs (writtenBs (s.slot i).tag.toNat (s.slot i).data s)).view o = s.view o := by
  obtain ⟨ht, hr⟩ := h.tag_slot hv
  have h' := h.written (h.data_length i) ht hr e
  by_cases hres : ∃ j, (s.slot j).valid = true ∧ (s.slot j).tag.toNat = s.cfg.tagOf o
  · obtain ⟨j, hjv, hjt⟩ := hres
    rw [h.view_resident hjv hjt]
    exact h'.view_resident (i := j) hjv hjt
  · have habs : ∀ x ∈ s.slots, x.valid = true → x.tag.toNat ≠ s.cfg.tagOf o := by
      rintro x hx hxv hxt
      obtain ⟨j, -, rfl⟩ := State.slot_of_mem hx
      exact hres ⟨j, hxv, hxt⟩
    rw [State.view_absent habs]
    refine (State.view_absent (s := State.setBs _ (State.logEvent e s)) habs).trans ?_
    rw [State.setBs_bs]
    refine writtenBs_outside h.image_wf (h.data_length i) ?_
    by_contra hc
    exact hres ⟨i, hv, ((Config.tagOf_eq_iff ht).2 ⟨by omega, by omega⟩).symm⟩

/-- The write of a valid slot's line to the image, OK or FAIL: with the slot dirty afterwards nothing the core sees
changes; where the write was OK the slot may be clean. -/
theorem Calm.lineWritten (h : Inv s) {i : Nat} (hv : (s.slot i).valid = true) {ok : Bool} {d : Bool}
    (hok : s.nextAnswer.ok = ok) (hd : d = false → ok = true) :
    Calm s (((s.logEvent (.write (s.slot i).tag.toNat (s.slot i).data ok)).setBs
      (writtenBs (s.slot i).tag.toNat (s.slot i).data s)).setSlot i { s.slot i with dirty := d }) := by
  obtain ⟨ht, hr⟩ := h.tag_slot hv
  have hi := State.lt_of_valid hv
  have hw := h.written (h.data_length i) ht hr (.write (s.slot i).tag.toNat (s.slot i).data ok)
  have hinv : Inv (((s.logEvent (.write (s.slot i).tag.toNat (s.slot i).data ok)).setBs
      (writtenBs (s.slot i).tag.toNat (s.slot i).data s)).setSlot i { s.slot i with dirty := d }) :=
    hw.setSlot_same rfl (fun _ => hv) (h.data_length i) (fun _ => hv)
  refine ⟨hinv, (Inner.logEvent s _).trans ((Inner.setBs _ _).trans (Inner.setSlot _ _ _)), fun hc x hx hxv hxd => ?_,
    fun _ o => ?_, (DrawsLeft.logEvent s (.write (s.slot i).tag.toNat (s.slot i).data ok)).trans (.of_eq rfl rfl),
    ⟨[.write (s.slot i).tag.toNat (s.slot i).data ok], rfl, by
      simpa [BsEvent.wholeLine, BsEvent.tag] using ⟨ht, hr, h.data_length i⟩⟩⟩
  · obtain ⟨j, hj, rfl⟩ := State.slot_of_mem hx
    by_cases hji : j = i
    · subst hji
      rw [State.slot_setSlot_same (by simpa using hi)] at hxv hxd ⊢
      have hok' := hd hxd
      rw [hok'] at hok
      have hwb : writtenBs (s.slot j).tag.toNat (s.slot j).data s =
          s.bs.writeBytes (s.slot j).tag.toNat (s.slot j).data := by simp [writtenBs, hok]
      have := Memory.readBytes_writeBytes_same h.image_wf (s.slot j).tag.toNat (s.slot j).data
      rw [h.data_length j] at this
      simpa [hwb] using this.symm
    · rw [State.slot_setSlot_other hji] at hxv hxd ⊢
      have hxv' : (s.slot j).valid = true := hxv
      have hjlen := State.lt_of_valid hxv'
      have hcj := hc _ (State.slot_mem hjlen) hxv' hxd
      refine hcj.trans (Memory.readBytes_congr fun p h1 h2 => ?_)
      have hne : (s.slot j).tag.toNat ≠ (s.slot i).tag.toNat := fun he =>
        hji (h.tag_unique j (h.slot_count ▸ hjlen) i (h.slot_count ▸ hi) hxv' hv (BitVec.eq_of_toNat_eq he))
      have hdis := Config.lines_disjoint (h.tag_slot hxv').1 ht hne
      exact (writtenBs_outside h.image_wf (h.data_length i) (by omega)).symm
  · rw [← view_written h hv (.write (s.slot i).tag.toNat (s.slot i).data ok) o]
    by_cases hres : ∃ j, (s.slot j).valid = true ∧ (s.slot j).tag.toNat = s.cfg.tagOf o
    · obtain ⟨j, hjv, hjt⟩ := hres
      rw [hw.view_resident (i := j) hjv hjt]
      rw [hinv.view_resident (i := j)]
      · by_cases hji : j = i
        · subst hji
          rw [State.slot_setSlot_same (by simpa using hi)]
          rfl
        · rw [State.slot_setSlot_other hji]
          rfl
      · by_cases hji : j = i
        · subst hji
          rw [State.slot_setSlot_same (by simpa using hi)]
          exact hv
        · rw [State.slot_setSlot_other hji]
          exact hjv
      · by_cases hji : j = i
        · subst hji
          rw [State.slot_setSlot_same (by simpa using hi)]
          exact hjt
        · rw [State.slot_setSlot_other hji]
          exact hjt
    · rw [State.view_absent, State.view_absent]
      · rfl
      · rintro x hx hxv hxt
        obtain ⟨j, -, rfl⟩ := State.slot_of_mem hx
        exact hres ⟨j, hxv, hxt⟩
      · rintro x hx hxv hxt
        obtain ⟨j, -, rfl⟩ := State.slot_of_mem hx
        by_cases hji : j = i
        · subst hji
          rw [State.slot_setSlot_same (by simpa using hi)] at hxv hxt
          exact hres ⟨j, hv, hxt⟩
        · rw [State.slot_setSlot_other hji] at hxv hxt
          exact hres ⟨j, hxv, hxt⟩

/-- Setting a slot to itself changes nothing. -/
theorem State.setSlot_slot (s : State) (i : Nat) : s.setSlot i (s.slot i) = s := by
  unfold State.setSlot State.slot
  have : s.slots.set i (s.slots.getD i (Slot.empty s.cfg.lineSize)) = s.slots := by
    refine List.ext_getElem (by simp) fun j h1 h2 => ?_
    rw [List.getElem_set]
    split
    · next h => subst h; simp [List.getD_eq_getElem?_getD, h2]
    · rfl
  rw [this]

/-- Dropping a clean or invalid slot changes nothing the core sees (R83). -/
theorem Calm.invalidate (h : Inv s) {i : Nat} (hd : (s.slot i).dirty = false) :
    Calm s (s.setSlot i { s.slot i with valid := false }) := by
  have hinv : Inv (s.setSlot i { s.slot i with valid := false }) :=
    h.setSlot_same rfl (fun hf => by simp at hf) (h.data_length i) (fun hf => by simp [hd] at hf)
  refine ⟨hinv, .setSlot s i _, fun hc x hx hxv hxd => ?_, fun hc o => ?_, .of_eq rfl rfl, ⟨[], by simp⟩⟩
  · rcases State.mem_setSlot hx with rfl | hx
    · simp at hxv
    · exact hc x hx hxv hxd
  · by_cases hres : ∃ j, j ≠ i ∧ (s.slot j).valid = true ∧ (s.slot j).tag.toNat = s.cfg.tagOf o
    · obtain ⟨j, hji, hjv, hjt⟩ := hres
      rw [h.view_resident hjv hjt, hinv.view_resident (i := j)]
      · rw [State.slot_setSlot_other hji]; rfl
      · rw [State.slot_setSlot_other hji]; exact hjv
      · rw [State.slot_setSlot_other hji]; exact hjt
    · have habs : ∀ x ∈ (s.setSlot i { s.slot i with valid := false }).slots, x.valid = true →
          x.tag.toNat ≠ (s.setSlot i { s.slot i with valid := false }).cfg.tagOf o := by
        rintro x hx hxv hxt
        obtain ⟨j, hj, rfl⟩ := State.slot_of_mem hx
        rw [State.slot_setSlot] at hxv hxt
        split at hxv
        · simp at hxv
        · next hne =>
          rw [if_neg hne] at hxt
          refine hres ⟨j, ?_, hxv, hxt⟩
          rintro rfl
          exact hne ⟨rfl, State.lt_of_valid hxv⟩
      rw [State.view_absent habs]
      by_cases hi : (s.slot i).valid = true ∧ (s.slot i).tag.toNat = s.cfg.tagOf o
      · rw [h.view_resident hi.1 hi.2, hc _ (State.slot_mem (State.lt_of_valid hi.1)) hi.1 hd,
          Memory.getD_readBytes _ _ (s.cfg.idxOf_lt o), hi.2, Config.tagOf_add_idxOf]
        rfl
      · rw [State.view_absent]
        · rfl
        · rintro x hx hxv hxt
          obtain ⟨j, hj, rfl⟩ := State.slot_of_mem hx
          by_cases hji : j = i
          · subst hji; exact hi ⟨hxv, hxt⟩
          · exact hres ⟨j, hji, hxv, hxt⟩

/-- Putting the image's line into an invalid slot changes nothing the core sees (R84). -/
theorem Calm.filled (h : Inv s) {v tag : Nat} (hv : v < s.cfg.numLines) (hinvalid : (s.slot v).valid = false)
    (ht : tag % s.cfg.lineSize = 0) (hr : tag < s.cfg.ramSize)
    (hn : ∀ j, (s.slot j).valid = true → (s.slot j).tag.toNat ≠ tag) :
    Calm s (s.setSlot v ⟨true, BitVec.ofNat 32 tag, false, s.bs.readBytes tag s.cfg.lineSize⟩) := by
  have htag : (BitVec.ofNat 32 tag).toNat = tag := by
    rw [BitVec.toNat_ofNat]
    exact Nat.mod_eq_of_lt (lt_of_lt_of_le hr (Config.ramSize_le h.cfg_wf))
  have hvl : v < s.slots.length := h.slot_count ▸ hv
  have hinv : Inv (s.setSlot v ⟨true, BitVec.ofNat 32 tag, false, s.bs.readBytes tag s.cfg.lineSize⟩) := by
    refine h.setSlot (by simp) (fun _ => by simpa [htag] using ⟨ht, hr⟩) (by simp) fun _ j _ hjv he => hn j hjv ?_
    rw [he, htag]
  refine ⟨hinv, .setSlot s v _, fun hc x hx hxv hxd => ?_, fun hc o => ?_, .of_eq rfl rfl, ⟨[], by simp⟩⟩
  · rcases State.mem_setSlot hx with rfl | hx
    · simp only [htag]; rfl
    · exact hc x hx hxv hxd
  · by_cases ho : s.cfg.tagOf o = tag
    · rw [hinv.view_resident (i := v)]
      · rw [State.slot_setSlot_same hvl]
        simp only [State.setSlot_cfg]
        rw [Memory.getD_readBytes _ _ (s.cfg.idxOf_lt o), ← ho, Config.tagOf_add_idxOf, State.view_absent]
        rintro x hx hxv hxt
        obtain ⟨j, -, rfl⟩ := State.slot_of_mem hx
        exact hn j hxv (hxt.trans ho)
      · rw [State.slot_setSlot_same hvl]
      · rw [State.slot_setSlot_same hvl, htag]; exact ho.symm
    · by_cases hres : ∃ j, (s.slot j).valid = true ∧ (s.slot j).tag.toNat = s.cfg.tagOf o
      · obtain ⟨j, hjv, hjt⟩ := hres
        have hjn : j ≠ v := by rintro rfl; simp [hinvalid] at hjv
        rw [h.view_resident hjv hjt, hinv.view_resident (i := j)]
        · rw [State.slot_setSlot_other hjn]; rfl
        · rw [State.slot_setSlot_other hjn]; exact hjv
        · rw [State.slot_setSlot_other hjn]; exact hjt
      · rw [State.view_absent, State.view_absent]
        · rfl
        · rintro x hx hxv hxt
          obtain ⟨j, -, rfl⟩ := State.slot_of_mem hx
          exact hres ⟨j, hxv, hxt⟩
        · rintro x hx hxv hxt
          obtain ⟨j, hj, rfl⟩ := State.slot_of_mem hx
          rw [State.slot_setSlot] at hxv hxt
          split at hxv
          · next hjv =>
            rw [if_pos hjv] at hxt
            exact ho (hxt.symm.trans htag)
          · next hjv =>
            rw [if_neg hjv] at hxt
            exact hres ⟨j, hxv, hxt⟩

/-! ### Write-back and fill (R83, R84) -/

/-- The last event on the port is `e`; it failed, and `info` names its line (R162). -/
structure FailedAt (t : State) (e : BsEvent) (info : Word) : Prop where
  last : t.bsLog.getLast? = some e
  fail : e.ok = false
  tag  : e.tag = info.toNat

theorem FailedAt.congr {u : State} {e : BsEvent} {info : Word} (h : FailedAt t e info) (hl : u.bsLog = t.bsLog) :
    FailedAt u e info := ⟨by rw [hl, h.last], h.fail, h.tag⟩

theorem FailedAt.write (tag : Word) (data : List Byte) (h : t.bsLog = s.bsLog ++ [.write tag.toNat data false]) :
    FailedAt t (.write tag.toNat data false) tag := ⟨by simp [h], rfl, rfl⟩

/-- A dirty line may be written to the image at any time. -/
theorem Calm.dirtyWritten (h : Inv s) {i : Nat} (hv : (s.slot i).valid = true) (hdirty : (s.slot i).dirty = true) :
    Calm s ((s.logEvent (.write (s.slot i).tag.toNat (s.slot i).data s.nextAnswer.ok)).setBs
      (writtenBs (s.slot i).tag.toNat (s.slot i).data s)) := by
  have h1 := Calm.lineWritten (d := true) h hv rfl (by simp)
  have h2 : ({ s.slot i with dirty := true } : Slot) = s.slot i := by rw [← hdirty]
  rw [h2] at h1
  have h3 := State.setSlot_slot ((s.logEvent (.write (s.slot i).tag.toNat (s.slot i).data s.nextAnswer.ok)).setBs
    (writtenBs (s.slot i).tag.toNat (s.slot i).data s)) i
  rw [← h3]
  exact h1

/-- What `writeBack` leaves where it goes on: the slot clean after true; after false, which only a FAIL gives, every
slot as it was and slot `i` valid and dirty. -/
structure WroteBack (s : State) (i : Nat) (ok : Bool) (t : State) : Prop where
  calm   : Calm s t
  stats  : SameStats s t
  others : ∀ j, j ≠ i → t.slot j = s.slot j
  clean  : ok = true → t.slot i = { s.slot i with dirty := false }
  failed : ok = false → t.slots = s.slots ∧ (s.slot i).valid = true ∧ (s.slot i).dirty = true ∧ ¬ s.quiet ∧
    t.bsLog = s.bsLog ++ [.write (s.slot i).tag.toNat (s.slot i).data false]

theorem writeBack_spec (h : Inv s) (i : Nat) :
    (writeBack i s).Spec (WroteBack s i) fun w t => Calm s t ∧ StopOk s w ∧ SameStats s t ∧ w.isCut := by
  unfold writeBack
  by_cases hvd : ((s.slot i).valid && (s.slot i).dirty) = true
  · obtain ⟨hv, hdirty⟩ := Bool.and_eq_true_iff.1 hvd
    simp only [hvd, if_true]
    have hi := State.lt_of_valid hv
    refine Txn.Spec.andThen (P := fun ok t => ok = s.nextAnswer.ok ∧
      t = (s.logEvent (.write (s.slot i).tag.toNat (s.slot i).data s.nextAnswer.ok)).setBs
        (writtenBs (s.slot i).tag.toNat (s.slot i).data s)) ?_ ?_
    · exact bsWrite_spec (fun _ => ⟨rfl, rfl⟩) fun c hcut =>
        ⟨Calm.dirtyWritten h hv hdirty, .cut hcut _, ⟨rfl, rfl, rfl⟩, c.stop_isCut _⟩
    · rintro ok t ⟨rfl, rfl⟩
      by_cases hok : s.nextAnswer.ok = true
      · simp only [hok, if_true, Txn.spec_done]
        refine ⟨Calm.lineWritten (d := false) h hv hok (by simp), ⟨rfl, rfl, rfl⟩,
          fun j hj => by rw [State.slot_setSlot_other hj]; rfl,
          fun _ => State.slot_setSlot_same (by simpa using hi) _, by simp⟩
      · rw [Bool.not_eq_true] at hok
        have hcalm := Calm.dirtyWritten h hv hdirty
        rw [hok] at hcalm
        simp only [hok, Bool.false_eq_true, if_false, Txn.spec_done]
        exact ⟨hcalm, ⟨rfl, rfl, rfl⟩, fun j _ => rfl, by simp,
          fun _ => ⟨rfl, hv, hdirty, fun hq => by simp [hq.nextAnswer.1] at hok, rfl⟩⟩
  · rw [Bool.not_eq_true] at hvd
    simp only [hvd, Bool.false_eq_true, if_false, Txn.spec_done]
    have hd : (s.slot i).dirty = false := by
      by_contra hc
      rw [Bool.not_eq_false] at hc
      by_cases hi : i < s.slots.length
      · have := h.dirty_valid _ (State.slot_mem hi) hc
        simp [this, hc] at hvd
      · rw [State.slot_out (by omega)] at hc
        simp [Slot.empty] at hc
    exact ⟨.refl h, ⟨rfl, rfl, rfl⟩, fun _ _ => rfl, fun _ => by rw [← hd], by simp⟩

/-- The victim is a slot (R85). -/
theorem Inv.victim_lt (h : Inv s) : s.victim < s.cfg.numLines := by
  unfold State.victim
  split
  · next i hi =>
    have := (List.findIdx?_eq_some_iff_getElem.1 hi).1
    rwa [h.slot_count] at this
  · have h1 : s.lru ≠ [] := by
      intro hn
      have := h.lru_perm.length_eq
      rw [hn, List.length_range] at this
      have := h.cfg_wf.2.2.2.2.1
      simp at *
      omega
    have h2 : s.lru.getLastD 0 ∈ s.lru := by
      rw [List.getLastD_eq_getLast?, List.getLast?_eq_some_getLast h1]
      exact List.getLast_mem h1
    exact List.mem_range.1 (h.lru_perm.mem_iff.1 h2)

/-- A stop that is an IOFault names the last event on the port, which failed; `P` holds of that event. -/
def Blames (w : Stop) (t : State) (P : BsEvent → Prop) : Prop :=
  ∀ k info, w = .fault k info → ∃ e, FailedAt t e info ∧ P e

theorem Stop.isCut.blames {w : Stop} (h : w.isCut) (t : State) (P : BsEvent → Prop) : Blames w t P := by
  rintro k info rfl
  exact h.elim

/-- The victim is released: invalid, every other slot as it was (R83). -/
structure Released (s : State) (v : Nat) (t : State) : Prop where
  calm    : Calm s t
  stats   : SameStats s t
  others  : ∀ j, j ≠ v → t.slot j = s.slot j
  invalid : (t.slot v).valid = false

theorem releaseVictim_spec (h : Inv s) (v : Nat) :
    (releaseVictim v s).Spec (fun _ t => Released s v t) fun w t => Calm s t ∧ StopOk s w ∧ SameStats s t ∧
      Blames w t fun e => (s.slot v).valid = true ∧ e.tag = (s.slot v).tag.toNat := by
  unfold releaseVictim
  refine Txn.Spec.andThen (P := WroteBack s v)
    ((writeBack_spec h v).mono (fun _ _ hw => hw) fun w t hw => ⟨hw.1, hw.2.1, hw.2.2.1, hw.2.2.2.blames _ _⟩) ?_
  intro ok t hw
  cases ok with
  | true =>
    simp only [if_true, Txn.spec_done]
    have hclean := hw.clean rfl
    have hd : (t.slot v).dirty = false := by rw [hclean]
    refine ⟨hw.calm.trans (Calm.invalidate hw.calm.inv hd), ⟨hw.stats.lru, hw.stats.accesses, hw.stats.hits⟩,
      fun j hj => by rw [State.slot_setSlot_other hj, hw.others j hj], ?_⟩
    rw [State.slot_setSlot]
    split
    · rfl
    · next hn =>
      rw [State.slot_out (by omega)]
      rfl
  | false =>
    obtain ⟨hs, hv, hdirty, hq, hl⟩ := hw.failed rfl
    simp only [Bool.false_eq_true, if_false, Txn.spec_stop]
    have hslot := State.slot_congr hs hw.calm.inner.cfg v
    obtain ⟨h1, h2⟩ := h.tag_slot hv
    refine ⟨hw.calm, ⟨hq, rfl, by rw [hslot]; exact h1, by rw [hslot]; exact h2⟩, hw.stats, fun k info he => ?_⟩
    injection he with _ he
    subst he
    rw [hslot]
    exact ⟨_, .write _ _ hl, hv, rfl⟩

/-- Line `tag` is in slot `i`. -/
structure Holds (t : State) (i tag : Nat) : Prop where
  lt    : i < t.cfg.numLines
  valid : (t.slot i).valid = true
  tag   : (t.slot i).tag.toNat = tag

theorem fill_spec (h : Inv s) {v tag : Nat} (hv : v < s.cfg.numLines) (hinvalid : (s.slot v).valid = false)
    (ht : tag % s.cfg.lineSize = 0) (hr : tag < s.cfg.ramSize)
    (hn : ∀ j, (s.slot j).valid = true → (s.slot j).tag.toNat ≠ tag) :
    (fill v tag s).Spec (fun i t => i = v ∧ Calm s t ∧ Holds t v tag ∧ t.accesses = s.accesses ∧ t.hits = s.hits)
      fun w t => Calm s t ∧ StopOk s w ∧ SameStats s t ∧ Blames w t fun e => e = .read tag false := by
  have htag : (BitVec.ofNat 32 tag).toNat = tag := by
    rw [BitVec.toNat_ofNat]
    exact Nat.mod_eq_of_lt (lt_of_lt_of_le hr (Config.ramSize_le h.cfg_wf))
  unfold fill
  refine Txn.Spec.andThen (P := fun d t => (d = none → ¬ s.quiet ∧ t = s.logEvent (.read tag false)) ∧
    ∀ line, d = some line → line = s.bs.readBytes tag s.cfg.lineSize ∧ t = s.logEvent (.read tag true)) ?_ ?_
  · exact bsRead_spec (fun _ _ => ⟨by simp, by rintro _ ⟨⟩; exact ⟨rfl, rfl⟩⟩)
      (fun _ hf => ⟨fun _ => ⟨fun hq => by simp [hq.nextAnswer.1] at hf, rfl⟩, by simp⟩)
      fun c hcut => ⟨Calm.readEvent h _ ht hr, .cut hcut _, ⟨rfl, rfl, rfl⟩, (c.stop_isCut _).blames _ _⟩
  · rintro d t ⟨hnone, hsome⟩
    cases d with
    | none =>
      obtain ⟨hq, rfl⟩ := hnone rfl
      refine ⟨Calm.readEvent h _ ht hr, ⟨hq, rfl, by rw [htag]; exact ht, by rw [htag]; exact hr⟩, ⟨rfl, rfl, rfl⟩,
        fun k info he => ⟨_, ⟨by simp, rfl, ?_⟩, rfl⟩⟩
      injection he with _ he
      rw [← he, htag]
      rfl
    | some line =>
      obtain ⟨rfl, rfl⟩ := hsome line rfl
      simp only [Txn.spec_done, true_and]
      have hfill := Calm.filled (h.logEvent (.read tag true)) hv hinvalid ht hr hn
      have hread := Calm.readEvent h true ht hr
      refine ⟨hread.trans (hfill.trans (Calm.touch hfill.inv hv)), ⟨hv, ?_, ?_⟩, rfl, rfl⟩
      · rw [State.slot_congr (State.touch_slots _ _) rfl, State.slot_setSlot_same (by simpa [h.slot_count] using hv)]
      · rw [State.slot_congr (State.touch_slots _ _) rfl, State.slot_setSlot_same (by simpa [h.slot_count] using hv)]
        exact htag

/-- All `Resolve` can do (R81 to R84). Where it goes on, the line is in the slot it answers with, one access is
counted, and a hit, which is exactly a resolution of a resident line, is counted too. Where it raises, the failed event
is the fill or the write-back of another line. -/
theorem resolve_spec (h : Inv s) {tag : Nat} (ht : tag % s.cfg.lineSize = 0) (hr : tag < s.cfg.ramSize) :
    (resolve tag s).Spec
      (fun i t => Calm s t ∧ Holds t i tag ∧ t.accesses = s.accesses + 1#64 ∧
        t.hits = s.hits + (if (s.lookup tag).isSome then 1#64 else 0#64))
      fun w t => Calm s t ∧ StopOk s w ∧ t.accesses = s.accesses + 1#64 ∧ t.hits = s.hits ∧
        Blames w t fun e => e.writes tag = false := by
  have hcount := Calm.countAccess h
  unfold resolve
  dsimp only
  rw [State.lookup_congr (State.countAccess_slots s)]
  cases hl : s.lookup tag with
  | some i =>
    obtain ⟨hi, hv, htag⟩ := State.lookup_some hl
    have hhit := Calm.countHit hcount.inv
    have hi' : i < s.cfg.numLines := h.slot_count ▸ hi
    exact ⟨hcount.trans (hhit.trans (Calm.touch hhit.inv hi')), ⟨hi', hv, htag⟩, rfl, rfl⟩
  | none =>
    have hn : ∀ j, (s.slot j).valid = true → (s.slot j).tag.toNat ≠ tag := fun j hv =>
      State.lookup_none hl (State.slot_mem (State.lt_of_valid hv)) hv
    refine Txn.Spec.andThen (P := fun _ t => Released s.countAccess s.countAccess.victim t) ?_ ?_
    · refine (releaseVictim_spec hcount.inv _).mono (fun _ _ hw => hw) fun w t hw =>
        ⟨hcount.trans hw.1, hcount.stopOk hw.2.1, hw.2.2.1.accesses, hw.2.2.1.hits, fun k info he => ?_⟩
      obtain ⟨e, h1, h2, h3⟩ := hw.2.2.2 k info he
      refine ⟨e, h1, ?_⟩
      have := hn _ h2
      cases e with
      | read _ _ => rfl
      | write t d ok => exact beq_eq_false_iff_ne.2 fun ht => this (Eq.trans (Eq.symm h3) ht)
    · intro _ t hrel
      have hcfg := hrel.calm.inner.cfg
      have hst := hcount.trans hrel.calm
      refine (fill_spec hrel.calm.inv ?_ hrel.invalid ?_ ?_ ?_).mono ?_ ?_
      · rw [hcfg]; exact hcount.inv.victim_lt
      · rw [hcfg]; exact ht
      · rw [hcfg]; exact hr
      · intro j hv
        by_cases hj : j = s.countAccess.victim
        · subst hj; simp [hrel.invalid] at hv
        · rw [hrel.others j hj] at hv ⊢
          exact hn j hv
      · rintro i u ⟨rfl, hcalm, hholds, ha, hh⟩
        exact ⟨hst.trans hcalm, hholds, by rw [ha, hrel.stats.accesses]; rfl, by
          rw [hh, hrel.stats.hits]; simp⟩
      · rintro w u ⟨hcalm, hstop, hstats, hb⟩
        refine ⟨hst.trans hcalm, hst.stopOk hstop, by rw [hstats.accesses, hrel.stats.accesses]; rfl, by
          rw [hstats.hits, hrel.stats.hits]; rfl, fun k info he => ?_⟩
        obtain ⟨e, h1, rfl⟩ := hb k info he
        exact ⟨_, h1, rfl⟩

end Sys2Proof.Machine
end

