-- ==== Sys2Proof/Laws/Ram.lean ====
section
/-! SUPPORT. MemRead and MemWrite (spec/40_cache.md R86 to R88) against the RAM view (spec/20_memory.md R50): what a
read answers, the bytes a write changes, and what is left when either stops part way (spec/60_exceptions.md R166). -/

namespace Sys2Proof.Machine

open Sys2Proof

variable {s t : State}

/-- At most `n` accesses were counted, and at most as many hits as accesses. -/
def Counted (s t : State) (n : Nat) : Prop :=
  ∃ m k, k ≤ m ∧ m ≤ n ∧ t.accesses = s.accesses + BitVec.ofNat 64 m ∧ t.hits = s.hits + BitVec.ofNat 64 k

theorem Counted.refl (s : State) : Counted s s 0 := ⟨0, 0, le_refl 0, le_refl 0, by simp, by simp⟩

theorem Counted.trans {s t u : State} {m n : Nat} (h : Counted s t m) (h' : Counted t u n) : Counted s u (m + n) := by
  obtain ⟨a, k, h1, h2, h3, h4⟩ := h
  obtain ⟨a', k', h1', h2', h3', h4'⟩ := h'
  refine ⟨a + a', k + k', by omega, by omega, ?_, ?_⟩
  · rw [h3', h3, BitVec.add_assoc, BitVec.ofNat_add]
  · rw [h4', h4, BitVec.add_assoc, BitVec.ofNat_add]

theorem Counted.mono {s t : State} {m n : Nat} (h : Counted s t m) (hmn : m ≤ n) : Counted s t n := by
  obtain ⟨a, k, h1, h2, h3, h4⟩ := h
  exact ⟨a, k, h1, by omega, h3, h4⟩

theorem Counted.congr {s t u : State} {n : Nat} (h : Counted s t n) (ha : u.accesses = t.accesses)
    (hh : u.hits = t.hits) : Counted s u n := by
  obtain ⟨a, k, h1, h2, h3, h4⟩ := h
  exact ⟨a, k, h1, h2, by rw [ha, h3], by rw [hh, h4]⟩

/-- The bytes the core sees at one piece. -/
def State.viewPiece (s : State) (p : Piece) : List Byte := s.viewBytes (p.tag + p.first) p.count

theorem State.viewBytes_congr (h : ∀ o, t.view o = s.view o) (o n : Nat) : t.viewBytes o n = s.viewBytes o n := by
  simp [State.viewBytes, h]

@[simp] theorem State.length_viewBytes (s : State) (o n : Nat) : (s.viewBytes o n).length = n := by
  simp [State.viewBytes]

theorem State.viewBytes_add (s : State) (o m n : Nat) :
    s.viewBytes o (m + n) = s.viewBytes o m ++ s.viewBytes (o + m) n := by
  simp [State.viewBytes, List.range_add, Nat.add_assoc, Function.comp_def]

/-- The pieces of an access cover its bytes in order (R43). -/
theorem State.viewPieces (s : State) (o n : Nat) :
    (s.cfg.pieces o n).flatMap s.viewPiece = s.viewBytes o n := by
  have hadd := s.cfg.tagOf_add_idxOf o
  have hlt := s.cfg.idxOf_lt o
  unfold Config.pieces
  split
  · simp [State.viewPiece, hadd]
  · simp only [List.flatMap_cons, List.flatMap_nil, List.append_nil, State.viewPiece]
    have h1 : s.cfg.tagOf o + s.cfg.lineSize + 0 = o + (s.cfg.lineSize - s.cfg.idxOf o) := by omega
    rw [hadd, h1, ← State.viewBytes_add]
    congr 1
    omega

/-- The bytes of a resident line are the view of its offsets. -/
theorem Holds.lineBytes (h : Inv s) {i : Nat} {p : Piece} (hh : Holds s i p.tag) (hp : p.Inside s.cfg) :
    ((s.slot i).data.drop p.first).take p.count = s.viewPiece p := by
  have hlen := h.data_length i
  have hin := hp.in_line
  refine List.ext_getElem (by simp [State.viewPiece]; omega) fun j h1 h2 => ?_
  have hj : j < p.count := by simpa [State.viewPiece] using h2
  have hv : s.view (p.tag + (p.first + j)) = (s.slot i).data.getD (p.first + j) Memory.unlisted := by
    have ht := Config.tagOf_eq (c := s.cfg) (o := p.tag + (p.first + j)) hp.aligned (by omega) (by omega)
    rw [h.view_resident hh.valid (hh.tag.trans ht.1.symm), ht.2]
    congr 1
    omega
  simp only [State.viewPiece, State.viewBytes, List.getElem_map, List.getElem_range, List.getElem_take,
    List.getElem_drop, Nat.add_assoc, hv]
  rw [List.getD_eq_getElem?_getD, List.getElem?_eq_getElem (by omega)]
  rfl

/-- All the read of pieces can do (R87): the bytes are those the core sees before the read. -/
theorem readPieces_spec (ps : List Piece) (h : Inv s) (hp : ∀ p ∈ ps, p.Inside s.cfg) :
    (readPieces ps s).Spec
      (fun bytes t => Calm s t ∧ (Coherent s → bytes = ps.flatMap s.viewPiece) ∧
        t.accesses = s.accesses + BitVec.ofNat 64 ps.length ∧ Counted s t ps.length)
      fun w t => Calm s t ∧ StopOk s w ∧ Counted s t ps.length ∧
        ∃ q < ps.length, t.accesses = s.accesses + BitVec.ofNat 64 (q + 1) := by
  induction ps generalizing s with
  | nil => exact ⟨.refl h, fun _ => rfl, by simp, .refl s⟩
  | cons p ps ih =>
    have hpi := hp p (by simp)
    unfold readPieces
    refine Txn.Spec.andThen ((resolve_spec h hpi.aligned hpi.in_ram).mono (fun _ _ hq => hq) ?_) ?_
    · rintro w t ⟨hcalm, hstop, ha, hh, -⟩
      exact ⟨hcalm, hstop, ⟨1, 0, by omega, by simp, ha, by simpa using hh⟩, 0, by simp, ha⟩
    · rintro i t ⟨hcalm, hholds, ha, hh⟩
      have hcfg := hcalm.inner.cfg
      have hc1 : Counted s t 1 := by
        refine ⟨1, if (s.lookup p.tag).isSome then 1 else 0, by split <;> omega, le_refl 1, ha, ?_⟩
        rw [hh]
        split <;> rfl
      refine Txn.Spec.andThen ((ih hcalm.inv fun q hq => by rw [hcfg]; exact hp q (by simp [hq])).mono
        (fun _ _ hq => hq) ?_) ?_
      · rintro w u ⟨hcalm', hstop, hcount, q, hq, ha'⟩
        refine ⟨hcalm.trans hcalm', hcalm.stopOk hstop, (hc1.trans hcount).mono (by simp; omega), q + 1, by simp; omega, ?_⟩
        rw [ha', ha, BitVec.add_assoc, Nat.add_comm (q + 1) 1, BitVec.ofNat_add 1]
      · rintro rest u ⟨hcalm', hrest, ha', hcount⟩
        refine ⟨hcalm.trans hcalm', fun hc => ?_, ?_, (hc1.trans hcount).mono (by simp; omega)⟩
        · rw [hrest (hcalm.coherent hc), hholds.lineBytes hcalm.inv (hcfg ▸ hpi), List.flatMap_cons]
          have hv := hcalm.view hc
          congr 1
          · exact State.viewBytes_congr hv _ _
          · exact List.flatMap_congr fun q _ => State.viewBytes_congr hv _ _
        · rw [ha', ha, BitVec.add_assoc, List.length_cons, Nat.add_comm ps.length 1, BitVec.ofNat_add]

/-- All MemRead can do (R87). -/
theorem memRead_spec (h : Inv s) {o n : Nat} (hn : 0 < n) (hn4 : n ≤ 4) (ho : o + n ≤ s.cfg.ramSize) :
    (memRead o n s).Spec
      (fun bytes t => Calm s t ∧ (Coherent s → bytes = s.viewBytes o n) ∧
        t.accesses = s.accesses + BitVec.ofNat 64 (s.cfg.pieces o n).length ∧ Counted s t 2)
      fun w t => Calm s t ∧ StopOk s w ∧ Counted s t 2 := by
  have hlen : (s.cfg.pieces o n).length ≤ 2 := by
    rcases s.cfg.length_pieces o n with hl | hl <;> omega
  refine (readPieces_spec _ h (Config.pieces_inside h.cfg_wf hn hn4 ho)).mono ?_ ?_
  · rintro bytes t ⟨h1, h2, h3, h4⟩
    exact ⟨h1, fun hc => by rw [h2 hc, State.viewPieces], h3, h4.mono hlen⟩
  · rintro w t ⟨h1, h2, h3, -⟩
    exact ⟨h1, h2, h3.mono hlen⟩

/-! ### Writes -/

/-- As `Calm`, but the RAM view holds `bytes` from offset `o` on and is as before elsewhere. -/
structure Wrote (s t : State) (o : Nat) (bytes : List Byte) : Prop where
  inv      : Inv t
  inner    : Inner s t
  coherent : Coherent s → Coherent t
  view     : Coherent s → ∀ p,
    t.view p = if o ≤ p ∧ p < o + bytes.length then bytes.getD (p - o) Memory.unlisted else s.view p
  left     : DrawsLeft s t
  trace    : ∃ events, t.bsLog = s.bsLog ++ events ∧
    ∀ e ∈ events, e.wholeLine s.cfg

theorem Calm.trace_trans {s t u : State} (hc : t.cfg = s.cfg)
    (h : ∃ events, t.bsLog = s.bsLog ++ events ∧ ∀ e ∈ events, e.wholeLine s.cfg)
    (h' : ∃ events, u.bsLog = t.bsLog ++ events ∧ ∀ e ∈ events, e.wholeLine t.cfg) :
    ∃ events, u.bsLog = s.bsLog ++ events ∧ ∀ e ∈ events, e.wholeLine s.cfg := by
  obtain ⟨e1, h1, p1⟩ := h
  obtain ⟨e2, h2, p2⟩ := h'
  rw [hc] at p2
  refine ⟨e1 ++ e2, by rw [h2, h1, List.append_assoc], fun e he => ?_⟩
  rcases List.mem_append.1 he with he | he
  · exact p1 e he
  · exact p2 e he

theorem Calm.wrote (h : Calm s t) (o : Nat) : Wrote s t o [] :=
  ⟨h.inv, h.inner, h.coherent, fun hc p => by rw [if_neg (by simp)]; exact h.view hc p, h.left, h.trace⟩

theorem Calm.wrote_trans {u : State} {o : Nat} {bytes : List Byte} (h : Calm s t) (h' : Wrote t u o bytes) :
    Wrote s u o bytes where
  inv := h'.inv
  inner := h.inner.trans h'.inner
  coherent hc := h'.coherent (h.coherent hc)
  view hc p := by rw [h'.view (h.coherent hc), h.view hc]
  left := h.left.trans h'.left
  trace := Calm.trace_trans h.inner.cfg h.trace h'.trace

theorem Wrote.calm_trans {u : State} {o : Nat} {bytes : List Byte} (h : Wrote s t o bytes) (h' : Calm t u) :
    Wrote s u o bytes where
  inv := h'.inv
  inner := h.inner.trans h'.inner
  coherent hc := h'.coherent (h.coherent hc)
  view hc p := by rw [h'.view (h.coherent hc), h.view hc]
  left := h.left.trans h'.left
  trace := Calm.trace_trans h.inner.cfg h.trace h'.trace

/-- Two writes one after the other, the second where the first ends. -/
theorem Wrote.append {u : State} {o : Nat} {a b : List Byte} (h : Wrote s t o a) (h' : Wrote t u (o + a.length) b) :
    Wrote s u o (a ++ b) where
  inv := h'.inv
  inner := h.inner.trans h'.inner
  coherent hc := h'.coherent (h.coherent hc)
  view hc p := by
    rw [h'.view (h.coherent hc), h.view hc, List.length_append]
    by_cases h1 : o ≤ p ∧ p < o + a.length
    · rw [if_neg (by omega), if_pos h1, if_pos (by omega)]
      simp only [List.getD_eq_getElem?_getD]
      rw [List.getElem?_append_left (by omega)]
    · by_cases h2 : o + a.length ≤ p ∧ p < o + a.length + b.length
      · rw [if_pos h2, if_pos (by omega)]
        simp only [List.getD_eq_getElem?_getD]
        rw [List.getElem?_append_right (by omega)]
        congr 2
        omega
      · rw [if_neg h2, if_neg h1, if_neg (by omega)]
  left := h.left.trans h'.left
  trace := Calm.trace_trans h.inner.cfg h.trace h'.trace

theorem State.setSlot_setSlot (s : State) (i : Nat) (x y : Slot) : (s.setSlot i x).setSlot i y = s.setSlot i y := by
  simp [State.setSlot]

/-- Bytes copied into a resident line, which is dirty afterwards (R88, R86 under WRITE_BACK). -/
theorem Wrote.copied (h : Inv s) {i tag first : Nat} {bytes : List Byte} (hh : Holds s i tag)
    (hin : first + bytes.length ≤ s.cfg.lineSize) :
    Wrote s (s.setSlot i { s.slot i with data := splice (s.slot i).data first bytes, dirty := true })
      (tag + first) bytes := by
  have hlen := h.data_length i
  have hi : i < s.slots.length := h.slot_count ▸ hh.lt
  obtain ⟨hal, hram⟩ := h.tag_slot hh.valid
  have hinv : Inv (s.setSlot i { s.slot i with data := splice (s.slot i).data first bytes, dirty := true }) :=
    h.setSlot_same rfl (fun _ => hh.valid) (by simp only; rw [length_splice (by omega), hlen]) (fun _ => hh.valid)
  refine ⟨hinv, .setSlot s i _, fun hc x hx hxv hxd => ?_, fun hc p => ?_, .of_eq rfl rfl, ⟨[], by simp⟩⟩
  · rcases State.mem_setSlot hx with rfl | hx
    · simp at hxd
    · exact hc x hx hxv hxd
  · by_cases hp : s.cfg.tagOf p = tag
    · have hidx := (Config.tagOf_eq_iff (hh.tag ▸ hal)).1 hp
      have hpi := (Config.tagOf_eq (hh.tag ▸ hal) hidx.1 hidx.2).2
      rw [hinv.view_resident (i := i), h.view_resident hh.valid (hh.tag.trans hp.symm),
        State.slot_setSlot_same hi]
      · simp only [State.setSlot_cfg, hpi]
        rw [getD_splice (by omega)]
        by_cases hr : first ≤ p - tag ∧ p - tag < first + bytes.length
        · rw [if_pos hr, if_pos (by omega)]
          congr 1
          omega
        · rw [if_neg hr, if_neg (by omega)]
      · rw [State.slot_setSlot_same hi]; exact hh.valid
      · rw [State.slot_setSlot_same hi]; exact hh.tag.trans hp.symm
    · have hout : ¬ (tag + first ≤ p ∧ p < tag + first + bytes.length) := fun hr =>
        hp ((Config.tagOf_eq_iff (hh.tag ▸ hal)).2 ⟨by omega, by omega⟩)
      rw [if_neg hout]
      by_cases hres : ∃ j, (s.slot j).valid = true ∧ (s.slot j).tag.toNat = s.cfg.tagOf p
      · obtain ⟨j, hjv, hjt⟩ := hres
        have hji : j ≠ i := by rintro rfl; exact hp (hjt.symm.trans hh.tag)
        rw [h.view_resident hjv hjt, hinv.view_resident (i := j)]
        · rw [State.slot_setSlot_other hji]; rfl
        · rw [State.slot_setSlot_other hji]; exact hjv
        · rw [State.slot_setSlot_other hji]; exact hjt
      · rw [State.view_absent, State.view_absent]
        · rfl
        · rintro x hx hxv hxt
          obtain ⟨j, -, rfl⟩ := State.slot_of_mem hx
          exact hres ⟨j, hxv, hxt⟩
        · rintro x hx hxv hxt
          obtain ⟨j, -, rfl⟩ := State.slot_of_mem hx
          rw [State.slot_setSlot] at hxv hxt
          split at hxv
          · next hj =>
            rw [if_pos hj] at hxt
            exact hp (hxt.symm.trans hh.tag)
          · next hj =>
            rw [if_neg hj] at hxt
            exact hres ⟨j, hxv, hxt⟩

/-- What a write leaves when it stops. Where it raises, `R m e` says how many bytes `m` the failed event `e` leaves
written, and no other byte is; where it is cut short, only the invariant matters (R166, R168, R206). -/
structure Torn (s : State) (o : Nat) (bytes : List Byte) (R : Nat → BsEvent → Prop) (w : Stop) (t : State) : Prop where
  stop   : StopOk s w
  inv    : Inv t
  inner  : Inner s t
  trace  : ∃ events, t.bsLog = s.bsLog ++ events ∧
    ∀ e ∈ events, e.wholeLine s.cfg
  partly : Blames w t fun e => ∃ m ≤ bytes.length, R m e ∧ Wrote s t o (bytes.take m)

theorem Calm.torn (h : Calm s t) {w : Stop} (hw : StopOk s w) (o : Nat) (bytes : List Byte) {P : BsEvent → Prop}
    (hb : Blames w t P) {R : Nat → BsEvent → Prop} (hR : ∀ e, P e → R 0 e) : Torn s o bytes R w t :=
  ⟨hw, h.inv, h.inner, h.trace, fun k info he =>
    let ⟨e, h1, h2⟩ := hb k info he
    ⟨e, h1, 0, Nat.zero_le _, hR e h2, by rw [List.take_zero]; exact h.wrote o⟩⟩

theorem Calm.torn_trans {u : State} {o : Nat} {bytes : List Byte} {R : Nat → BsEvent → Prop} {w : Stop} (h : Calm s t)
    (h' : Torn t o bytes R w u) : Torn s o bytes R w u :=
  ⟨h.stopOk h'.stop, h'.inv, h.inner.trans h'.inner, Calm.trace_trans h.inner.cfg h.trace h'.trace, fun k info he =>
    let ⟨e, h1, m, hm, hr, hw⟩ := h'.partly k info he
    ⟨e, h1, m, hm, hr, h.wrote_trans hw⟩⟩

/-- What the failed event leaves written may be said in other words, and the write be part of a longer one. -/
theorem Torn.mono {o : Nat} {bytes more : List Byte} {R R' : Nat → BsEvent → Prop} {w : Stop}
    (h : Torn s o bytes R w t) (hb : bytes <+: more) (hR : ∀ m e, R m e → R' m e) : Torn s o more R' w t :=
  ⟨h.stop, h.inv, h.inner, h.trace, fun k info he =>
    let ⟨e, h1, m, hm, hr, hw⟩ := h.partly k info he
    ⟨e, h1, m, hm.trans hb.length_le, hR m e hr, by
      obtain ⟨r, rfl⟩ := hb
      rwa [List.take_append_of_le_length hm]⟩⟩

/-- A write that stops after a part of it was written. -/
theorem Wrote.torn_trans {u : State} {o : Nat} {a b : List Byte} {R R' : Nat → BsEvent → Prop} {w : Stop}
    (h : Wrote s t o a) (h' : Torn t (o + a.length) b R w u) (hR : ∀ m e, R m e → R' (a.length + m) e) :
    Torn s o (a ++ b) R' w u :=
  ⟨.of_left h.left h.inner.cfg h'.stop, h'.inv, h.inner.trans h'.inner, Calm.trace_trans h.inner.cfg h.trace h'.trace,
    fun k info he =>
      let ⟨e, h1, m, hm, hr, hw⟩ := h'.partly k info he
      ⟨e, h1, a.length + m, by simp; omega, hR m e hr, by
        rw [List.take_length_add_append]
        exact h.append hw⟩⟩

/-- The bytes a failed event leaves of a piece: all where it is the write-through of the piece's own line, which only
WRITE_THROUGH issues, and none otherwise (R83, R84, R86, R166). -/
def LeavesOfPiece (c : Config) (tag n m : Nat) (e : BsEvent) : Prop :=
  m = (if e.writes tag then n else 0) ∧ (e.writes tag = true → c.writePolicy = .writeThrough)

/-- The write-through of slot `i` (R86): where the slot with its dirty bit set would hold the bytes written, they stay
written whatever the backing store answers. -/
theorem throughPolicy_spec {i o : Nat} {bytes : List Byte} {x : Slot} (h : Inv (s.setSlot i x))
    (hi : i < s.slots.length) (hv : x.valid = true) (hw : Wrote s (s.setSlot i { x with dirty := true }) o bytes)
    (hpol : s.cfg.writePolicy = .writeThrough) :
    ((bsWrite x.tag.toNat x.data (s.setSlot i x)).andThen fun ok s1 =>
      if ok then .done () (s1.setSlot i { s1.slot i with dirty := false })
      else .stop (.fault .io (s1.slot i).tag) (s1.setSlot i { s1.slot i with dirty := true })).Spec
      (fun _ t => Wrote s t o bytes ∧ t.accesses = s.accesses ∧ t.hits = s.hits)
      fun w t => Torn s o bytes (LeavesOfPiece s.cfg x.tag.toNat bytes.length) w t ∧
        t.accesses = s.accesses ∧ t.hits = s.hits := by
  have hslot : (s.setSlot i x).slot i = x := State.slot_setSlot_same hi _
  have hslotd : (s.setSlot i { x with dirty := true }).slot i = { x with dirty := true } :=
    State.slot_setSlot_same hi _
  obtain ⟨hal, hram⟩ := h.tag_slot (i := i) (by rw [hslot]; exact hv)
  have hlen := h.data_length i
  rw [hslot] at hal hram hlen
  have hline : ∀ {ok d : Bool}, s.nextAnswer.ok = ok → (d = false → ok = true) →
      Wrote s (((s.setSlot i x).logEvent (.write x.tag.toNat x.data ok)).setBs (writtenBs x.tag.toNat x.data s) |>.setSlot
        i { x with dirty := d }) o bytes := by
    intro ok d hok hd
    have h1 := Calm.lineWritten (s := s.setSlot i { x with dirty := true }) (i := i) (ok := ok) (d := d) hw.inv
      (by rw [hslotd]; exact hv) hok hd
    rw [hslotd] at h1
    have h2 := hw.calm_trans h1
    have h3 : ∀ y : Slot, (((s.setSlot i x).logEvent (.write x.tag.toNat x.data ok)).setBs
        (writtenBs x.tag.toNat x.data s)).setSlot i y = (((s.setSlot i { x with dirty := true }).logEvent
        (.write x.tag.toNat x.data ok)).setBs (writtenBs x.tag.toNat x.data s)).setSlot i y := by
      intro y
      simp [State.setSlot, State.setBs, State.logEvent]
    rw [h3]
    exact h2
  refine Txn.Spec.andThen (P := fun ok t => ok = s.nextAnswer.ok ∧
    t = ((s.setSlot i x).logEvent (.write x.tag.toNat x.data s.nextAnswer.ok)).setBs
      (writtenBs x.tag.toNat x.data s)) ?_ ?_
  · refine bsWrite_spec (fun _ => ⟨rfl, rfl⟩) fun c hcut =>
      ⟨⟨.cut (s := s) hcut _, ?_, ?_, ?_, (c.stop_isCut _).blames _ _⟩, rfl, rfl⟩
    · exact h.written hlen hal hram _
    · exact (Inner.setSlot s i x).trans ((Inner.logEvent _ _).trans (Inner.setBs _ _))
    · exact ⟨[.write x.tag.toNat x.data (s.setSlot i x).nextAnswer.ok], rfl, by
        simpa [BsEvent.wholeLine, BsEvent.tag] using ⟨hal, hram, hlen⟩⟩
  · rintro ok t ⟨rfl, rfl⟩
    have hsl : (((s.setSlot i x).logEvent (.write x.tag.toNat x.data s.nextAnswer.ok)).setBs
        (writtenBs x.tag.toNat x.data s)).slot i = x := by
      exact (State.slot_congr (s := s.setSlot i x) rfl rfl i).trans hslot
    rw [hsl]
    by_cases hok : s.nextAnswer.ok = true
    · rw [if_pos hok, hok]
      exact ⟨hline hok (fun _ => rfl), rfl, rfl⟩
    · rw [if_neg hok]
      rw [Bool.not_eq_true] at hok
      rw [hok]
      have hwr := hline (d := true) hok (by simp)
      refine ⟨⟨⟨fun hq => by simp [hq.nextAnswer.1] at hok, rfl, hal, hram⟩,
        hwr.inv, hwr.inner, hwr.trace, fun k info he => ⟨.write x.tag.toNat x.data false, ⟨by simp, rfl, ?_⟩,
          bytes.length, le_refl _,
          ⟨by simp [BsEvent.writes], fun _ => hpol⟩, by rw [List.take_length]; exact hwr⟩⟩, rfl, rfl⟩
      injection he with _ he
      rw [← he]
      rfl

/-- The copy into a resident line and the write policy after it (R88, R86). -/
theorem copyPolicy_spec (h : Inv s) {i tag first : Nat} {bytes : List Byte} (hh : Holds s i tag)
    (hin : first + bytes.length ≤ s.cfg.lineSize) :
    (writePolicy i (s.setSlot i { s.slot i with data := splice (s.slot i).data first bytes })).Spec
      (fun _ t => Wrote s t (tag + first) bytes ∧ t.accesses = s.accesses ∧ t.hits = s.hits)
      fun w t => Torn s (tag + first) bytes (LeavesOfPiece s.cfg tag bytes.length) w t ∧
        t.accesses = s.accesses ∧ t.hits = s.hits := by
  have hi : i < s.slots.length := h.slot_count ▸ hh.lt
  have hlen := h.data_length i
  have hcopy := Wrote.copied h hh hin
  have hinv : Inv (s.setSlot i { s.slot i with data := splice (s.slot i).data first bytes }) :=
    h.setSlot_same rfl (fun _ => hh.valid) (by simp only; rw [length_splice (by omega), hlen]) (fun _ => hh.valid)
  unfold writePolicy
  simp only [State.setSlot_cfg, State.slot_setSlot_same hi]
  cases hpol : s.cfg.writePolicy with
  | writeBack =>
    simp only [State.setSlot_setSlot]
    exact ⟨hcopy, rfl, rfl⟩
  | writeThrough =>
    obtain rfl := hh.tag
    exact throughPolicy_spec hinv hi hh.valid hcopy hpol

/-- All the write of one piece can do (R88). -/
theorem writePiece_spec (h : Inv s) {p : Piece} (hp : p.Inside s.cfg) {bytes : List Byte}
    (hb : bytes.length = p.count) :
    (writePiece p bytes s).Spec
      (fun _ t => Wrote s t (p.tag + p.first) bytes ∧ t.accesses = s.accesses + 1#64 ∧ Counted s t 1)
      fun w t => Torn s (p.tag + p.first) bytes (LeavesOfPiece s.cfg p.tag p.count) w t ∧
        t.accesses = s.accesses + 1#64 ∧ Counted s t 1 := by
  unfold writePiece
  refine Txn.Spec.andThen ((resolve_spec h hp.aligned hp.in_ram).mono (fun _ _ hq => hq) ?_) ?_
  · rintro w t ⟨hcalm, hstop, ha, hh, hb⟩
    exact ⟨hcalm.torn hstop _ _ hb fun e he => ⟨by simp [he], by simp [he]⟩, ha, 1, 0, by omega, by omega, ha, by
      simpa using hh⟩
  · rintro i t ⟨hcalm, hholds, ha, hh⟩
    have hin : p.first + bytes.length ≤ t.cfg.lineSize := by rw [hcalm.inner.cfg, hb]; exact hp.in_line
    have hc1 : Counted s t 1 := by
      refine ⟨1, if (s.lookup p.tag).isSome then 1 else 0, by split <;> omega, le_refl 1, ha, ?_⟩
      rw [hh]
      split <;> rfl
    refine (copyPolicy_spec hcalm.inv hholds hin).mono ?_ ?_
    · rintro _ u ⟨hw, h1, h2⟩
      exact ⟨hcalm.wrote_trans hw, by rw [h1, ha], hc1.congr h1 h2⟩
    · rintro w u ⟨hw, h1, h2⟩
      rw [hb, hcalm.inner.cfg] at hw
      exact ⟨hcalm.torn_trans hw, by rw [h1, ha], hc1.congr h1 h2⟩

/-- The bytes a failed event leaves of a write of `n` bytes at RAM offset `o` that had counted `lines` accesses (R88,
R166): those of the lines before the one it failed in, and that line's too where its write-through failed. -/
def LeavesOfWrite (c : Config) (o n lines m : Nat) (e : BsEvent) : Prop :=
  m = bytesUpTo c o n (if e.writes (c.tagOf o + (lines - 1) * c.lineSize) then lines else lines - 1) ∧
    (e.writes (c.tagOf o + (lines - 1) * c.lineSize) = true → c.writePolicy = .writeThrough)

/-- All MemWrite can do (R88): where it goes on, exactly its bytes of the RAM view are written; where it stops, it does
so in the last of the `lines` lines it counted. -/
theorem memWrite_spec (h : Inv s) {o n : Nat} (v : Word) (hn : 0 < n) (hn4 : n ≤ 4) (ho : o + n ≤ s.cfg.ramSize) :
    (memWrite o n v s).Spec
      (fun _ t => Wrote s t o (leBytes n v) ∧
        t.accesses = s.accesses + BitVec.ofNat 64 (s.cfg.pieces o n).length ∧ Counted s t 2)
      fun w t => Counted s t 2 ∧ ∃ lines, 0 < lines ∧ lines ≤ (s.cfg.pieces o n).length ∧
        t.accesses = s.accesses + BitVec.ofNat 64 lines ∧ Torn s o (leBytes n v) (LeavesOfWrite s.cfg o n lines) w t := by
  have hadd := s.cfg.tagOf_add_idxOf o
  have hlt := s.cfg.idxOf_lt o
  have hidx : s.cfg.idxOf o = o % s.cfg.lineSize := rfl
  have hins := Config.pieces_inside h.cfg_wf hn hn4 ho
  have hlen := length_leBytes n v
  unfold memWrite
  generalize leBytes n v = bytes at hlen
  unfold Config.pieces at hins ⊢
  split at hins
  · next hle =>
    simp only [hle, if_true, List.length_singleton, writePieces]
    have hp := hins _ (List.mem_singleton.2 rfl)
    have htake : bytes.take n = bytes := by rw [← hlen, List.take_length]
    simp only [htake]
    refine Txn.Spec.andThen ((writePiece_spec h hp hlen).mono (fun _ _ hq => hq) ?_) ?_
    · rintro w t ⟨h1, ha, h2⟩
      rw [hadd] at h1
      refine ⟨h2.mono (by omega), 1, by omega, le_refl 1, ha, h1.mono (List.prefix_refl _) ?_⟩
      rintro m e ⟨rfl, hwt⟩
      refine ⟨?_, by simpa using hwt⟩
      simp only [Nat.sub_self, Nat.zero_mul, Nat.add_zero, bytesUpTo]
      split <;> omega
    · rintro _ t ⟨h1, h2, h3⟩
      rw [hadd] at h1
      exact ⟨h1, h2, h3.mono (by omega)⟩
  · next hgt =>
    simp only [hgt, if_false, List.length_cons, List.length_nil, writePieces]
    have hp1 := hins _ (List.mem_cons_self ..)
    have hp2 := hins _ (List.mem_cons_of_mem _ (List.mem_singleton.2 rfl))
    have hin2 := hp2.in_line
    simp only at hin2
    generalize hk : s.cfg.lineSize - s.cfg.idxOf o = k at hp1 hp2 hin2 ⊢
    have hkn : k < n := by omega
    have hl1 : (bytes.take k).length = k := by simp; omega
    have hl2 : ((bytes.drop k).take (n - k)).length = n - k := by simp; omega
    have hdrop : (bytes.drop k).take (n - k) = bytes.drop k := List.take_of_length_le (by simp; omega)
    refine Txn.Spec.andThen ((writePiece_spec h hp1 hl1).mono (fun _ _ hq => hq) ?_) ?_
    · rintro w t ⟨h1, ha, h2⟩
      simp only [hadd] at h1
      refine ⟨h2.mono (by omega), 1, by omega, by omega, ha, h1.mono (List.take_prefix _ _) ?_⟩
      rintro m e ⟨rfl, hwt⟩
      refine ⟨?_, by simpa using hwt⟩
      simp only [Nat.sub_self, Nat.zero_mul, Nat.add_zero, bytesUpTo]
      split <;> omega
    · rintro _ t ⟨h1, h2, h3⟩
      simp only [hadd] at h1
      have hcfg := h1.inner.cfg
      have hend : o + (bytes.take k).length = s.cfg.tagOf o + s.cfg.lineSize + 0 := by rw [hl1]; omega
      refine Txn.Spec.andThen ((writePiece_spec h1.inv (hcfg ▸ hp2) hl2).mono (fun _ _ hq => hq) ?_) ?_
      · rintro w u ⟨h1', ha', h2'⟩
        refine ⟨h3.trans h2', 2, by omega, by omega, by rw [ha', h2, BitVec.add_assoc]; rfl, ?_⟩
        rw [← hend, hdrop, hcfg] at h1'
        have := h1.torn_trans h1' (R' := LeavesOfWrite s.cfg o n 2) ?_
        · rwa [List.take_append_drop] at this
        · rintro m e ⟨rfl, hwt⟩
          refine ⟨?_, by simpa using hwt⟩
          simp only [hl1, Nat.add_one_sub_one, Nat.one_mul, bytesUpTo]
          split <;> omega
      · rintro _ u ⟨h1', h2', h3'⟩
        rw [← hend] at h1'
        refine ⟨?_, ?_, h3.trans h3'⟩
        · have := h1.append h1'
          rwa [hdrop, List.take_append_drop] at this
        · rw [h2', h2, BitVec.add_assoc]
          rfl

end Sys2Proof.Machine
end

