-- ==== Sys2Proof/Laws/Sweep.lean ====
section
/-! SUPPORT. The sweeps of FLUSH_ALL and EVICT_ALL (spec/40_cache.md R97, R98) and the DBG_STR stream
(spec/42_csr_mux.md R133): one specification lemma each. -/

namespace Sys2Proof.Machine

open Sys2Proof

variable {s t : State}

/-! ### What a transaction keeps while it may report or emit -/

/-- As `Calm`, but the transaction may have recorded IOFaults (`failed` says whether it did) and emitted `out`. -/
structure Went (s t : State) (failed : Bool) (out : List Byte) : Prop where
  inv      : Inv t
  cfg      : t.cfg = s.cfg
  console  : t.pendValid = s.pendValid ∧ t.pendByte = s.pendByte ∧ t.conOut = s.conOut ++ out
  host     : t.halted = s.halted ∧ t.postCode = s.postCode ∧ t.released = s.released ∧ t.booting = s.booting ∧
    t.inputs = s.inputs ∧ t.unsettled = s.unsettled ∧ t.draws = s.draws
  resp     : t.resp = s.resp
  latch    : t.ioFaultLatch = (s.ioFaultLatch || failed)
  errors   : ∃ records, t.errLog = s.errLog ++ records ∧ (failed = false ↔ records = []) ∧
    ∀ r ∈ records, r.kind = .io
  coherent : Coherent s → Coherent t
  view     : Coherent s → ∀ o, t.view o = s.view o
  left     : DrawsLeft s t
  trace    : ∃ events, t.bsLog = s.bsLog ++ events ∧
    ∀ e ∈ events, e.wholeLine s.cfg

theorem Calm.went (h : Calm s t) : Went s t false [] where
  inv := h.inv
  cfg := h.inner.cfg
  console := ⟨h.inner.rest.pendValid, h.inner.rest.pendByte, by rw [h.inner.rest.conOut, List.append_nil]⟩
  host := ⟨h.inner.rest.halted, h.inner.rest.postCode, h.inner.rest.released, h.inner.rest.booting,
    h.inner.rest.inputs, h.inner.rest.unsettled, h.inner.rest.draws⟩
  resp := h.inner.resp
  latch := by rw [h.inner.errors.latch, Bool.or_false]
  errors := ⟨[], by rw [h.inner.errors.errLog, List.append_nil], by simp, by simp⟩
  coherent := h.coherent
  view := h.view
  left := h.left
  trace := h.trace

theorem Went.trans {u : State} {f g : Bool} {a b : List Byte} (h : Went s t f a) (h' : Went t u g b) :
    Went s u (f || g) (a ++ b) where
  inv := h'.inv
  cfg := by rw [h'.cfg, h.cfg]
  console := ⟨by rw [h'.console.1, h.console.1], by rw [h'.console.2.1, h.console.2.1], by
    rw [h'.console.2.2, h.console.2.2, List.append_assoc]⟩
  host := by simp only [h'.host, h.host, and_self]
  resp := by rw [h'.resp, h.resp]
  latch := by rw [h'.latch, h.latch, Bool.or_assoc]
  errors := by
    obtain ⟨r1, h1, p1, q1⟩ := h.errors
    obtain ⟨r2, h2, p2, q2⟩ := h'.errors
    refine ⟨r1 ++ r2, by rw [h2, h1, List.append_assoc], ?_, fun r hr => ?_⟩
    · rw [List.append_eq_nil_iff, ← p1, ← p2, Bool.or_eq_false_iff]
    · rcases List.mem_append.1 hr with hr | hr
      · exact q1 r hr
      · exact q2 r hr
  coherent hc := h'.coherent (h.coherent hc)
  view hc o := by rw [h'.view (h.coherent hc), h.view hc]
  left := h.left.trans h'.left
  trace := Calm.trace_trans h.cfg h.trace h'.trace

theorem Went.stopOk {f : Bool} {out : List Byte} (h : Went s t f out) {w : Stop} (hw : StopOk t w) : StopOk s w :=
  .of_left h.left h.cfg hw

/-- An IOFault is recorded and the transaction goes on (R97). -/
theorem Went.noteIoFault (h : Inv s) (tag : Word) : Went s (s.noteIoFault tag) true [] where
  inv := h.noteIoFault tag
  cfg := rfl
  console := ⟨rfl, rfl, (List.append_nil _).symm⟩
  host := by simp
  resp := rfl
  latch := by simp
  errors := ⟨[⟨.io, tag⟩], rfl, by simp, by simp⟩
  coherent hc := hc
  view _ o := State.view_congr rfl rfl rfl o
  left := .of_eq rfl rfl
  trace := ⟨[], by simp⟩

/-- One draw of the console host is used up; `out` joins the output. -/
theorem Went.drewConsole (h : Inv s) (out : List Byte) :
    Went s { s with conAnswers := s.conAnswers.tail, conOut := s.conOut ++ out } false out where
  inv := h.congr rfl rfl rfl rfl
  cfg := rfl
  console := ⟨rfl, rfl, rfl⟩
  host := by simp
  resp := rfl
  latch := by simp
  errors := ⟨[], by simp⟩
  coherent hc := hc
  view _ o := State.view_congr rfl rfl rfl o
  left := ⟨List.suffix_refl _, List.tail_suffix _⟩
  trace := ⟨[], by simp⟩

/-- What holds of every console draw to come, and of an acceptance, holds of the next one. -/
theorem State.nextAccept_of {P : Option Cut → Prop} (h : ∀ a ∈ s.conAnswers, P a) (hg : P none) :
    P (s.conAnswers.headD none) := by
  cases hb : s.conAnswers with
  | nil => exact hg
  | cons a l => exact h a (by simp [hb])

/-- A wait for the console host that is cut short stops as an operation may. -/
theorem StopOk.cutConsole {c : Cut} (h : s.conAnswers.headD none = some c) (f : Fault) : StopOk s (c.stop f) := by
  have huncut : ¬ s.uncut := fun hq => by
    have := State.nextAccept_of (P := fun a => a = none) hq.console rfl
    rw [this] at h
    cases h
  refine ⟨fun hq => huncut hq.touncut, ?_⟩
  cases c with
  | powerOn ok => exact huncut
  | never => exact fun hq => State.nextAccept_of (P := fun a => a ≠ some .never) hq.console (by simp) h

/-- A byte is emitted (R61), unless the wait for the console host is cut short (R206). -/
theorem emit_spec (b : Byte) :
    (emit b s).Spec (fun _ t => t = { s with conAnswers := s.conAnswers.tail, conOut := s.conOut ++ [b] })
      fun w t => t = { s with conAnswers := s.conAnswers.tail } ∧ StopOk s w ∧ w.isCut := by
  unfold emit
  exact Txn.Spec.andThen (waited_spec (fun _ => rfl) fun c hc => ⟨rfl, .cutConsole hc _, c.stop_isCut _⟩)
    (fun _ t (ht : t = s.drawAccept) => by subst ht; rfl)

/-- The bytes are emitted in order (R11), unless the wait for one of them is cut short. -/
theorem emitStr_spec (bytes : List Byte) (h : Inv s) :
    (emitStr bytes s).Spec (fun _ t => t = { s with
        conAnswers := s.conAnswers.drop bytes.length
        conOut     := s.conOut ++ bytes })
      fun w t => StopOk s w ∧ w.isCut ∧ ∃ k < bytes.length,
        t = { s with conAnswers := s.conAnswers.drop (k + 1), conOut := s.conOut ++ bytes.take k } := by
  induction bytes generalizing s with
  | nil => simp [emitStr]
  | cons b bytes ih =>
    unfold emitStr
    refine Txn.Spec.andThen ((emit_spec b).mono (fun _ _ hq => hq) ?_) ?_
    · rintro w t ⟨rfl, h1, h2⟩
      exact ⟨h1, h2, 0, by simp, by simp⟩
    · rintro _ t rfl
      have hw := Went.drewConsole h [b]
      refine (ih hw.inv).mono ?_ ?_
      · rintro _ t rfl
        simp
      · rintro w t ⟨h1, h2, k, hk, rfl⟩
        exact ⟨hw.stopOk h1, h2, k + 1, by simpa using hk, by simp⟩

/-! ### One slot of a sweep -/

/-- What one slot of a sweep does: on success the slot becomes `g` of itself, on failure, which only a FAIL gives,
it stays as it was, valid and dirty. -/
def SweepsSlot (f : Nat → State → Txn Bool) (g : Slot → Slot) : Prop :=
  ∀ (s : State) (i : Nat), Inv s →
    (f i s).Spec
      (fun ok t => Went s t (!ok) [] ∧ SameStats s t ∧ (∀ j, j ≠ i → t.slot j = s.slot j) ∧
        (ok = true → t.slot i = g (s.slot i)) ∧
        (ok = false → t.slot i = s.slot i ∧ (s.slot i).valid = true ∧ (s.slot i).dirty = true ∧ ¬ s.quiet ∧
          t.errLog = s.errLog ++ [⟨.io, (s.slot i).tag⟩]))
      fun w t => Went s t false [] ∧ SameStats s t ∧ StopOk s w ∧ w.isCut

theorem flushSlot_spec : SweepsSlot flushSlot fun x => { x with dirty := false } := by
  intro s i h
  unfold flushSlot
  refine Txn.Spec.andThen ((writeBack_spec h i).mono (fun _ _ hw => hw) ?_) ?_
  · rintro w t ⟨h1, h2, h3, h4⟩
    exact ⟨h1.went, h3, h2, h4⟩
  · intro ok t hw
    cases ok with
    | true => exact ⟨hw.calm.went, hw.stats, hw.others, hw.clean, by simp⟩
    | false =>
      obtain ⟨hs, hv, hd, hq, -⟩ := hw.failed rfl
      simp only [Bool.false_eq_true, if_false, Txn.spec_done]
      refine ⟨?_, ⟨hw.stats.lru, hw.stats.accesses, hw.stats.hits⟩, hw.others, by simp, fun _ => ⟨?_, hv, hd, hq, ?_⟩⟩
      · have := hw.calm.went.trans (Went.noteIoFault hw.calm.inv (t.slot i).tag)
        simpa using this
      · exact State.slot_congr hs hw.calm.inner.cfg i
      · rw [State.noteIoFault_errLog, hw.calm.inner.errors.errLog, State.slot_congr hs hw.calm.inner.cfg i]

theorem evictSlot_spec : SweepsSlot evictSlot fun x => { x with valid := false, dirty := false } := by
  intro s i h
  unfold evictSlot
  refine Txn.Spec.andThen (flushSlot_spec s i h) ?_
  rintro ok t ⟨hw, hstats, hothers, hclean, hfailed⟩
  cases ok with
  | true =>
    have hc := hclean rfl
    have hd : (t.slot i).dirty = false := by rw [hc]
    have hinv := Calm.invalidate hw.inv hd
    simp only [if_true, Txn.spec_done]
    refine ⟨by simpa using hw.trans hinv.went, ⟨hstats.lru, hstats.accesses, hstats.hits⟩,
      fun j hj => by rw [State.slot_setSlot_other hj, hothers j hj], fun _ => ?_, by simp⟩
    rw [State.slot_setSlot]
    split
    · rw [hc]
    · next hn =>
      have h1 : s.slots.length ≤ i := by
        have h2 := hw.inv.slot_count
        rw [hw.cfg, ← h.slot_count] at h2
        omega
      rw [hc, State.slot_out h1]
      rfl
  | false =>
    simp only [Bool.false_eq_true, if_false, Txn.spec_done]
    exact ⟨hw, hstats, hothers, by simp, fun _ => hfailed rfl⟩

/-! ### A sweep -/

/-- All a loop over slots can do: no failure means every slot listed became `g` of itself. -/
theorem overSlots_spec {f : Nat → State → Txn Bool} {g : Slot → Slot} (hf : SweepsSlot f g) (is : List Nat)
    (hnd : is.Nodup) (failed : Bool) (h : Inv s) :
    (overSlots f is failed s).Spec
      (fun failed' t => ∃ new, failed' = (failed || new) ∧ Went s t new [] ∧ SameStats s t ∧
        (∀ j, j ∉ is → t.slot j = s.slot j) ∧
        (∀ j ∈ is, t.slot j = g (s.slot j) ∨
          (new = true ∧ t.slot j = s.slot j ∧ (s.slot j).valid = true ∧ (s.slot j).dirty = true ∧
            ∀ records, t.errLog = s.errLog ++ records → ⟨.io, (s.slot j).tag⟩ ∈ records)) ∧
        (new = true → ¬ s.quiet))
      fun w t => ∃ new, Went s t new [] ∧ StopOk s w ∧ w.isCut := by
  induction is generalizing s failed with
  | nil =>
    exact ⟨false, by simp, (Calm.refl h).went, ⟨rfl, rfl, rfl⟩, fun _ _ => rfl, by simp, by simp⟩
  | cons i is ih =>
    obtain ⟨hi, hnd'⟩ := List.nodup_cons.1 hnd
    unfold overSlots
    refine Txn.Spec.andThen ((hf s i h).mono (fun _ _ hw => hw) ?_) ?_
    · rintro w t ⟨h1, -, h3, h4⟩
      exact ⟨false, h1, h3, h4⟩
    · rintro ok t ⟨hw, hstats, hothers, hclean, hfail⟩
      refine (ih hnd' (failed || !ok) hw.inv).mono ?_ ?_
      · rintro failed' u ⟨new, rfl, hw', hstats', hsame, hmem, hq⟩
        refine ⟨!ok || new, by rw [Bool.or_assoc], by simpa using hw.trans hw', hstats.trans hstats', ?_, ?_, ?_⟩
        · intro j hj
          rw [List.mem_cons, not_or] at hj
          rw [hsame j hj.2, hothers j hj.1]
        · intro j hjm
          rcases List.mem_cons.1 hjm with rfl | hj
          · rw [hsame j hi]
            cases ok with
            | true => exact .inl (hclean rfl)
            | false =>
              obtain ⟨h1, h2, h3, -, h5⟩ := hfail rfl
              refine .inr ⟨rfl, h1, h2, h3, fun records hr => ?_⟩
              obtain ⟨more, hmore, -⟩ := hw'.errors
              rw [hmore, h5, List.append_assoc, List.append_cancel_left_eq] at hr
              rw [← hr]
              exact List.mem_append_left _ (List.mem_singleton.2 rfl)
          · have hji : j ≠ i := by rintro rfl; exact hi hj
            have hm := hmem j hj
            rw [hothers j hji] at hm
            rcases hm with hm | ⟨h0, hm⟩
            · exact .inl hm
            · refine .inr ⟨by simp [h0], hm.1, hm.2.1, hm.2.2.1, fun records hr => ?_⟩
              obtain ⟨first, hfirst, -⟩ := hw.errors
              obtain ⟨more, hmore, -⟩ := hw'.errors
              rw [hmore, hfirst, List.append_assoc, List.append_cancel_left_eq] at hr
              rw [← hr]
              exact List.mem_append_right _ (hm.2.2.2 more hmore)
        · intro hn hquiet
          cases ok with
          | true => exact hq (by simpa using hn) (hw.left.quiet hquiet)
          | false => exact (hfail rfl).2.2.2.1 hquiet
      · rintro w u ⟨new, hw', hstop, hb⟩
        exact ⟨!ok || new, by simpa using hw.trans hw', hw.stopOk hstop, hb⟩

/-- All a sweep of every slot can do (R97, R98). -/
theorem sweep_spec {f : Nat → State → Txn Bool} {g : Slot → Slot} (hf : SweepsSlot f g) (h : Inv s) :
    (sweep f s).Spec
      (fun r t => ∃ failed, r = sweepResponse failed ∧ Went s t failed [] ∧ SameStats s t ∧
        (∀ j < s.cfg.numLines, t.slot j = g (s.slot j) ∨
          (failed = true ∧ t.slot j = s.slot j ∧ (s.slot j).valid = true ∧ (s.slot j).dirty = true ∧
            ∀ records, t.errLog = s.errLog ++ records → ⟨.io, (s.slot j).tag⟩ ∈ records)) ∧
        (failed = true → ¬ s.quiet))
      fun w t => ∃ failed, Went s t failed [] ∧ StopOk s w ∧ w.isCut := by
  unfold sweep
  refine Txn.Spec.andThen ((overSlots_spec hf _ List.nodup_range false h).mono (fun _ _ hq => hq) ?_) ?_
  · rintro w t ⟨new, hw⟩
    exact ⟨new, hw⟩
  · rintro failed t ⟨new, hn, hw, hstats, -, hmem, hq⟩
    rw [Bool.false_or] at hn
    subst hn
    exact ⟨failed, rfl, hw, hstats, fun j hj => hmem j (List.mem_range.2 hj), hq⟩

/-- With no dirty slot the core sees the image (R54: after FLUSH_ALL `BS[o] = M(o)`). -/
theorem Inv.view_clean (h : Inv s) (hc : Coherent s) (hd : ∀ x ∈ s.slots, x.dirty = false) (o : Nat) :
    s.view o = s.bs.read o := by
  by_cases hres : ∃ j, (s.slot j).valid = true ∧ (s.slot j).tag.toNat = s.cfg.tagOf o
  · obtain ⟨j, hv, ht⟩ := hres
    have hm := State.slot_mem (State.lt_of_valid hv)
    rw [h.view_resident hv ht, hc _ hm hv (hd _ hm), Memory.getD_readBytes _ _ (s.cfg.idxOf_lt o), ht,
      Config.tagOf_add_idxOf]
  · refine State.view_absent ?_
    rintro x hx hxv hxt
    obtain ⟨j, -, rfl⟩ := State.slot_of_mem hx
    exact hres ⟨j, hxv, hxt⟩

/-! ### The DBG_STR stream -/

/-- The string at RAM offset `p`, with `n` bytes of RAM left: the bytes before the first NUL (R133). -/
def State.stringAt (s : State) (p n : Nat) : List Byte := (s.viewBytes p n).takeWhile (· != 0#8)

theorem State.viewBytes_succ (s : State) (p n : Nat) : s.viewBytes p (n + 1) = s.view p :: s.viewBytes (p + 1) n := by
  rw [Nat.add_comm n 1, State.viewBytes_add]
  simp [State.viewBytes]

/-- The first byte and the rest of a string. -/
theorem State.stringAt_succ (s : State) (p n : Nat) : s.stringAt p (n + 1) =
    if s.view p = 0#8 then [] else s.view p :: s.stringAt (p + 1) n := by
  rw [State.stringAt, State.viewBytes_succ, List.takeWhile_cons]
  by_cases h : s.view p = 0#8 <;> simp [h, State.stringAt]

theorem State.stringAt_congr (h : ∀ o, t.view o = s.view o) (p n : Nat) : t.stringAt p n = s.stringAt p n := by
  rw [State.stringAt, State.viewBytes_congr h]
  rfl

/-- All the stream can do (R133): where it goes on, it emitted the string and read its NUL if there is one; where it
raises, it emitted a prefix of it and the byte after that prefix is the one that could not be read. -/
theorem streamString_spec (n p : Nat) (h : Inv s) (hp : p + n ≤ s.cfg.ramSize) :
    (streamString n p s).Spec
      (fun _ t => ∃ out, Went s t false out ∧ (Coherent s → out = s.stringAt p n) ∧
        t.conAnswers = s.conAnswers.drop out.length ∧
        t.accesses = s.accesses + BitVec.ofNat 64 (min n (out.length + 1)) ∧ Counted s t (min n (out.length + 1)))
      fun w t => ∃ out, Went s t false out ∧ StopOk s w ∧ (Coherent s → out <+: s.stringAt p n) ∧ Counted s t n ∧
        (∀ k info, w = .fault k info → out.length < n ∧ t.conAnswers = s.conAnswers.drop out.length ∧
          t.accesses = s.accesses + BitVec.ofNat 64 (out.length + 1)) := by
  induction n generalizing s p with
  | zero => exact ⟨[], (Calm.refl h).went, fun _ => rfl, by simp, by simp, by simpa using Counted.refl s⟩
  | succ n ih =>
    unfold streamString
    have hone : (s.cfg.pieces p 1).length = 1 := by
      have := s.cfg.idxOf_lt p
      unfold Config.pieces
      rw [if_pos (by omega)]
      rfl
    refine Txn.Spec.andThen ((readPieces_spec _ h
      (Config.pieces_inside h.cfg_wf (o := p) (n := 1) (by omega) (by omega) (by omega))).mono (fun _ _ hq => hq) ?_) ?_
    · rintro w t ⟨h1, h2, h3, q, hq, ha⟩
      rw [hone] at h3 hq
      obtain rfl : q = 0 := by omega
      exact ⟨[], h1.went, h2, fun _ => List.nil_prefix, h3.mono (by omega), fun _ _ _ =>
        ⟨by simp, by simp [h1.inner.rest.conDraws], ha⟩⟩
    · rintro bytes t ⟨hcalm, hbytes, ha, hcount⟩
      rw [hone] at ha hcount
      have hb : Coherent s → bytes.headD 0#8 = s.view p := fun hc => by
        rw [hbytes hc, State.viewPieces]; simp [State.viewBytes]
      have hcon := hcalm.inner.rest.conDraws
      simp only
      split
      · next hz =>
        refine ⟨[], hcalm.went, fun hc => ?_, by simp [hcon], by simpa using ha, by simpa using hcount⟩
        rw [State.stringAt_succ, ← hb hc, if_pos hz]
      · next hz =>
        have hstr : ∀ {u : State} {out : List Byte}, (∀ o, u.view o = s.view o) → Coherent s →
            out <+: u.stringAt (p + 1) n → bytes.headD 0#8 :: out <+: s.stringAt p (n + 1) := by
          intro u out hv hc ho
          rw [State.stringAt_succ, ← hb hc, if_neg hz, ← State.stringAt_congr hv]
          exact List.cons_prefix_cons.2 ⟨rfl, ho⟩
        refine Txn.Spec.andThen ((emit_spec (bytes.headD 0#8)).mono (fun _ _ hq => hq) ?_) ?_
        · rintro w u ⟨rfl, hstop, hcut⟩
          have hw := hcalm.went.trans (Went.drewConsole hcalm.inv [])
          simp only [List.append_nil] at hw
          refine ⟨[], by simpa using hw, hcalm.stopOk hstop, fun _ => List.nil_prefix,
            (hcount.congr (s := s) (t := t) rfl rfl).mono (by omega), ?_⟩
          rintro k info rfl
          exact hcut.elim
        · rintro _ u rfl
          have hemit := hcalm.went.trans (Went.drewConsole hcalm.inv [bytes.headD 0#8])
          refine (ih (p + 1) hemit.inv (by rw [hemit.cfg]; omega)).mono ?_ ?_
          · rintro _ u ⟨out, hw, ho, hd, ha', hcount'⟩
            refine ⟨bytes.headD 0#8 :: out, by simpa using hemit.trans hw, fun hc => ?_, ?_, ?_, ?_⟩
            · rw [ho (hemit.coherent hc), State.stringAt_succ, ← hb hc, if_neg hz,
                State.stringAt_congr (hemit.view hc)]
            · rw [hd, ← hcon, List.length_cons, List.drop_tail]
            · rw [ha', ha, BitVec.add_assoc, ← BitVec.ofNat_add, List.length_cons]
              congr 2
              omega
            · refine (hcount.trans (hcount'.congr (s := t) rfl rfl)).mono ?_
              rw [List.length_cons]
              omega
          · rintro w u ⟨out, hw, hstop, ho, hcount', hf⟩
            refine ⟨bytes.headD 0#8 :: out, by simpa using hemit.trans hw, hemit.stopOk hstop,
              fun hc => hstr (hemit.view hc) hc (ho (hemit.coherent hc)),
              (hcount.trans (hcount'.congr (s := t) rfl rfl)).mono (by omega), fun k info he => ?_⟩
            obtain ⟨h1, h2, h3⟩ := hf k info he
            refine ⟨by simpa using h1, ?_, ?_⟩
            · rw [h2, ← hcon, List.length_cons, List.drop_tail]
            · rw [h3, ha, BitVec.add_assoc, ← BitVec.ofNat_add, List.length_cons]
              congr 2
              omega

end Sys2Proof.Machine
end

