-- ==== Sys2Proof/Laws/Step.lean ====
section
/-! SUPPORT. What a step can do: the equation of each kind of input, and the one inversion lemma. -/

namespace Sys2Proof.Machine

open Sys2Proof

variable {s t : State}

theorem configured_wf (h : s.cfg.wf) (k : State → Host.Outcome State Fault Refusal) : configured s k = k s := if_pos h

theorem configured_not_wf (h : ¬ s.cfg.wf) (k : State → Host.Outcome State Fault Refusal) :
    configured s k = .refused .badConfiguration := if_neg h

theorem accept_open (h : s.halted = false) (hr : s.released = false) (k : State → Host.Outcome State Fault Refusal) :
    accept s k = k s := by
  simp [accept, h, hr]

theorem accept_halted (h : s.halted = true) (k : State → Host.Outcome State Fault Refusal) :
    accept s k = .fault .halted := by
  simp [accept, h]

theorem accept_released (h : s.halted = false) (hr : s.released = true)
    (k : State → Host.Outcome State Fault Refusal) : accept s k = .fault .released := by
  simp [accept, h, hr]

theorem accept_next {k : State → Host.Outcome State Fault Refusal} (h : accept s k = .next t) :
    s.halted = false ∧ s.released = false ∧ k s = .next t := by
  unfold accept at h
  split at h
  · cases h
  · split at h
    · cases h
    · simp_all

/-- Serving a host event. -/
theorem serve_host {e : HostEvent} {rest : List Input} (hw : s.cfg.wf) (h : s.inputs = .host e :: rest) :
    serve s = hostStep e (s.setInputs rest) := by
  unfold serve
  rw [h]
  exact configured_wf (s := s.setInputs rest) hw _

/-- Serving a request. -/
theorem serve_request {r : Request} {rest : List Input} (hw : s.cfg.wf) (h : s.inputs = .request r :: rest) :
    serve s = accept (s.setInputs rest) fun s1 => exec (decode s1.decodeCtx r) (s1.noteRequest r.port) := by
  unfold serve
  rw [h]
  exact configured_wf (s := s.setInputs rest) hw _

/-- With no unsettled line a step is what was served. -/
theorem drift_settled (h : s.unsettled = []) : s.drift = s := if_pos h

theorem drifted_settled {o : Host.Outcome State Fault Refusal} (h : ∀ t, o = .next t → t.unsettled = []) :
    drifted o = o := by
  cases o with
  | next t => exact congrArg _ (drift_settled (h t rfl))
  | fault f => rfl
  | refused r => rfl

/-- A step that goes on served its input and then drew the unsettled lines. -/
theorem step_next (h : step s = .next t) : ∃ u, serve s = .next u ∧ t = u.drift := by
  unfold step at h
  cases he : serve s with
  | next u =>
    rw [he] at h
    injection h with h
    exact ⟨u, rfl, h.symm⟩
  | fault f => rw [he] at h; cases h
  | refused r => rw [he] at h; cases h

/-- All that serving an input can do where it goes on. -/
theorem serve_cases (h : serve s = .next t) :
    (s.inputs = [] ∧ t = s) ∨
    (∃ e rest, s.inputs = .host e :: rest ∧ s.cfg.wf ∧ hostStep e (s.setInputs rest) = .next t) ∨
    ∃ r rest, s.inputs = .request r :: rest ∧ s.cfg.wf ∧
      exec (decode (s.setInputs rest).decodeCtx r) ((s.setInputs rest).noteRequest r.port) = .next t := by
  by_cases hw : s.cfg.wf
  · cases hi : s.inputs with
    | nil =>
      unfold serve at h
      rw [hi] at h
      injection h with h
      exact .inl ⟨rfl, h.symm⟩
    | cons x rest =>
      cases x with
      | host e => exact .inr (.inl ⟨e, rest, rfl, hw, (serve_host hw hi).symm.trans h⟩)
      | request r => exact .inr (.inr ⟨r, rest, rfl, hw, (accept_next ((serve_request hw hi).symm.trans h)).2.2⟩)
  · unfold serve at h
    split at h
    · next hi =>
      injection h with h
      exact .inl ⟨hi, h.symm⟩
    · next rest _ => rw [configured_not_wf (s := s.setInputs rest) hw] at h; cases h
    · next rest _ => rw [configured_not_wf (s := s.setInputs rest) hw] at h; cases h

end Sys2Proof.Machine
end

