-- ==== Sys2Proof/Laws/Host.lean ====
section
/-! SUPPORT. The laws of power-on reset, RESTART and the writes of the image by another agent
(spec/70_reset_and_hazards.md R190, R193, R195, R201). -/

namespace Sys2Proof.Machine

open Sys2Proof

variable {s t : State}

/-! ### A cache with no valid slot -/

theorem State.empty.view (h : s.empty) (o : Nat) : s.view o = s.bs.read o :=
  State.view_absent fun x hx hv => by simp [h x hx] at hv

theorem State.empty.coherent (h : s.empty) : Coherent s := fun x hx hv => by simp [h x hx] at hv

theorem State.mayBulkLoad_iff : s.mayBulkLoad = true ↔ s.booting = true ∧ s.empty := by
  simp [State.mayBulkLoad, State.empty]

/-- A request on the core port ends the time of the bulk load; no other request does. -/
theorem State.noteRequest_eq (p : Port) :
    s.noteRequest p = { s with booting := if p = .core then false else s.booting } := by
  unfold State.noteRequest
  cases p <;> simp

theorem State.empty_powerOn (s : State) (ok : Bool) : (s.powerOn ok).empty := by
  intro x hx
  rw [(List.mem_replicate.1 hx).2]
  rfl

theorem State.empty_restartBlock (s : State) : s.restartBlock.empty := by
  intro x hx
  obtain ⟨y, -, rfl⟩ := List.mem_map.1 hx
  rfl

theorem State.mayBulkLoad_powerOn (s : State) (ok : Bool) : (s.powerOn ok).mayBulkLoad = true :=
  State.mayBulkLoad_iff.2 ⟨rfl, State.empty_powerOn s ok⟩

theorem State.mayBulkLoad_restartBlock (s : State) : s.restartBlock.mayBulkLoad = true :=
  State.mayBulkLoad_iff.2 ⟨rfl, State.empty_restartBlock s⟩

/-- A state with no valid slot meets the invariant when its shape does. -/
theorem Inv.of_empty (hc : s.cfg.wf) (he : s.empty) (hs : s.slots.length = s.cfg.numLines)
    (hd : ∀ x ∈ s.slots, x.data.length = s.cfg.lineSize ∧ x.dirty = false)
    (hl : s.lru.Perm (List.range s.cfg.numLines)) (hw : s.bs.wf = true) (hb : ∀ c ∈ s.bs, c.1 < s.cfg.ramSize) :
    Inv s where
  cfg_wf := hc
  slot_count := hs
  line_length x hx := (hd x hx).1
  tag_unique i _ _ _ hv := by
    have := he _ (State.slot_mem (State.lt_of_valid hv))
    simp [this] at hv
  tag_aligned x hx hv := by simp [he x hx] at hv
  dirty_valid x hx hv := by simp [(hd x hx).2] at hv
  lru_perm := hl
  image_wf := hw
  image_bound := hb

theorem Inv.powerOn (h : Inv s) (ok : Bool) : Inv (s.powerOn ok) := by
  refine Inv.of_empty h.cfg_wf (State.empty_powerOn s ok) (by simp [State.powerOn]) ?_ (List.Perm.refl _)
    h.image_wf h.image_bound
  intro x hx
  rw [(List.mem_replicate.1 hx).2]
  exact ⟨List.length_replicate, rfl⟩

theorem Inv.restartBlock (h : Inv s) : Inv s.restartBlock := by
  refine Inv.of_empty h.cfg_wf (State.empty_restartBlock s) (by simp [State.restartBlock, h.slot_count]) ?_
    h.lru_perm h.image_wf h.image_bound
  intro x hx
  obtain ⟨y, hy, rfl⟩ := List.mem_map.1 hx
  exact ⟨h.line_length y hy, rfl⟩

/-! ### Setting one byte of the RAM view (R201) -/

theorem Inv.setView (h : Inv s) {o : Nat} (ho : o < s.cfg.ramSize) (b : Byte) : Inv (s.setView o b) := by
  unfold State.setView
  split
  · next i hi =>
    obtain ⟨-, hv, -⟩ := State.lookup_some hi
    refine h.setSlot_same rfl (fun _ => hv) ?_ (fun _ => hv)
    rw [List.length_set]
    exact h.data_length i
  · have := h.setBs_writeBytes (o := o) (bytes := [b]) (by simpa using ho)
    simpa [Memory.writeBytes] using this

/-- The byte set reads back; every other byte is as before. -/
theorem Inv.view_setView (h : Inv s) (o p : Nat) (b : Byte) :
    (s.setView o b).view p = if p = o then b else s.view p := by
  have hidx := s.cfg.idxOf_lt o
  have hop := s.cfg.tagOf_add_idxOf o
  have hpp := s.cfg.tagOf_add_idxOf p
  unfold State.setView
  split
  · next i hi =>
    obtain ⟨hlt, hv, htag⟩ := State.lookup_some hi
    have hlen := h.data_length i
    have hinv : Inv (s.setSlot i { s.slot i with data := (s.slot i).data.set (s.cfg.idxOf o) b }) :=
      h.setSlot_same rfl (fun _ => hv) (by rw [List.length_set]; exact hlen) (fun _ => hv)
    by_cases hline : s.cfg.tagOf p = s.cfg.tagOf o
    · have hslot := State.slot_setSlot_same hlt { s.slot i with data := (s.slot i).data.set (s.cfg.idxOf o) b }
      rw [hinv.view_resident (i := i) (by rw [hslot]; exact hv) (by rw [hslot, State.setSlot_cfg, hline]; exact htag),
        h.view_resident hv (htag.trans hline.symm), hslot, State.setSlot_cfg]
      simp only [List.getD_eq_getElem?_getD, List.getElem?_set, hlen, hidx, if_true]
      by_cases hpo : p = o
      · subst hpo
        simp
      · rw [if_neg (by omega), if_neg hpo]
    · rw [if_neg (by rintro rfl; exact hline rfl)]
      by_cases hres : ∃ j, (s.slot j).valid = true ∧ (s.slot j).tag.toNat = s.cfg.tagOf p
      · obtain ⟨j, hjv, hjt⟩ := hres
        have hji : j ≠ i := by rintro rfl; exact hline (hjt.symm.trans htag)
        have hslot := State.slot_setSlot_other hji (s := s)
          { s.slot i with data := (s.slot i).data.set (s.cfg.idxOf o) b }
        rw [hinv.view_resident (i := j) (by rw [hslot]; exact hjv) (by rw [hslot]; exact hjt),
          h.view_resident hjv hjt, hslot, State.setSlot_cfg]
      · rw [State.view_absent, State.view_absent]
        · rfl
        · rintro x hx hxv hxt
          obtain ⟨j, -, rfl⟩ := State.slot_of_mem hx
          exact hres ⟨j, hxv, hxt⟩
        · rintro x hx hxv hxt
          rcases State.mem_setSlot hx with rfl | hx
          · exact hline (hxt.symm.trans htag)
          · obtain ⟨j, -, rfl⟩ := State.slot_of_mem hx
            exact hres ⟨j, hxv, hxt⟩
  · next hi =>
    by_cases hline : s.cfg.tagOf p = s.cfg.tagOf o
    · have habs : ∀ x ∈ s.slots, x.valid = true → x.tag.toNat ≠ s.cfg.tagOf p :=
        fun x hx hv => hline ▸ State.lookup_none hi hx hv
      have h1 : (s.setBs (s.bs.write o b)).view p = (s.bs.write o b).read p := State.view_absent habs
      rw [h1, State.view_absent habs]
      exact Memory.read_write h.image_wf o p b
    · rw [if_neg (by rintro rfl; exact hline rfl)]
      unfold State.view
      rw [State.lookup_congr (State.setBs_slots s _)]
      simp only [State.setBs_cfg]
      split
      · rfl
      · exact Memory.read_write_other _ _ (by rintro rfl; exact hline rfl)

/-! ### Unsettled lines (R201) -/

theorem mem_touchedTags {c : Config} {offset n tag : Nat} :
    tag ∈ touchedTags c offset n ↔ ∃ j < n, c.tagOf (offset + j) = tag := by
  simp [touchedTags]

theorem State.mem_unsettle {tags : List Nat} {tag : Nat} :
    tag ∈ (s.unsettle tags).unsettled ↔ tag ∈ tags ∨ tag ∈ s.unsettled := by
  rw [State.unsettle_unsettled]
  induction tags with
  | nil => simp
  | cons a tags ih => rw [List.foldr_cons, List.mem_insert_iff, ih, List.mem_cons, or_assoc]

theorem State.unsettledAt_iff {o : Nat} : s.unsettledAt o = true ↔ o < s.cfg.ramSize ∧ s.cfg.tagOf o ∈ s.unsettled := by
  simp [State.unsettledAt]

/-- Drawing an unsettled line changes no field but the slots' bytes, the image and the draws, and the image nowhere
outside the unsettled lines. -/
structure Redrawn (s t : State) : Prop where
  same  : t = { s with slots := t.slots, bs := t.bs, draws := t.draws }
  slots : t.slots.map (fun x => (x.valid, x.tag, x.dirty)) = s.slots.map fun x => (x.valid, x.tag, x.dirty)
  image : ∀ p, s.unsettledAt p = false → t.bs.read p = s.bs.read p

theorem Redrawn.cfg (h : Redrawn s t) : t.cfg = s.cfg := by rw [h.same]

theorem Redrawn.unsettled (h : Redrawn s t) : t.unsettled = s.unsettled := by rw [h.same]

theorem Redrawn.unsettledAt (h : Redrawn s t) (p : Nat) : t.unsettledAt p = s.unsettledAt p := by
  simp only [State.unsettledAt, h.cfg, h.unsettled]

theorem Redrawn.refl (s : State) : Redrawn s s := ⟨rfl, rfl, fun _ _ => rfl⟩

theorem Redrawn.trans {u : State} (h : Redrawn s t) (h' : Redrawn t u) : Redrawn s u where
  same := by rw [h'.same, h.same]
  slots := by rw [h'.slots, h.slots]
  image p hp := by rw [h'.image p (by rw [h.unsettledAt, hp]), h.image p hp]

/-- Setting a slot to one with the same line, valid and dirty bits keeps what the slots hold. -/
theorem State.map_set_slot {β : Type} {f : Slot → β} {i : Nat} {x : Slot} (hx : f x = f (s.slot i)) :
    (s.slots.set i x).map f = s.slots.map f := by
  rw [List.map_set]
  refine List.ext_getElem (by simp) fun j h1 h2 => ?_
  rw [List.getElem_set]
  split
  · next h =>
    subst h
    have hi : i < s.slots.length := by simpa using h2
    simp [hx, State.slot, List.getD_eq_getElem?_getD, hi]
  · rfl

theorem read_write_settled {o p : Nat} (ho : s.unsettledAt o = true) (hp : s.unsettledAt p = false) (b : Byte) :
    (s.bs.write o b).read p = s.bs.read p := by
  refine Memory.read_write_other _ _ ?_
  rintro rfl
  rw [ho] at hp
  cases hp

theorem Redrawn.setView {o : Nat} (ho : s.unsettledAt o = true) (b : Byte) : Redrawn s (s.setView o b) := by
  unfold State.setView
  split
  · exact ⟨rfl, State.map_set_slot rfl, fun _ _ => rfl⟩
  · exact ⟨rfl, rfl, fun _ hp => read_write_settled ho hp b⟩

theorem Redrawn.setImage {o : Nat} (ho : s.unsettledAt o = true) (b : Byte) :
    Redrawn s (s.setBs (s.bs.write o b)) := ⟨rfl, rfl, fun _ hp => read_write_settled ho hp b⟩

theorem Redrawn.drawImage (cells : List Host.Cell) (s : State) : Redrawn s (s.drawImage cells) := by
  induction cells generalizing s with
  | nil => exact .refl s
  | cons c cells ih =>
    unfold State.drawImage
    split
    · next ho => exact (Redrawn.setImage ho c.2).trans (ih _)
    · exact ih s

theorem Redrawn.drawView (cells : List Host.Cell) (s : State) : Redrawn s (s.drawView cells) := by
  induction cells generalizing s with
  | nil => exact .refl s
  | cons c cells ih =>
    unfold State.drawView
    split
    · next ho => exact (Redrawn.setView ho c.2).trans (ih _)
    · exact ih s

theorem Redrawn.dropDraw (s : State) : Redrawn s s.dropDraw := ⟨rfl, rfl, fun _ _ => rfl⟩

/-- All a drift can change, in every state. -/
theorem Redrawn.drift (s : State) : Redrawn s s.drift := by
  unfold State.drift
  split
  · exact .refl s
  · exact (Redrawn.dropDraw s).trans ((Redrawn.drawImage _ _).trans (Redrawn.drawView _ _))

/-- The invariant holds, and what the core sees in the settled lines is as in `s`. -/
structure SeesSettled (s t : State) : Prop where
  inv  : Inv t
  view : ∀ p, s.unsettledAt p = false → t.view p = s.view p

theorem SeesSettled.trans {u : State} (h : SeesSettled s t) (hr : Redrawn s t) (h' : SeesSettled t u) :
    SeesSettled s u :=
  ⟨h'.inv, fun p hp => by rw [h'.view p (by rw [hr.unsettledAt, hp]), h.view p hp]⟩

theorem SeesSettled.setView (h : Inv s) {o : Nat} (ho : s.unsettledAt o = true) (b : Byte) :
    SeesSettled s (s.setView o b) :=
  ⟨h.setView (State.unsettledAt_iff.1 ho).1 b, fun p hp => by
    rw [h.view_setView, if_neg]
    rintro rfl
    rw [ho] at hp
    cases hp⟩

theorem SeesSettled.setImage (h : Inv s) {o : Nat} (ho : s.unsettledAt o = true) (b : Byte) :
    SeesSettled s (s.setBs (s.bs.write o b)) := by
  refine ⟨?_, fun p hp => ?_⟩
  · have := h.setBs_writeBytes (o := o) (bytes := [b]) (by simpa using (State.unsettledAt_iff.1 ho).1)
    simpa [Memory.writeBytes] using this
  · unfold State.view
    rw [State.lookup_congr (State.setBs_slots s _)]
    simp only [State.setBs_cfg]
    split
    · rfl
    · exact read_write_settled ho hp b

theorem SeesSettled.drawImage (cells : List Host.Cell) (h : Inv s) : SeesSettled s (s.drawImage cells) := by
  induction cells generalizing s with
  | nil => exact ⟨h, fun _ _ => rfl⟩
  | cons c cells ih =>
    unfold State.drawImage
    split
    · next ho =>
      have h1 := SeesSettled.setImage h ho c.2
      exact h1.trans (Redrawn.setImage ho c.2) (ih h1.inv)
    · exact ih h

theorem SeesSettled.drawView (cells : List Host.Cell) (h : Inv s) : SeesSettled s (s.drawView cells) := by
  induction cells generalizing s with
  | nil => exact ⟨h, fun _ _ => rfl⟩
  | cons c cells ih =>
    unfold State.drawView
    split
    · next ho =>
      have h1 := SeesSettled.setView h ho c.2
      exact h1.trans (Redrawn.setView ho c.2) (ih h1.inv)
    · exact ih h

theorem Inv.dropDraw (h : Inv s) : Inv s.dropDraw := h.congr rfl rfl rfl rfl

/-- A drift keeps the invariant and every byte the core sees in the settled lines. -/
theorem SeesSettled.drift (h : Inv s) : SeesSettled s s.drift := by
  unfold State.drift
  split
  · exact ⟨h, fun _ _ => rfl⟩
  · have h1 : SeesSettled s s.dropDraw := ⟨h.dropDraw, fun _ _ => State.view_congr rfl rfl rfl _⟩
    exact h1.trans (Redrawn.dropDraw s) ((SeesSettled.drawImage _ h1.inv).trans (Redrawn.drawImage _ _)
      (SeesSettled.drawView _ (SeesSettled.drawImage _ h1.inv).inv))

/-- A byte no cell names stays as it was. -/
theorem view_drawView_other (cells : List Host.Cell) (h : Inv s) {p : Nat} (hp : p ∉ cells.map (·.1)) :
    (s.drawView cells).view p = s.view p := by
  induction cells generalizing s with
  | nil => rfl
  | cons c cells ih =>
    simp only [List.map_cons, List.mem_cons, not_or] at hp
    unfold State.drawView
    split
    · next ho => rw [ih (SeesSettled.setView h ho c.2).inv hp.2, h.view_setView, if_neg hp.1]
    · exact ih h hp.2

/-- Every byte drawn in an unsettled line is what the core sees. -/
theorem view_drawView (cells : List Host.Cell) (h : Inv s) (hd : (cells.map (·.1)).Nodup) :
    ∀ c ∈ cells, s.unsettledAt c.1 = true → (s.drawView cells).view c.1 = c.2 := by
  induction cells generalizing s with
  | nil => simp
  | cons x cells ih =>
    obtain ⟨hx, hd'⟩ := List.nodup_cons.1 (by simpa using hd : (x.1 :: cells.map (·.1)).Nodup)
    intro c hc hu
    unfold State.drawView
    rcases List.mem_cons.1 hc with rfl | hc
    · rw [if_pos hu, view_drawView_other cells (SeesSettled.setView h hu c.2).inv hx, h.view_setView, if_pos rfl]
    · split
      · next ho =>
        exact ih (SeesSettled.setView h ho x.2).inv hd' c hc (by rw [(Redrawn.setView ho x.2).unsettledAt, hu])
      · exact ih h hd' c hc hu

/-- After a step an unsettled byte is what was drawn for it. -/
theorem view_drift (h : Inv s) {d : LineDraw} {more : List LineDraw} (hs : s.draws = d :: more)
    (hd : (d.view.map (·.1)).Nodup) : ∀ c ∈ d.view, s.unsettledAt c.1 = true → s.drift.view c.1 = c.2 := by
  intro c hc hu
  have hn : s.unsettled ≠ [] := by
    intro hn
    simp [State.unsettledAt, hn] at hu
  rw [State.drift, if_neg hn, hs]
  exact view_drawView d.view (SeesSettled.drawImage _ h.dropDraw).inv hd c hc (by
    rw [← hu]
    exact ((Redrawn.dropDraw s).trans (Redrawn.drawImage _ _)).unsettledAt _)

/-! ### Writes of the image -/

/-- A write of the image changes no byte the core sees outside its range. -/
theorem view_imageWrite (h : Inv s) {offset : Nat} (bytes : List Byte) {p : Nat}
    (hp : p < offset ∨ offset + bytes.length ≤ p) :
    (s.setBs (s.bs.writeBytes offset bytes)).view p = s.view p := by
  unfold State.view
  rw [State.lookup_congr (State.setBs_slots s _)]
  simp only [State.setBs_cfg]
  split
  · rfl
  · exact Memory.read_writeBytes_outside h.image_wf hp

theorem writeImage_bulk {offset : Nat} {bytes : List Byte} (h : s.mayBulkLoad = true)
    (hr : offset + bytes.length ≤ s.cfg.ramSize) :
    writeImage offset bytes s = .next (s.setBs (s.bs.writeBytes offset bytes)) := by
  simp [writeImage, h, hr]

theorem writeImage_breach {offset : Nat} {bytes : List Byte} (h : s.mayBulkLoad = false)
    (hr : offset + bytes.length ≤ s.cfg.ramSize) :
    writeImage offset bytes s = .next
      ((s.setBs (s.bs.writeBytes offset bytes)).unsettle (touchedTags s.cfg offset bytes.length)) := by
  simp [writeImage, h, hr]

theorem writeImage_past {offset : Nat} {bytes : List Byte} (hr : s.cfg.ramSize < offset + bytes.length) :
    writeImage offset bytes s = .fault .imageWriteOutOfRange := if_pos hr

theorem writeImage_inv {offset : Nat} {bytes : List Byte} (h : Inv s) (hw : writeImage offset bytes s = .next t) :
    Inv t := by
  unfold writeImage at hw
  split at hw
  · cases hw
  · next hr =>
    have h1 := h.setBs_writeBytes (o := offset) (bytes := bytes) (by omega)
    injection hw with hw
    subst hw
    split
    · exact h1
    · exact h1.congr rfl rfl rfl rfl

/-- The bulk loads of a boot, while they may be made and with every part in range. -/
theorem loadImage_eq (image : List (Nat × List Byte)) (he : s.mayBulkLoad = true)
    (h : ∀ part ∈ image, part.1 + part.2.length ≤ s.cfg.ramSize) :
    loadImage image s = .next { s with bs := image.foldl (fun m part => m.writeBytes part.1 part.2) s.bs } := by
  induction image generalizing s with
  | nil => rfl
  | cons part parts ih =>
    rw [loadImage, writeImage_bulk he (h part (by simp))]
    exact ih (s := s.setBs (s.bs.writeBytes part.1 part.2)) he fun q hq => h q (by simp [hq])

/-- Where a boot goes on, every part was in range. -/
theorem loadImage_next {image : List (Nat × List Byte)} (he : s.mayBulkLoad = true) (h : loadImage image s = .next t) :
    (∀ part ∈ image, part.1 + part.2.length ≤ s.cfg.ramSize) ∧
      t = { s with bs := image.foldl (fun m part => m.writeBytes part.1 part.2) s.bs } := by
  have hr : ∀ part ∈ image, part.1 + part.2.length ≤ s.cfg.ramSize := by
    induction image generalizing s with
    | nil => simp
    | cons part parts ih =>
      rw [loadImage] at h
      by_cases hp : s.cfg.ramSize < part.1 + part.2.length
      · rw [writeImage_past hp] at h
        cases h
      · rw [writeImage_bulk he (by omega)] at h
        intro q hq
        rcases List.mem_cons.1 hq with rfl | hq
        · omega
        · exact ih (s := s.setBs (s.bs.writeBytes part.1 part.2)) he h q hq
  refine ⟨hr, ?_⟩
  rw [loadImage_eq image he hr] at h
  injection h with h
  exact h.symm

end Sys2Proof.Machine
end

