-- ==== Sys2Proof/Laws/Exec.lean ====
section
/-! SUPPORT. How the meanings that reach the cache end: `conclude` on a specified transaction, and one outcome lemma
each for the RAM rows, DBG_STR and the sweeps. -/

namespace Sys2Proof.Machine

open Sys2Proof

variable {s t : State}

/-- All the end of a transaction can be: its response, or what its stop makes of the state it stopped in. -/
theorem conclude_spec {r : Txn Response} {Q : Response → State → Prop} {E : Stop → State → Prop} (h : r.Spec Q E) :
    (∃ resp u, Q resp u ∧ conclude r = .next (u.setResp (some resp))) ∨
    ∃ w u, E w u ∧ conclude r = conclude (.stop w u) := by
  cases r with
  | done resp u => exact .inl ⟨resp, u, h, rfl⟩
  | stop w u => exact .inr ⟨w, u, h, rfl⟩

/-- A transaction that raises, and goes on nowhere else while the draws are uncut. -/
theorem StopOk.uncut {w : Stop} (h : StopOk s w) (hu : s.uncut) : ∃ info, w = .fault .io info ∧
    info.toNat % s.cfg.lineSize = 0 ∧ info.toNat < s.cfg.ramSize := by
  cases w with
  | fault k info =>
    obtain ⟨rfl, h1, h2⟩ := h.2
    exact ⟨info, rfl, h1, h2⟩
  | powerOn ok => exact absurd hu h.2
  | stuck f => exact absurd hu.dutiful h.2

/-- A host that does its duties leaves no transaction without a next state (R206). -/
theorem StopOk.dutiful {w : Stop} (h : StopOk s w) (hd : s.dutiful) (u : State) :
    ∃ t, conclude (.stop w u) = .next t := by
  cases w with
  | fault k info => exact ⟨_, rfl⟩
  | powerOn ok => exact ⟨_, rfl⟩
  | stuck f => exact absurd hd h.2

/-- The rows of `ramReads` are `ramRead` at their width. -/
theorem ramReads_exec {a : Word} {i : Instr} {n : Nat} (hi : (i, n) ∈ ramReads a) :
    n ∈ [1, 2, 4] ∧ ∀ s, exec i s = ramRead n a s := by
  simp only [ramReads, List.mem_cons, Prod.mk.injEq, List.not_mem_nil, or_false] at hi
  rcases hi with ⟨rfl, rfl⟩ | ⟨rfl, rfl⟩ | ⟨rfl, rfl⟩ | ⟨rfl, rfl⟩ <;> exact ⟨by decide, fun _ => rfl⟩

/-- The rows of `ramWrites` are `ramWrite` at their width. -/
theorem ramWrites_exec {a v : Word} {i : Instr} {n : Nat} (hi : (i, n) ∈ ramWrites a v) :
    n ∈ [1, 2, 4] ∧ ∀ s, exec i s = ramWrite n a v s := by
  simp only [ramWrites, List.mem_cons, Prod.mk.injEq, List.not_mem_nil, or_false] at hi
  rcases hi with ⟨rfl, rfl⟩ | ⟨rfl, rfl⟩ | ⟨rfl, rfl⟩ <;> exact ⟨by decide, fun _ => rfl⟩

theorem width_bounds {n : Nat} (hn : n ∈ [1, 2, 4]) : 0 < n ∧ n ≤ 4 := by
  simp only [List.mem_cons, List.not_mem_nil, or_false] at hn
  omega

theorem length_pieces_eq (c : Config) (o n : Nat) : (c.pieces o n).length = linesTouched c o n := by
  unfold Config.pieces linesTouched Config.idxOf
  split <;> rfl

/-- A read in bounds (R90 to R93): it ends after MemRead with the value of its bytes, or where MemRead stopped. -/
theorem ramRead_spec (h : Inv s) {n : Nat} (hn : n ∈ [1, 2, 4]) {a : Word} (ho : s.cfg.off a + n ≤ s.cfg.ramSize) :
    (∃ bytes u, Calm s u ∧ (Coherent s → bytes = s.viewBytes (s.cfg.off a) n) ∧
        u.accesses = s.accesses + BitVec.ofNat 64 (linesTouched s.cfg (s.cfg.off a) n) ∧ Counted s u 2 ∧
        ramRead n a s = .next (u.setResp (some ⟨leWord bytes, none, none⟩))) ∨
    ∃ w u, Calm s u ∧ StopOk s w ∧ Counted s u 2 ∧ ramRead n a s = conclude (.stop w u) := by
  obtain ⟨h0, h4⟩ := width_bounds hn
  have hspec := (memRead_spec h h0 h4 ho).andThen
    (f := fun bytes s1 => .done (⟨leWord bytes, none, none⟩ : Response) s1)
    (Q := fun resp u => ∃ bytes, resp = ⟨leWord bytes, none, none⟩ ∧ Calm s u ∧
      (Coherent s → bytes = s.viewBytes (s.cfg.off a) n) ∧
      u.accesses = s.accesses + BitVec.ofNat 64 (s.cfg.pieces (s.cfg.off a) n).length ∧ Counted s u 2)
    (fun bytes u hu => ⟨bytes, rfl, hu⟩)
  unfold ramRead
  rw [if_neg (by omega)]
  rcases conclude_spec hspec with ⟨resp, u, ⟨bytes, rfl, h1, h2, h3, h5⟩, he⟩ | ⟨w, u, ⟨h1, h2, h3⟩, he⟩
  · exact .inl ⟨bytes, u, h1, h2, by rw [h3, length_pieces_eq], h5, he⟩
  · exact .inr ⟨w, u, h1, h2, h3, he⟩

/-- A write in bounds (R94 to R96): it ends after MemWrite, or where MemWrite stopped. -/
theorem ramWrite_spec (h : Inv s) {n : Nat} (hn : n ∈ [1, 2, 4]) {a v : Word}
    (ho : s.cfg.off a + n ≤ s.cfg.ramSize) :
    (∃ u, Wrote s u (s.cfg.off a) (leBytes n v) ∧
        u.accesses = s.accesses + BitVec.ofNat 64 (linesTouched s.cfg (s.cfg.off a) n) ∧ Counted s u 2 ∧
        ramWrite n a v s = .next (u.setResp (some ⟨0#32, none, none⟩))) ∨
    ∃ w u lines, Counted s u 2 ∧ 0 < lines ∧ lines ≤ linesTouched s.cfg (s.cfg.off a) n ∧
        u.accesses = s.accesses + BitVec.ofNat 64 lines ∧
        Torn s (s.cfg.off a) (leBytes n v) (LeavesOfWrite s.cfg (s.cfg.off a) n lines) w u ∧
        ramWrite n a v s = conclude (.stop w u) := by
  obtain ⟨h0, h4⟩ := width_bounds hn
  have hspec := (memWrite_spec h v h0 h4 ho).andThen
    (f := fun _ s1 => .done (⟨0#32, none, none⟩ : Response) s1)
    (Q := fun resp u => resp = ⟨0#32, none, none⟩ ∧ Wrote s u (s.cfg.off a) (leBytes n v) ∧
      u.accesses = s.accesses + BitVec.ofNat 64 (s.cfg.pieces (s.cfg.off a) n).length ∧ Counted s u 2)
    (fun _ u hu => ⟨rfl, hu⟩)
  unfold ramWrite
  rw [if_neg (by omega)]
  rcases conclude_spec hspec with ⟨resp, u, ⟨rfl, h1, h3, h5⟩, he⟩ | ⟨w, u, ⟨h1, lines, h2, h3, h5, h6⟩, he⟩
  · exact .inl ⟨u, h1, by rw [h3, length_pieces_eq], h5, he⟩
  · exact .inr ⟨w, u, lines, h1, h2, by rwa [← length_pieces_eq], h5, h6, he⟩

/-- DBG_STR at a pointer in RAM (R133): it ends with the string emitted, or where it stopped with a prefix emitted. -/
theorem dbgStr_spec (h : Inv s) {v : Word} (hv : s.cfg.off v < s.cfg.ramSize) :
    (∃ out u, Went s u false out ∧
        (Coherent s → out = s.stringAt (s.cfg.off v) (s.cfg.ramSize - s.cfg.off v)) ∧
        u.conAnswers = s.conAnswers.drop out.length ∧
        u.accesses = s.accesses + BitVec.ofNat 64 (min (s.cfg.ramSize - s.cfg.off v) (out.length + 1)) ∧
        Counted s u (min (s.cfg.ramSize - s.cfg.off v) (out.length + 1)) ∧
        execCsrwDbgStr v s = .next (u.setResp (some ⟨0#32, none, none⟩))) ∨
    ∃ w out u, Went s u false out ∧ StopOk s w ∧
        (Coherent s → out <+: s.stringAt (s.cfg.off v) (s.cfg.ramSize - s.cfg.off v)) ∧
        Counted s u (s.cfg.ramSize - s.cfg.off v) ∧
        (∀ k info, w = .fault k info → out.length < s.cfg.ramSize - s.cfg.off v ∧
          u.conAnswers = s.conAnswers.drop out.length ∧
          u.accesses = s.accesses + BitVec.ofNat 64 (out.length + 1)) ∧
        execCsrwDbgStr v s = conclude (.stop w u) := by
  have hspec := (streamString_spec (s.cfg.ramSize - s.cfg.off v) (s.cfg.off v) h (by omega)).andThen
    (f := fun _ s1 => .done (⟨0#32, none, none⟩ : Response) s1)
    (Q := fun resp u => resp = ⟨0#32, none, none⟩ ∧ ∃ out, Went s u false out ∧
      (Coherent s → out = s.stringAt (s.cfg.off v) (s.cfg.ramSize - s.cfg.off v)) ∧
      u.conAnswers = s.conAnswers.drop out.length ∧
      u.accesses = s.accesses + BitVec.ofNat 64 (min (s.cfg.ramSize - s.cfg.off v) (out.length + 1)) ∧
      Counted s u (min (s.cfg.ramSize - s.cfg.off v) (out.length + 1)))
    (fun _ u hu => ⟨rfl, hu⟩)
  unfold execCsrwDbgStr
  rw [if_neg (by omega)]
  rcases conclude_spec hspec with ⟨resp, u, ⟨rfl, out, h1, h2, h3, h4, h5⟩, he⟩ | ⟨w, u, ⟨out, h1, h2, h3, h4, h5⟩, he⟩
  · exact .inl ⟨out, u, h1, h2, h3, h4, h5, he⟩
  · exact .inr ⟨w, out, u, h1, h2, h3, h4, h5, he⟩

/-- A sweep of every slot (R97, R98): it ends with its response, or is cut short. -/
theorem sweepEnd_spec {f : Nat → State → Txn Bool} {g : Slot → Slot} (hf : SweepsSlot f g) (h : Inv s) :
    (∃ failed u, Went s u failed [] ∧ SameStats s u ∧
        (∀ j < s.cfg.numLines, u.slot j = g (s.slot j) ∨
          (failed = true ∧ u.slot j = s.slot j ∧ (s.slot j).valid = true ∧ (s.slot j).dirty = true ∧
            ∀ records, u.errLog = s.errLog ++ records → ⟨.io, (s.slot j).tag⟩ ∈ records)) ∧
        (failed = true → ¬ s.quiet) ∧
        conclude (sweep f s) = .next (u.setResp (some (sweepResponse failed)))) ∨
    ∃ failed w u, Went s u failed [] ∧ StopOk s w ∧ w.isCut ∧ conclude (sweep f s) = conclude (.stop w u) := by
  rcases conclude_spec (sweep_spec hf h) with ⟨resp, u, ⟨failed, rfl, h1, h2, h3, h4⟩, he⟩ | ⟨w, u, ⟨failed, h1, h2, h3⟩, he⟩
  · exact .inl ⟨failed, u, h1, h2, h3, h4, he⟩
  · exact .inr ⟨failed, w, u, h1, h2, h3, he⟩

/-- A transaction that only emits (R61, R113, R131, R132, R134): it ends with its bytes emitted, or is cut short. -/
theorem emitAndRespond_spec (bytes : List Byte) (h : Inv s) :
    emitAndRespond bytes s = .next { s with
      conAnswers := s.conAnswers.drop bytes.length
      conOut     := s.conOut ++ bytes
      resp       := some ⟨0#32, none, none⟩ } ∨
    ∃ w u k, StopOk s w ∧ w.isCut ∧
      u = { s with conAnswers := s.conAnswers.drop (k + 1), conOut := s.conOut ++ bytes.take k } ∧
      emitAndRespond bytes s = conclude (.stop w u) := by
  have hspec := (emitStr_spec bytes h).andThen (f := fun _ s1 => .done (⟨0#32, none, none⟩ : Response) s1)
    (Q := fun resp u => resp = ⟨0#32, none, none⟩ ∧
      u = { s with conAnswers := s.conAnswers.drop bytes.length, conOut := s.conOut ++ bytes })
    (fun _ u hu => ⟨rfl, hu⟩)
  unfold emitAndRespond
  rcases conclude_spec hspec with ⟨resp, u, ⟨rfl, rfl⟩, he⟩ | ⟨w, u, ⟨h1, h2, k, -, h3⟩, he⟩
  · exact .inl he
  · exact .inr ⟨w, u, k, h1, h2, h3, he⟩

/-- A stop that leaves a next state keeps the invariant. -/
theorem conclude_stop_inv {w : Stop} {u : State} (hu : Inv u) (h : conclude (.stop w u) = .next t) : Inv t := by
  cases w with
  | fault k info => injection h with h; exact h ▸ hu.raise k info
  | powerOn ok => injection h with h; exact h ▸ hu.powerOn ok
  | stuck f => cases h

/-! ### From what an access does to what a statement says -/

theorem Inner.keepsRest {u : State} (h : Inner s u) (r : Option Response) : KeepsRest s (u.setResp r) :=
  ⟨h.rest.cfg, h.rest.pendValid, h.rest.pendByte, h.rest.halted, h.rest.conOut, h.rest.conDraws, h.rest.postCode,
    h.rest.released, h.rest.booting, h.rest.inputs, h.rest.unsettled, h.rest.draws⟩

theorem Inner.keepsErrors {u : State} (h : Inner s u) (r : Option Response) : KeepsErrors s (u.setResp r) :=
  ⟨h.errors.latch, h.errors.errLog⟩

theorem linesTouched_le (c : Config) (o n : Nat) : linesTouched c o n ≤ 2 := by
  unfold linesTouched
  split <;> omega

/-- The lines counted bound the hits. -/
theorem Counted.countsLines {n k : Nat} (h : Counted s t k) (ha : t.accesses = s.accesses + BitVec.ofNat 64 n)
    (hk : k < 2 ^ 64) (hn : n ≤ k) : CountsLines s t n := by
  obtain ⟨m, k', h1, h2, h3, h4⟩ := h
  refine ⟨ha, k', ?_, h4⟩
  rw [ha] at h3
  have := congrArg BitVec.toNat (show BitVec.ofNat 64 n = BitVec.ofNat 64 m by simpa using h3)
  simp only [BitVec.toNat_ofNat] at this
  rw [Nat.mod_eq_of_lt (by omega), Nat.mod_eq_of_lt (by omega)] at this
  omega

/-- A write of the first `m` of the `n` stored bytes, in the words of the statements. -/
theorem Wrote.holdsBytes {u : State} {o n m : Nat} {v : Word} (h : Wrote s u o ((leBytes n v).take m)) (hm : m ≤ n)
    (hc : Coherent s) (h1 : t.slots = u.slots) (h2 : t.cfg = u.cfg) (h3 : t.bs = u.bs) : HoldsBytes s t o m v := by
  intro p
  rw [State.view_congr h1 h2 h3, h.view hc p]
  simp only [List.length_take, length_leBytes, Nat.min_eq_left hm]
  split
  · next hp =>
    rw [List.getD_eq_getElem?_getD, List.getElem?_take_of_lt (by omega), ← List.getD_eq_getElem?_getD,
      getD_leBytes (by omega)]
  · rfl

end Sys2Proof.Machine
end

