-- ==== Sys2Proof/Laws/Exact.lean ====
section
/-! SUPPORT. Equations of the cache operations for each answer of the backing store (spec/40_cache.md R82 to R86): the
whole state they leave. The specification lemmas of Resolve.lean say what holds of all of them. -/

namespace Sys2Proof.Machine

open Sys2Proof

variable {s : State}

/-! ### Write-back and release of a slot (R83) -/

theorem writeBack_clean {i : Nat} (h : (s.slot i).dirty = false) : writeBack i s = .done true s := by
  simp [writeBack, h]

theorem writeBack_ok {i : Nat} {left : List Byte} {more : List BsAnswer} (hv : (s.slot i).valid = true)
    (hd : (s.slot i).dirty = true) (ha : s.nextAnswer = ⟨true, left, none⟩) (hm : s.bsAnswers.tail = more) :
    writeBack i s = .done true { s with
      slots     := s.slots.set i { s.slot i with dirty := false }
      bs        := s.bs.writeBytes (s.slot i).tag.toNat (s.slot i).data
      bsAnswers := more
      bsLog     := s.bsLog ++ [.write (s.slot i).tag.toNat (s.slot i).data true] } := by
  simp [writeBack, hv, hd, bsWrite, ha, State.setSlot, State.setBs, State.logEvent, hm]

theorem writeBack_fail {i : Nat} {left : List Byte} {more : List BsAnswer} (hv : (s.slot i).valid = true)
    (hd : (s.slot i).dirty = true) (ha : s.nextAnswer = ⟨false, left, none⟩) (hm : s.bsAnswers.tail = more) :
    writeBack i s = .done false { s with
      bs        := s.bs.writeBytes (s.slot i).tag.toNat (left.take s.cfg.lineSize)
      bsAnswers := more
      bsLog     := s.bsLog ++ [.write (s.slot i).tag.toNat (s.slot i).data false] } := by
  simp [writeBack, hv, hd, bsWrite, ha, State.setBs, State.logEvent, hm]

theorem releaseVictim_clean {v : Nat} (h : (s.slot v).dirty = false) :
    releaseVictim v s = .done () (s.setSlot v { s.slot v with valid := false }) := by
  simp [releaseVictim, writeBack_clean h]

theorem releaseVictim_ok {v : Nat} {left : List Byte} {more : List BsAnswer} (hv : (s.slot v).valid = true)
    (hd : (s.slot v).dirty = true) (ha : s.nextAnswer = ⟨true, left, none⟩) (hm : s.bsAnswers.tail = more) :
    releaseVictim v s = .done () { s with
      slots     := s.slots.set v { s.slot v with valid := false, dirty := false }
      bs        := s.bs.writeBytes (s.slot v).tag.toNat (s.slot v).data
      bsAnswers := more
      bsLog     := s.bsLog ++ [.write (s.slot v).tag.toNat (s.slot v).data true] } := by
  have hlt := State.lt_of_valid hv
  have hslot := State.slot_setSlot_same hlt { s.slot v with dirty := false }
  rw [releaseVictim, writeBack_ok hv hd ha hm, Txn.andThen_done, if_pos rfl]
  simp only [State.slot, State.setSlot, List.set_set] at hslot ⊢
  rw [hslot]

theorem releaseVictim_fail {v : Nat} {left : List Byte} {more : List BsAnswer} (hv : (s.slot v).valid = true)
    (hd : (s.slot v).dirty = true) (ha : s.nextAnswer = ⟨false, left, none⟩) (hm : s.bsAnswers.tail = more) :
    releaseVictim v s = .stop (.fault .io (s.slot v).tag) { s with
      bs        := s.bs.writeBytes (s.slot v).tag.toNat (left.take s.cfg.lineSize)
      bsAnswers := more
      bsLog     := s.bsLog ++ [.write (s.slot v).tag.toNat (s.slot v).data false] } := by
  rw [releaseVictim, writeBack_fail hv hd ha hm]
  rfl

/-! ### Fill (R84) -/

theorem fill_ok {v tag : Nat} {left : List Byte} {more : List BsAnswer} (ha : s.nextAnswer = ⟨true, left, none⟩)
    (hm : s.bsAnswers.tail = more) :
    fill v tag s = .done v { s with
      slots     := s.slots.set v ⟨true, BitVec.ofNat 32 tag, false, s.bs.readBytes tag s.cfg.lineSize⟩
      lru       := v :: s.lru.filter (· != v)
      bsAnswers := more
      bsLog     := s.bsLog ++ [.read tag true] } := by
  simp [fill, bsRead, ha, State.setSlot, State.touch, State.logEvent, hm]

theorem fill_fail {v tag : Nat} {left : List Byte} {more : List BsAnswer} (ha : s.nextAnswer = ⟨false, left, none⟩)
    (hm : s.bsAnswers.tail = more) :
    fill v tag s = .stop (.fault .io (BitVec.ofNat 32 tag)) { s with
      bsAnswers := more
      bsLog     := s.bsLog ++ [.read tag false] } := by
  simp [fill, bsRead, ha, State.logEvent, hm]

/-! ### Resolution (R81, R82) -/

theorem resolve_hit (h : Inv s) {k tag : Nat} (hv : (s.slot k).valid = true) (ht : (s.slot k).tag.toNat = tag) :
    resolve tag s = .done k { s with
      accesses := s.accesses + 1#64
      hits     := s.hits + 1#64
      lru      := k :: s.lru.filter (· != k) } := by
  have hl : s.countAccess.lookup tag = some k := by
    rw [State.lookup_congr (State.countAccess_slots s)]
    exact ht ▸ h.lookup_eq hv
  simp only [resolve, hl]
  rfl

theorem resolve_miss {tag : Nat} (hn : ¬ s.resident tag) :
    resolve tag s = (releaseVictim s.victim s.countAccess).andThen fun _ s2 => fill s.victim tag s2 := by
  have hl : s.countAccess.lookup tag = none := by
    rw [State.lookup_congr (State.countAccess_slots s)]
    exact State.lookup_eq_none fun x hx hv ht => hn ⟨x, hx, hv, ht⟩
  simp only [resolve, hl]
  rfl

theorem State.resident_slot {i : Nat} (hv : (s.slot i).valid = true) : s.resident (s.slot i).tag.toNat :=
  ⟨_, State.slot_mem (State.lt_of_valid hv), hv, rfl⟩

/-! ### The write policy (R86) -/

theorem writePolicy_back {i : Nat} {x : Slot} (hi : i < s.slots.length) (hp : s.cfg.writePolicy = .writeBack) :
    writePolicy i (s.setSlot i x) = .done () { s with slots := s.slots.set i { x with dirty := true } } := by
  have hslot := State.slot_setSlot_same hi x
  simp only [writePolicy, State.setSlot_cfg, hp, hslot]
  simp [State.setSlot]

theorem writePolicy_through_ok {i : Nat} {x : Slot} {left : List Byte} {more : List BsAnswer} (hi : i < s.slots.length)
    (hp : s.cfg.writePolicy = .writeThrough) (ha : s.nextAnswer = ⟨true, left, none⟩) (hm : s.bsAnswers.tail = more) :
    writePolicy i (s.setSlot i x) = .done () { s with
      slots     := s.slots.set i { x with dirty := false }
      bs        := s.bs.writeBytes x.tag.toNat x.data
      bsAnswers := more
      bsLog     := s.bsLog ++ [.write x.tag.toNat x.data true] } := by
  have hslot := State.slot_setSlot_same hi x
  have ha' : (s.setSlot i x).nextAnswer = ⟨true, left, none⟩ := ha
  simp only [writePolicy, State.setSlot_cfg, hp, hslot, bsWrite, ha', waited_none, Txn.andThen_done, if_true]
  simp [State.setSlot, State.setBs, State.logEvent, State.slot, hi, hm]

theorem writePolicy_through_fail {i : Nat} {x : Slot} {left : List Byte} {more : List BsAnswer}
    (hi : i < s.slots.length) (hp : s.cfg.writePolicy = .writeThrough) (ha : s.nextAnswer = ⟨false, left, none⟩)
    (hm : s.bsAnswers.tail = more) :
    writePolicy i (s.setSlot i x) = .stop (.fault .io x.tag) { s with
      slots     := s.slots.set i { x with dirty := true }
      bs        := s.bs.writeBytes x.tag.toNat (left.take s.cfg.lineSize)
      bsAnswers := more
      bsLog     := s.bsLog ++ [.write x.tag.toNat x.data false] } := by
  have hslot := State.slot_setSlot_same hi x
  have ha' : (s.setSlot i x).nextAnswer = ⟨false, left, none⟩ := ha
  simp only [writePolicy, State.setSlot_cfg, hp, hslot, bsWrite, ha', waited_none, Txn.andThen_done, Bool.false_eq_true,
    if_false]
  simp [State.setSlot, State.setBs, State.logEvent, State.slot, hi, hm]

/-! ### Accesses inside one line (R87, R88) -/

theorem ramRead_one {n : Nat} {a : Word} (ho : s.cfg.off a + n ≤ s.cfg.ramSize)
    (hi : s.cfg.idxOf (s.cfg.off a) + n ≤ s.cfg.lineSize) :
    ramRead n a s = conclude ((resolve (s.cfg.tagOf (s.cfg.off a)) s).andThen fun i s1 =>
      .done ⟨leWord (((s1.slot i).data.drop (s.cfg.idxOf (s.cfg.off a))).take n), none, none⟩ s1) := by
  rw [ramRead, if_neg (by omega), memRead, Config.pieces, if_pos hi]
  simp only [readPieces]
  cases resolve (s.cfg.tagOf (s.cfg.off a)) s with
  | done i s1 => simp only [Txn.andThen_done, List.append_nil]
  | stop w s1 => simp only [Txn.andThen_stop]

theorem ramWrite_one {n : Nat} {a v : Word} (ho : s.cfg.off a + n ≤ s.cfg.ramSize)
    (hi : s.cfg.idxOf (s.cfg.off a) + n ≤ s.cfg.lineSize) :
    ramWrite n a v s = conclude ((writePiece ⟨s.cfg.tagOf (s.cfg.off a), s.cfg.idxOf (s.cfg.off a), n⟩ (leBytes n v) s).andThen
      fun _ s1 => .done ⟨0#32, none, none⟩ s1) := by
  have ht : (leBytes n v).take n = leBytes n v := List.take_of_length_le (by simp)
  rw [ramWrite, if_neg (by omega), memWrite, Config.pieces, if_pos hi]
  simp only [writePieces, ht]
  cases writePiece ⟨s.cfg.tagOf (s.cfg.off a), s.cfg.idxOf (s.cfg.off a), n⟩ (leBytes n v) s with
  | done i s1 => simp only [Txn.andThen_done]
  | stop w s1 => simp only [Txn.andThen_stop]

/-- A read whose first resolution stops ends there, whether or not a second line follows. -/
theorem ramRead_stop {n : Nat} {a : Word} {w : Stop} {u : State} (ho : s.cfg.off a + n ≤ s.cfg.ramSize)
    (h : resolve (s.cfg.tagOf (s.cfg.off a)) s = .stop w u) : ramRead n a s = conclude (.stop w u) := by
  rw [ramRead, if_neg (by omega), memRead, Config.pieces]
  split <;> simp only [readPieces, h, Txn.andThen_stop]

/-- The bytes a one-line read takes from its line. -/
theorem lineSlice {data : List Byte} {i n l : Nat} (hl : data.length = l) (h : i + n ≤ l) :
    ((data.drop i).take n).length = n ∧ ∀ j < n, ((data.drop i).take n).getD j 0#8 = data.getD (i + j) 0#8 := by
  refine ⟨by simp; omega, fun j hj => ?_⟩
  simp [List.getD_eq_getElem?_getD, hj]

/-- The value of a read byte by byte (R68). -/
theorem wordOf_leWord {bytes : List Byte} {n : Nat} (hl : bytes.length = n) (hn : n ≤ 4) {f : Nat → Byte}
    (hf : ∀ j < n, bytes.getD j 0#8 = f j) : wordOf (leWord bytes) n f := by
  intro j hj
  rw [leWord_byte (by omega)]
  split
  · next h => exact hf j h
  · exact List.getD_eq_default _ _ (by omega)

/-! ### Text on the console (R61, R11, R206) -/

theorem emit_accepted (b : Byte) (h : s.conAnswers.headD none = none) :
    emit b s = .done () { s with conAnswers := s.conAnswers.tail, conOut := s.conOut ++ [b] } := by
  simp only [emit, h]
  rfl

theorem emit_cut (b : Byte) {c : Cut} (h : s.conAnswers.headD none = some c) :
    emit b s = .stop (c.stop .consoleNeverAccepts) { s with conAnswers := s.conAnswers.tail } := by
  simp only [emit, h]
  rfl

theorem headD_drop {α : Type} (l : List α) (d : α) : l.headD d = l.getD 0 d := by cases l <;> rfl

theorem State.accepts_succ {n : Nat} (h : s.accepts (n + 1)) :
    s.conAnswers.headD none = none ∧ ∀ a ∈ s.conAnswers.tail.take n, a = none := by
  unfold State.accepts at h
  cases hc : s.conAnswers with
  | nil => simp
  | cons a l =>
    rw [hc] at h
    exact ⟨h a (by simp), fun x hx => h x (by simp at hx ⊢; exact .inr hx)⟩

theorem emitStr_accepted (bytes : List Byte) (h : s.accepts bytes.length) :
    emitStr bytes s = .done () { s with
      conAnswers := s.conAnswers.drop bytes.length
      conOut     := s.conOut ++ bytes } := by
  induction bytes generalizing s with
  | nil => simp [emitStr]
  | cons b bytes ih =>
    obtain ⟨h1, h2⟩ := State.accepts_succ h
    rw [emitStr, emit_accepted b h1, Txn.andThen_done,
      ih (s := { s with conAnswers := s.conAnswers.tail, conOut := s.conOut ++ [b] }) h2]
    simp

/-- The wait for byte `k` is the first that is cut short. -/
theorem emitStr_cut (bytes : List Byte) {k : Nat} {c : Cut} (hk : k < bytes.length) (h : s.accepts k)
    (hc : s.conAnswers.getD k none = some c) :
    emitStr bytes s = .stop (c.stop .consoleNeverAccepts) { s with
      conAnswers := s.conAnswers.drop (k + 1)
      conOut     := s.conOut ++ bytes.take k } := by
  induction bytes generalizing s k with
  | nil => simp at hk
  | cons b bytes ih =>
    cases k with
    | zero =>
      rw [emitStr, emit_cut b (by rw [headD_drop, hc]), Txn.andThen_stop]
      simp
    | succ k =>
      obtain ⟨h1, h2⟩ := State.accepts_succ h
      rw [emitStr, emit_accepted b h1, Txn.andThen_done,
        ih (s := { s with conAnswers := s.conAnswers.tail, conOut := s.conOut ++ [b] }) (k := k) (by simpa using hk) h2
          (by simpa [List.getD_eq_getElem?_getD] using hc)]
      simp

end Sys2Proof.Machine
end

