-- ==== Sys2Proof/Laws/PerInstr.lean ====
section
/-! SUPPORT. Statements made per instruction. Family `RowMatch`: the encoder presents a well-formed instruction as a
key its own row of spec/opcode_table.json fits (match, mask, port and condition). -/

namespace Sys2Proof.Laws.RowMatch

open Sys2Proof

/-- The row of the instruction's mnemonic fits the encoded request. -/
def Statement (i : Instr) : Prop :=
  ∀ c : DecodeCtx, i.wellFormed c = true → ∃ row ∈ opcodeTable, row.mnemonic = i.mnemonic ∧ row.fits c (encode i) = true

/-- The row at a place of the table, with each part of the match apart. -/
theorem of_row {i : Instr} (k : Fin 36)
    (hn : (opcodeTable.getD k ⟨"", 0#40, 0#40, 0, none, .always⟩).mnemonic = i.mnemonic)
    (h : ∀ c : DecodeCtx, i.wellFormed c = true →
      (opcodeTable.getD k ⟨"", 0#40, 0#40, 0, none, .always⟩).fits c (encode i) = true) : Statement i := by
  intro c hw
  refine ⟨_, ?_, hn, h c hw⟩
  have hk : (k : Nat) < opcodeTable.length := k.2
  rw [List.getD_eq_getElem?_getD, List.getElem?_eq_getElem hk]
  exact List.getElem_mem hk

theorem fits_mkKey {c : DecodeCtx} {p : Port} {cmd m : BitVec 4} {size t : BitVec 2} {a b v : Word} {row : TableRow}
    (hm : row.mask = mkKey m t b) (hk : mkKey (cmd &&& m) (size &&& t) (a &&& b) = row.value)
    (hp : (row.port == none || row.port == some p) = true)
    (hc : row.condition.holds c ⟨p, mkKey cmd size a, v⟩ = true) : row.fits c ⟨p, mkKey cmd size a, v⟩ = true := by
  unfold TableRow.fits
  simp only [hm, mkKey_and, hk, hp, hc, beq_self_eq_true, Bool.and_self]

theorem devAddr_masked (reg : BitVec 3) : devAddr reg &&& 0xFFFFFFF8#32 = 0x10000000#32 := by
  revert reg
  decide

theorem csrAddr_masked (n : BitVec 12) : csrAddr n &&& 0xFFFFF000#32 = 0#32 := by
  have h : csrAddr n &&& 0xFFFFF000#32 = (0#20 ++ n) &&& (0xFFFFF#20 ++ 0#12) := rfl
  rw [h, BitVec.and_append, BitVec.zero_and, BitVec.and_zero]
  rfl

theorem low_masked (low : BitVec 2) : (3#2 ++ low) &&& 0xC#4 = 0xC#4 := by
  revert low
  decide

variable {c : DecodeCtx} {p : Port} {cmd : BitVec 4} {size : BitVec 2} {a v : Word}

theorem holds_wideCsr : RowCondition.wideCsr.holds c ⟨p, mkKey cmd size a, v⟩ = (a.extractLsb' 12 20 != 0#20) := by
  simp [RowCondition.holds]

theorem holds_wrongPort (k : Cmd) :
    RowCondition.wrongPort.holds c ⟨p, mkKey k.code size a, v⟩ = (p != k.port) := by
  simp [RowCondition.holds]

theorem holds_inRam : RowCondition.inRam.holds c ⟨p, mkKey cmd size a, v⟩ = c.cfg.inRam a := by
  simp [RowCondition.holds]

theorem holds_notInRam : RowCondition.notInRam.holds c ⟨p, mkKey cmd size a, v⟩ = !c.cfg.inRam a := by
  simp [RowCondition.holds]

theorem holds_unmapped (h : c.cfg.inRam a = false ∧ inDevice a = false) :
    RowCondition.unmapped.holds c ⟨p, mkKey cmd size a, v⟩ = true := by
  simp [RowCondition.holds, h]

/-- What well-formedness says of the RAM rows and of the unmapped rows (R110). -/
theorem inRam_of_ram {c : DecodeCtx} {a : Word} (h : (c.cfg.region a == .ram) = true) : c.cfg.inRam a = true := by
  unfold Config.region at h
  split at h
  · cases h
  · split at h
    · assumption
    · cases h

theorem outside_of_unmapped {c : DecodeCtx} {a : Word} (h : (c.cfg.region a == .unmapped) = true) :
    c.cfg.inRam a = false ∧ inDevice a = false := by
  unfold Config.region at h
  split at h
  · cases h
  · split at h
    · cases h
    · simp_all

/-! ### One lemma per row -/

theorem reservedCmdB (port : Port) (a : Word) : Statement (.reservedCmdB port a) :=
  of_row 0 rfl fun c _ =>
    fits_mkKey (m := 0xF#4) (t := 0#2) (b := 0#32) rfl
      (by rw [BitVec.and_zero, BitVec.and_zero]; rfl) rfl rfl

theorem reservedCmdCToF (port : Port) (low : BitVec 2) (a : Word) : Statement (.reservedCmdCToF port low a) :=
  of_row 1 rfl fun c _ =>
    fits_mkKey (m := 0xC#4) (t := 0#2) (b := 0#32) rfl
      (by rw [BitVec.and_zero, BitVec.and_zero, low_masked]; rfl) rfl rfl

theorem reservedLoadSize11 (a : Word) : Statement (.reservedLoadSize11 a) :=
  of_row 2 rfl fun c _ =>
    fits_mkKey (m := 0xF#4) (t := 3#2) (b := 0#32) rfl
      (by rw [BitVec.and_zero]; rfl) rfl rfl

theorem reservedStoreSize11 (a : Word) : Statement (.reservedStoreSize11 a) :=
  of_row 3 rfl fun c _ =>
    fits_mkKey (m := 0xF#4) (t := 3#2) (b := 0#32) rfl
      (by rw [BitVec.and_zero]; rfl) rfl rfl

theorem reservedCsrrWide (a : Word) : Statement (.reservedCsrrWide a) :=
  of_row 4 rfl fun c hw =>
    fits_mkKey (m := 0xF#4) (t := 0#2) (b := 0#32) rfl
      (by rw [BitVec.and_zero, BitVec.and_zero]; rfl) rfl (holds_wideCsr.trans hw)

theorem reservedCsrwWide (a : Word) : Statement (.reservedCsrwWide a) :=
  of_row 5 rfl fun c hw =>
    fits_mkKey (m := 0xF#4) (t := 0#2) (b := 0#32) rfl
      (by rw [BitVec.and_zero, BitVec.and_zero]; rfl) rfl (holds_wideCsr.trans hw)

theorem reservedWrongPort (port : Port) (cmd : Cmd) (a : Word) : Statement (.reservedWrongPort port cmd a) :=
  of_row 6 rfl fun c hw =>
    fits_mkKey (m := 0#4) (t := 0#2) (b := 0#32) rfl
      (by rw [BitVec.and_zero, BitVec.and_zero, BitVec.and_zero]; rfl) rfl ((holds_wrongPort cmd).trans hw)

theorem storeUartTx (w : Width) (v : Word) : Statement (.storeUartTx w v) :=
  of_row 7 rfl fun c _ =>
    fits_mkKey (m := 0xF#4) (t := 0#2) (b := 0xFFFFFFFF#32) rfl
      (by rw [BitVec.and_zero]; rfl) rfl rfl

theorem loadUartRx (w : Width) : Statement (.loadUartRx w) :=
  of_row 8 rfl fun c hw =>
    fits_mkKey (m := 0xF#4) (t := 0#2) (b := 0xFFFFFFFF#32) rfl
      (by rw [BitVec.and_zero]; rfl) rfl hw

theorem loadUartRxEmpty (w : Width) : Statement (.loadUartRxEmpty w) :=
  of_row 9 rfl fun c hw =>
    fits_mkKey (m := 0xF#4) (t := 0#2) (b := 0xFFFFFFFF#32) rfl
      (by rw [BitVec.and_zero]; rfl) rfl hw

theorem loadUartLsr (w : Width) : Statement (.loadUartLsr w) :=
  of_row 10 rfl fun c _ =>
    fits_mkKey (m := 0xF#4) (t := 0#2) (b := 0xFFFFFFFF#32) rfl
      (by rw [BitVec.and_zero]; rfl) rfl rfl

theorem csrwDbgDec (v : Word) : Statement (.csrwDbgDec v) :=
  of_row 11 rfl fun c _ =>
    fits_mkKey (m := 0xF#4) (t := 0#2) (b := 0xFFFFFFFF#32) rfl
      (by rw [BitVec.and_zero]; rfl) rfl rfl

theorem csrwDbgHex (v : Word) : Statement (.csrwDbgHex v) :=
  of_row 12 rfl fun c _ =>
    fits_mkKey (m := 0xF#4) (t := 0#2) (b := 0xFFFFFFFF#32) rfl
      (by rw [BitVec.and_zero]; rfl) rfl rfl

theorem csrwDbgStr (v : Word) : Statement (.csrwDbgStr v) :=
  of_row 13 rfl fun c _ =>
    fits_mkKey (m := 0xF#4) (t := 0#2) (b := 0xFFFFFFFF#32) rfl
      (by rw [BitVec.and_zero]; rfl) rfl rfl

theorem csrwDbgChr (v : Word) : Statement (.csrwDbgChr v) :=
  of_row 14 rfl fun c _ =>
    fits_mkKey (m := 0xF#4) (t := 0#2) (b := 0xFFFFFFFF#32) rfl
      (by rw [BitVec.and_zero]; rfl) rfl rfl

theorem csrrDbgIn : Statement .csrrDbgIn :=
  of_row 15 rfl fun c _ =>
    fits_mkKey (m := 0xF#4) (t := 0#2) (b := 0xFFFFFFFF#32) rfl
      (by rw [BitVec.and_zero]; rfl) rfl rfl

theorem loadDevDefault (w : Width) (reg : BitVec 3) : Statement (.loadDevDefault w reg) :=
  of_row 16 rfl fun c _ =>
    fits_mkKey (m := 0xF#4) (t := 0#2) (b := 0xFFFFFFF8#32) rfl
      (by rw [BitVec.and_zero, devAddr_masked]; rfl) rfl rfl

theorem storeDevDefault (w : Width) (reg : BitVec 3) (v : Word) : Statement (.storeDevDefault w reg v) :=
  of_row 17 rfl fun c _ =>
    fits_mkKey (m := 0xF#4) (t := 0#2) (b := 0xFFFFFFF8#32) rfl
      (by rw [BitVec.and_zero, devAddr_masked]; rfl) rfl rfl

theorem csrrDefault (n : BitVec 12) : Statement (.csrrDefault n) :=
  of_row 18 rfl fun c _ =>
    fits_mkKey (m := 0xF#4) (t := 0#2) (b := 0xFFFFF000#32) rfl
      (by rw [BitVec.and_zero, csrAddr_masked]; rfl) rfl rfl

theorem csrwDefault (n : BitVec 12) (v : Word) : Statement (.csrwDefault n v) :=
  of_row 19 rfl fun c _ =>
    fits_mkKey (m := 0xF#4) (t := 0#2) (b := 0xFFFFF000#32) rfl
      (by rw [BitVec.and_zero, csrAddr_masked]; rfl) rfl rfl

theorem fetchRam (a : Word) : Statement (.fetchRam a) :=
  of_row 20 rfl fun c hw =>
    fits_mkKey (m := 0xF#4) (t := 0#2) (b := 0#32) rfl
      (by rw [BitVec.and_zero, BitVec.and_zero]; rfl) rfl (holds_inRam.trans hw)

theorem loadBRam (a : Word) : Statement (.loadBRam a) :=
  of_row 21 rfl fun c hw =>
    fits_mkKey (m := 0xF#4) (t := 3#2) (b := 0#32) rfl
      (by rw [BitVec.and_zero]; rfl) rfl (holds_inRam.trans (inRam_of_ram hw))

theorem loadHRam (a : Word) : Statement (.loadHRam a) :=
  of_row 22 rfl fun c hw =>
    fits_mkKey (m := 0xF#4) (t := 3#2) (b := 0#32) rfl
      (by rw [BitVec.and_zero]; rfl) rfl (holds_inRam.trans (inRam_of_ram hw))

theorem loadWRam (a : Word) : Statement (.loadWRam a) :=
  of_row 23 rfl fun c hw =>
    fits_mkKey (m := 0xF#4) (t := 3#2) (b := 0#32) rfl
      (by rw [BitVec.and_zero]; rfl) rfl (holds_inRam.trans (inRam_of_ram hw))

theorem storeBRam (a v : Word) : Statement (.storeBRam a v) :=
  of_row 24 rfl fun c hw =>
    fits_mkKey (m := 0xF#4) (t := 3#2) (b := 0#32) rfl
      (by rw [BitVec.and_zero]; rfl) rfl (holds_inRam.trans (inRam_of_ram hw))

theorem storeHRam (a v : Word) : Statement (.storeHRam a v) :=
  of_row 25 rfl fun c hw =>
    fits_mkKey (m := 0xF#4) (t := 3#2) (b := 0#32) rfl
      (by rw [BitVec.and_zero]; rfl) rfl (holds_inRam.trans (inRam_of_ram hw))

theorem storeWRam (a v : Word) : Statement (.storeWRam a v) :=
  of_row 26 rfl fun c hw =>
    fits_mkKey (m := 0xF#4) (t := 3#2) (b := 0#32) rfl
      (by rw [BitVec.and_zero]; rfl) rfl (holds_inRam.trans (inRam_of_ram hw))

theorem fetchNonram (a : Word) : Statement (.fetchNonram a) :=
  of_row 27 rfl fun c hw =>
    fits_mkKey (m := 0xF#4) (t := 0#2) (b := 0#32) rfl
      (by rw [BitVec.and_zero, BitVec.and_zero]; rfl) rfl (holds_notInRam.trans hw)

theorem loadUnmapped (w : Width) (a : Word) : Statement (.loadUnmapped w a) :=
  of_row 28 rfl fun c hw =>
    fits_mkKey (m := 0xF#4) (t := 0#2) (b := 0#32) rfl
      (by rw [BitVec.and_zero, BitVec.and_zero]; rfl) rfl (holds_unmapped (outside_of_unmapped hw))

theorem storeUnmapped (w : Width) (a v : Word) : Statement (.storeUnmapped w a v) :=
  of_row 29 rfl fun c hw =>
    fits_mkKey (m := 0xF#4) (t := 0#2) (b := 0#32) rfl
      (by rw [BitVec.and_zero, BitVec.and_zero]; rfl) rfl (holds_unmapped (outside_of_unmapped hw))

theorem postExec (insn code : Word) : Statement (.postExec insn code) :=
  of_row 30 rfl fun c _ =>
    fits_mkKey (m := 0xF#4) (t := 0#2) (b := 0#32) rfl
      (by rw [BitVec.and_zero, BitVec.and_zero]; rfl) rfl rfl

theorem flushAll : Statement .flushAll :=
  of_row 31 rfl fun c _ =>
    fits_mkKey (m := 0xF#4) (t := 0#2) (b := 0#32) rfl
      (by rw [BitVec.and_zero, BitVec.and_zero]; rfl) rfl rfl

theorem evictAll : Statement .evictAll :=
  of_row 32 rfl fun c _ =>
    fits_mkKey (m := 0xF#4) (t := 0#2) (b := 0#32) rfl
      (by rw [BitVec.and_zero, BitVec.and_zero]; rfl) rfl rfl

theorem getStats : Statement .getStats :=
  of_row 33 rfl fun c _ =>
    fits_mkKey (m := 0xF#4) (t := 0#2) (b := 0#32) rfl
      (by rw [BitVec.and_zero, BitVec.and_zero]; rfl) rfl rfl

theorem pollInput (b : Byte) : Statement (.pollInput b) :=
  of_row 34 rfl fun c _ =>
    fits_mkKey (m := 0xF#4) (t := 0#2) (b := 0#32) rfl
      (by rw [BitVec.and_zero, BitVec.and_zero]; rfl) rfl rfl

theorem restart : Statement .restart :=
  of_row 35 rfl fun c _ =>
    fits_mkKey (m := 0xF#4) (t := 0#2) (b := 0#32) rfl
      (by rw [BitVec.and_zero, BitVec.and_zero]; rfl) rfl rfl

end Sys2Proof.Laws.RowMatch
end

