-- ==== Sys2Proof/Laws/Port.lean ====
section
/-! SUPPORT. What every operation does at its two waits for the host, in every state: the backing-store events it
issues, the answers it uses up, what they make of the image, how many there are, and where it is cut short. `exec_port`
says it of every instruction that answers a next state, `exec_ends` of every instruction. -/

namespace Sys2Proof.Machine

open Sys2Proof

variable {s t u : State}

theorem replay_append (n : Nat) (es fs : List BsEvent) (answers : List BsAnswer) (m : Memory) :
    replay n (es ++ fs) answers m = replay n fs (answers.drop es.length) (replay n es answers m) := by
  induction es generalizing answers m with
  | nil => rfl
  | cons e es ih => cases e <;> simp [replay, ih, List.drop_tail]

/-- The parameters, the image, both ports and the unsettled lines are those of `s`. -/
structure Still (s t : State) : Prop where
  cfg       : t.cfg = s.cfg
  bsLog     : t.bsLog = s.bsLog
  answers   : t.bsAnswers = s.bsAnswers
  bs        : t.bs = s.bs
  console   : t.conAnswers = s.conAnswers
  unsettled : t.unsettled = s.unsettled
  draws     : t.draws = s.draws

theorem Still.raise (s : State) (k : FaultKind) (info : Word) : Still s (s.raise k info) := by
  constructor <;> cases k <;> rfl

/-- From `s` to `t` exactly the events `es` took place, each using up one answer; some console draws were used up; no
line was unsettled and no draw of the unsettled lines used up. -/
structure Ported (s t : State) (es : List BsEvent) : Prop where
  cfg       : t.cfg = s.cfg
  bsLog     : t.bsLog = s.bsLog ++ es
  answers   : t.bsAnswers = s.bsAnswers.drop es.length
  image     : t.bs = replay s.cfg.lineSize es s.bsAnswers s.bs
  ok        : ∀ (k : Nat) (e : BsEvent), es[k]? = some e → e.ok = (s.bsAnswers.getD k BsAnswer.good).ok
  console   : t.conAnswers <:+ s.conAnswers
  unsettled : t.unsettled = s.unsettled
  draws     : t.draws = s.draws

/-- None of the next `n` answers cuts a transaction short. -/
def State.noCut (s : State) (n : Nat) : Prop := ∀ j < n, (s.bsAnswers.getD j BsAnswer.good).cut = none

theorem Still.ported (h : Still s t) : Ported s t [] :=
  ⟨h.cfg, by simp [h.bsLog], h.answers, h.bs, by simp, h.console ▸ List.suffix_refl _, h.unsettled, h.draws⟩

theorem Ported.left {es : List BsEvent} (h' : Ported t u es) (h : Still s t) : Ported s u es :=
  ⟨by rw [h'.cfg, h.cfg], by rw [h'.bsLog, h.bsLog], by rw [h'.answers, h.answers], by
    rw [h'.image, h.cfg, h.answers, h.bs], by rw [← h.answers]; exact h'.ok, h.console ▸ h'.console, by
    rw [h'.unsettled, h.unsettled], by rw [h'.draws, h.draws]⟩

theorem Ported.right {es : List BsEvent} (h : Ported s t es) (h' : Still t u) : Ported s u es :=
  ⟨by rw [h'.cfg, h.cfg], by rw [h'.bsLog, h.bsLog], by rw [h'.answers, h.answers], by rw [h'.bs, h.image], h.ok, by
    rw [h'.console]; exact h.console, by rw [h'.unsettled, h.unsettled], by rw [h'.draws, h.draws]⟩

theorem getD_drop_answers (s : State) (n k : Nat) :
    (s.bsAnswers.drop n).getD k BsAnswer.good = s.bsAnswers.getD (n + k) BsAnswer.good := by
  simp [List.getD_eq_getElem?_getD]

theorem Ported.trans {es fs : List BsEvent} (h : Ported s t es) (h' : Ported t u fs) : Ported s u (es ++ fs) where
  cfg     := h'.cfg.trans h.cfg
  bsLog   := by rw [h'.bsLog, h.bsLog, List.append_assoc]
  answers := by rw [h'.answers, h.answers, List.drop_drop, List.length_append]
  image   := by rw [h'.image, h.image, h.cfg, h.answers, replay_append]
  ok k e hk := by
    by_cases hlt : k < es.length
    · exact h.ok k e (by rwa [List.getElem?_append_left hlt] at hk)
    · rw [List.getElem?_append_right (by omega)] at hk
      rw [h'.ok _ e hk, h.answers, getD_drop_answers]
      congr 2
      omega
  console   := h'.console.trans h.console
  unsettled := by rw [h'.unsettled, h.unsettled]
  draws     := by rw [h'.draws, h.draws]

theorem State.noCut.append {m n : Nat} (h : s.noCut m) (ha : t.bsAnswers = s.bsAnswers.drop m) (h' : t.noCut n) :
    s.noCut (m + n) := by
  intro j hj
  by_cases hlt : j < m
  · exact h j hlt
  · have := h' (j - m) (by omega)
    rw [ha, getD_drop_answers] at this
    rwa [show m + (j - m) = j by omega] at this

/-- At most `n` events took place and no cut among them. -/
def GoesOn (n : Nat) (s t : State) : Prop := ∃ es, es.length ≤ n ∧ Ported s t es ∧ s.noCut es.length

/-- A transaction with `n` events was cut short by `c`: at the last of them, or, after them, at an output byte. The
name of the wait is that of the port. -/
inductive CutBy (s : State) (n : Nat) (c : Cut) : Fault → Prop
  | store {k : Nat} (hn : n = k + 1) (hk : s.noCut k) (hc : (s.bsAnswers.getD k BsAnswer.good).cut = some c) :
      CutBy s n c .backingStoreNeverAnswers
  | console (hn : s.noCut n) (hc : some c ∈ s.conAnswers) : CutBy s n c .consoleNeverAccepts

/-- At most `n` events took place; where the stop is a cut, it comes with the last of them or at an output byte. -/
def Halts (n : Nat) (s : State) (w : Stop) (t : State) : Prop :=
  ∃ es, es.length ≤ n ∧ Ported s t es ∧
    match w with
    | .fault _ _ => s.noCut es.length
    | .powerOn ok => ∃ f, CutBy s es.length (.powerOn ok) f
    | .stuck f => CutBy s es.length .never f

/-- A transaction issues at most `n` events from `s` on. -/
def Txn.Ports {α : Type} (r : Txn α) (n : Nat) (s : State) : Prop := r.Spec (fun _ => GoesOn n s) (Halts n s)

theorem Txn.Ports.mono {α : Type} {r : Txn α} {m n : Nat} (h : r.Ports m s) (hmn : m ≤ n) : r.Ports n s :=
  Txn.Spec.mono h (fun _ _ ⟨es, h1, h2⟩ => ⟨es, by omega, h2⟩) (fun _ _ ⟨es, h1, h2⟩ => ⟨es, by omega, h2⟩)

theorem CutBy.after {m n : Nat} {c : Cut} {f : Fault} (h : s.noCut m) (ha : t.bsAnswers = s.bsAnswers.drop m)
    (hs : t.conAnswers <:+ s.conAnswers) (h' : CutBy t n c f) : CutBy s (m + n) c f := by
  cases h' with
  | @store k hn hk hc =>
    refine .store (k := m + k) (by omega) (h.append ha hk) ?_
    rwa [ha, getD_drop_answers] at hc
  | console hn hc => exact .console (h.append ha hn) (hs.subset hc)

theorem CutBy.left {n : Nat} {c : Cut} {f : Fault} (h' : CutBy t n c f) (h : Still s t) : CutBy s n c f := by
  have := h'.after (s := s) (m := 0) (fun j hj => absurd hj (by omega)) (by simp [h.answers])
    (h.console ▸ List.suffix_refl _)
  simpa using this

theorem State.noCut.left {n : Nat} (h' : t.noCut n) (h : Still s t) : s.noCut n := by
  unfold State.noCut
  rw [← h.answers]
  exact h'

theorem Txn.Ports.andThen {α β : Type} {r : Txn α} {f : α → State → Txn β} {m n : Nat} (h : r.Ports m s)
    (hf : ∀ a t, t.cfg = s.cfg → (f a t).Ports n t) : (r.andThen f).Ports (m + n) s := by
  cases r with
  | stop w t => exact Txn.Ports.mono (r := Txn.stop w t) h (by omega)
  | done a t =>
    obtain ⟨es, h1, h2, h3⟩ := h
    refine Txn.Spec.mono (hf a t h2.cfg) ?_ ?_
    · rintro _ u ⟨fs, g1, g2, g3⟩
      exact ⟨es ++ fs, by simp; omega, h2.trans g2, by rw [List.length_append]; exact h3.append h2.answers g3⟩
    · rintro w u ⟨fs, g1, g2, g3⟩
      refine ⟨es ++ fs, by simp; omega, h2.trans g2, ?_⟩
      cases w with
      | fault k i => rw [List.length_append]; exact h3.append h2.answers g3
      | powerOn ok =>
        obtain ⟨f, g3⟩ := g3
        rw [List.length_append]
        exact ⟨f, g3.after h3 h2.answers h2.console⟩
      | stuck f => rw [List.length_append]; exact CutBy.after h3 h2.answers h2.console g3

theorem ports_done {α : Type} (a : α) (h : Still s t) : (Txn.done a t).Ports 0 s :=
  ⟨[], by simp, h.ported, fun j hj => absurd hj (by simp)⟩

theorem ports_fault {α : Type} (k : FaultKind) (info : Word) (h : Still s t) :
    (Txn.stop (.fault k info) t : Txn α).Ports 0 s :=
  ⟨[], by simp, h.ported, fun j hj => absurd hj (by simp)⟩

/-- What an operation does from a state that stands like `s` at the ports. -/
theorem Txn.Ports.left {α : Type} {r : Txn α} {n : Nat} (h' : r.Ports n t) (h : Still s t) : r.Ports n s := by
  refine Txn.Spec.mono h' (fun _ _ ⟨es, h1, h2, h3⟩ => ⟨es, h1, h2.left h, h3.left h⟩) ?_
  rintro w u ⟨es, h1, h2, h3⟩
  refine ⟨es, h1, h2.left h, ?_⟩
  cases w with
  | fault k i => exact State.noCut.left h3 h
  | powerOn ok =>
    obtain ⟨f, h3⟩ := h3
    exact ⟨f, h3.left h⟩
  | stuck f => exact CutBy.left h3 h

/-! ### The two transactions of the port -/

theorem nextAnswer_eq (s : State) : s.bsAnswers.getD 0 BsAnswer.good = s.nextAnswer := by
  unfold State.nextAnswer
  cases s.bsAnswers <;> rfl

theorem noCut_one (h : s.nextAnswer.cut = none) : s.noCut 1 := by
  intro j hj
  obtain rfl : j = 0 := by omega
  rw [nextAnswer_eq, h]

theorem ok_singleton {e : BsEvent} (h : e.ok = s.nextAnswer.ok) (k : Nat) (x : BsEvent) (hk : [e][k]? = some x) :
    x.ok = (s.bsAnswers.getD k BsAnswer.good).ok := by
  cases k with
  | zero =>
    obtain rfl : e = x := by simpa using hk
    rw [nextAnswer_eq, h]
  | succ k => simp at hk

theorem ported_read (tag : Nat) (s : State) : Ported s (s.logEvent (.read tag s.nextAnswer.ok)) [.read tag s.nextAnswer.ok] :=
  ⟨rfl, rfl, by simp [State.logEvent], rfl, ok_singleton rfl, List.suffix_refl _, rfl, rfl⟩

theorem ported_write (tag : Nat) (data : List Byte) (s : State) :
    Ported s ((s.logEvent (.write tag data s.nextAnswer.ok)).setBs (writtenBs tag data s))
      [.write tag data s.nextAnswer.ok] :=
  ⟨rfl, rfl, by simp [State.logEvent, State.setBs], rfl, ok_singleton rfl, List.suffix_refl _, rfl, rfl⟩

/-- One event whose wait may be cut short. -/
theorem waited_ports {α : Type} {x : α} {e : BsEvent} (h : Ported s t [e]) :
    (waited s.nextAnswer.cut .backingStoreNeverAnswers x t).Ports 1 s := by
  refine waited_spec (fun hc => ⟨[e], by simp, h, noCut_one hc⟩) fun c hc => ⟨[e], by simp, h, ?_⟩
  have hcut : CutBy s 1 c .backingStoreNeverAnswers :=
    .store (k := 0) rfl (fun j hj => absurd hj (by omega)) (by rw [nextAnswer_eq, hc])
  cases c with
  | powerOn ok => exact ⟨_, hcut⟩
  | never => exact hcut

theorem bsRead_ports (tag : Nat) (s : State) : (bsRead tag s).Ports 1 s := waited_ports (ported_read tag s)

theorem bsWrite_ports (tag : Nat) (data : List Byte) (s : State) : (bsWrite tag data s).Ports 1 s :=
  waited_ports (ported_write tag data s)

/-! ### The console -/

theorem emit_ports (b : Byte) (s : State) : (emit b s).Ports 0 s := by
  have hd : Ported s s.drawAccept [] :=
    ⟨rfl, by simp, rfl, rfl, by simp, List.tail_suffix _, rfl, rfl⟩
  have ho : Ported s (s.drawAccept.output b) [] :=
    ⟨rfl, by simp, rfl, rfl, by simp, List.tail_suffix _, rfl, rfl⟩
  have h0 : s.noCut 0 := fun j hj => absurd hj (by omega)
  unfold emit
  cases hc : s.conAnswers.headD none with
  | none => exact ⟨[], by simp, ho, h0⟩
  | some c =>
    refine ⟨[], by simp, hd, ?_⟩
    have hmem : some c ∈ s.conAnswers := by
      cases hs : s.conAnswers with
      | nil => rw [hs] at hc; cases hc
      | cons a l => rw [hs] at hc; exact List.mem_cons.2 (.inl hc.symm)
    cases c with
    | powerOn ok => exact ⟨_, .console h0 hmem⟩
    | never => exact .console h0 hmem

theorem emitStr_ports (bytes : List Byte) (s : State) : (emitStr bytes s).Ports 0 s := by
  induction bytes generalizing s with
  | nil => exact ports_done _ (by constructor <;> rfl)
  | cons b bytes ih => exact (emit_ports b s).andThen fun _ t _ => ih t

/-! ### Line resolution -/

theorem writeBack_ports (i : Nat) (s : State) : (writeBack i s).Ports 1 s := by
  unfold writeBack
  simp only
  split
  · refine (bsWrite_ports _ _ s).andThen (n := 0) fun ok t _ => ?_
    split <;> exact ports_done _ (by constructor <;> rfl)
  · exact (ports_done _ (by constructor <;> rfl)).mono (by omega)

theorem releaseVictim_ports (v : Nat) (s : State) : (releaseVictim v s).Ports 1 s := by
  refine (writeBack_ports v s).andThen (n := 0) fun ok t _ => ?_
  split
  · exact ports_done _ (by constructor <;> rfl)
  · exact ports_fault _ _ (by constructor <;> rfl)

theorem fill_ports (v tag : Nat) (s : State) : (fill v tag s).Ports 1 s := by
  refine (bsRead_ports tag s).andThen (n := 0) fun d t _ => ?_
  split
  · exact ports_fault _ _ (by constructor <;> rfl)
  · exact ports_done _ (by constructor <;> rfl)

theorem resolve_ports (tag : Nat) (s : State) : (resolve tag s).Ports 2 s := by
  unfold resolve
  simp only
  split
  · exact Txn.Ports.mono (m := 0) (ports_done _ (by constructor <;> rfl)) (by omega)
  · exact ((releaseVictim_ports _ _).andThen fun _ t _ => fill_ports _ _ t).left (by constructor <;> rfl)

/-! ### Reads and writes -/

theorem readPieces_ports (ps : List Piece) (s : State) : (readPieces ps s).Ports (2 * ps.length) s := by
  induction ps generalizing s with
  | nil => exact ports_done _ (by constructor <;> rfl)
  | cons p ps ih =>
    refine Txn.Ports.mono ((resolve_ports p.tag s).andThen fun i t _ => (ih t).andThen (n := 0) fun rest u _ => ?_) ?_
    · exact ports_done _ (by constructor <;> rfl)
    · simp; omega

/-- A store piece's events under each policy: at most two for its line, one more to write it through. -/
def pieceEvents (c : Config) : Nat :=
  match c.writePolicy with
  | .writeBack => 2
  | .writeThrough => 3

theorem writePolicy_ports (i : Nat) (s : State) : (writePolicy i s).Ports (pieceEvents s.cfg - 2) s := by
  unfold writePolicy pieceEvents
  cases s.cfg.writePolicy
  · exact Txn.Ports.mono (m := 0) (ports_done _ (by constructor <;> rfl)) (by omega)
  · refine Txn.Ports.mono ((bsWrite_ports _ _ s).andThen (n := 0) fun ok t _ => ?_) (Nat.le_refl 1)
    split
    · exact ports_done _ (by constructor <;> rfl)
    · exact ports_fault _ _ (by constructor <;> rfl)

theorem two_le_pieceEvents (c : Config) : 2 ≤ pieceEvents c := by
  unfold pieceEvents
  split <;> omega

theorem writePiece_ports (p : Piece) (bytes : List Byte) (s : State) :
    (writePiece p bytes s).Ports (pieceEvents s.cfg) s := by
  have h2 := two_le_pieceEvents s.cfg
  refine Txn.Ports.mono ((resolve_ports p.tag s).andThen (n := pieceEvents s.cfg - 2) fun i t ht => ?_) (by omega)
  have h := writePolicy_ports i (t.setSlot i { t.slot i with data := splice (t.slot i).data p.first bytes })
  rw [← ht]
  exact h.left (by constructor <;> rfl)

theorem writePieces_ports (ps : List Piece) (bytes : List Byte) (s : State) :
    (writePieces ps bytes s).Ports (pieceEvents s.cfg * ps.length) s := by
  induction ps generalizing s bytes with
  | nil => exact ports_done _ (by constructor <;> rfl)
  | cons p ps ih =>
    refine Txn.Ports.mono ((writePiece_ports p _ s).andThen (n := pieceEvents s.cfg * ps.length) fun _ t ht => ?_) ?_
    · rw [← ht]; exact ih _ t
    · rw [List.length_cons, Nat.mul_succ]; omega

theorem pieces_length_le (c : Config) (o n : Nat) : (c.pieces o n).length ≤ 2 := by
  unfold Config.pieces
  split <;> simp

theorem memRead_ports (o n : Nat) (s : State) : (memRead o n s).Ports 4 s :=
  (readPieces_ports _ s).mono (by have := pieces_length_le s.cfg o n; omega)

theorem memWrite_ports (o n : Nat) (v : Word) (s : State) : (memWrite o n v s).Ports (2 * pieceEvents s.cfg) s :=
  (writePieces_ports _ _ s).mono (by
    rw [Nat.mul_comm]; exact Nat.mul_le_mul_right _ (pieces_length_le s.cfg o n))

/-! ### Sweeps and the string stream -/

theorem flushSlot_ports (i : Nat) (s : State) : (flushSlot i s).Ports 1 s := by
  refine (writeBack_ports i s).andThen (n := 0) fun ok t _ => ?_
  split <;> exact ports_done _ (by constructor <;> rfl)

theorem evictSlot_ports (i : Nat) (s : State) : (evictSlot i s).Ports 1 s := by
  refine (flushSlot_ports i s).andThen (n := 0) fun ok t _ => ?_
  split <;> exact ports_done _ (by constructor <;> rfl)

theorem overSlots_ports {f : Nat → State → Txn Bool} (hf : ∀ i s, (f i s).Ports 1 s) (is : List Nat) (failed : Bool)
    (s : State) : (overSlots f is failed s).Ports is.length s := by
  induction is generalizing s failed with
  | nil => exact ports_done _ (by constructor <;> rfl)
  | cons i is ih =>
    refine Txn.Ports.mono ((hf i s).andThen fun ok t _ => ih _ t) ?_
    rw [List.length_cons]; omega

theorem sweep_ports {f : Nat → State → Txn Bool} (hf : ∀ i s, (f i s).Ports 1 s) (s : State) :
    (sweep f s).Ports s.cfg.numLines s :=
  Txn.Ports.mono ((overSlots_ports hf _ _ s).andThen (n := 0) fun _ _ _ => ports_done _ (by constructor <;> rfl)) (by simp)

theorem streamString_ports (n p : Nat) (s : State) : (streamString n p s).Ports (4 * n) s := by
  induction n generalizing p s with
  | zero => exact ports_done _ (by constructor <;> rfl)
  | succ n ih =>
    refine Txn.Ports.mono ((memRead_ports p 1 s).andThen (n := 4 * n) fun bytes t _ => ?_) (by omega)
    simp only
    split
    · exact (ports_done _ (by constructor <;> rfl)).mono (by omega)
    · exact ((emit_ports _ t).andThen fun _ u _ => ih (p + 1) u).mono (by omega)

/-! ### Instructions -/

/-- What an instruction does at the ports: at most `n` events, and either no cut among them or a power-on reset with
the last, or at an output byte after them, which ends it. -/
def AtPort (n : Nat) (s t : State) : Prop :=
  ∃ es, es.length ≤ n ∧ Ported s t es ∧
    (s.noCut es.length ∨ ∃ (u : State) (ok : Bool) (f : Fault), t = u.powerOn ok ∧ u.cfg = s.cfg ∧
      CutBy s es.length (.powerOn ok) f)

/-- How an instruction ends: in a next state, `AtPort n` of it, or waiting for ever where it is cut short so. -/
def Ends (n : Nat) (s : State) (o : Host.Outcome State Fault Refusal) : Prop :=
  match o with
  | .next t => AtPort n s t
  | .fault f => ∃ m ≤ n, CutBy s m .never f
  | .refused _ => False

theorem AtPort.mono {m n : Nat} (h : AtPort m s t) (hmn : m ≤ n) : AtPort n s t :=
  let ⟨es, h1, h2⟩ := h
  ⟨es, by omega, h2⟩

theorem Ends.mono {m n : Nat} {o : Host.Outcome State Fault Refusal} (h : Ends m s o) (hmn : m ≤ n) : Ends n s o := by
  cases o with
  | next t => exact AtPort.mono h hmn
  | fault f =>
    obtain ⟨k, h1, h2⟩ := h
    exact ⟨k, by omega, h2⟩
  | refused r => exact h

theorem ends_still (h : Still s t) (n : Nat) : Ends n s (.next t) :=
  ⟨[], by simp, h.ported, .inl fun j hj => absurd hj (by simp)⟩

theorem conclude_ends {r : Txn Response} {n : Nat} (h : r.Ports n s) : Ends n s (conclude r) := by
  cases r with
  | done resp u =>
    obtain ⟨es, h1, h2, h3⟩ := h
    exact ⟨es, h1, h2.right (by constructor <;> rfl), .inl h3⟩
  | stop w u =>
    obtain ⟨es, h1, h2, h3⟩ := h
    cases w with
    | fault k i => exact ⟨es, h1, h2.right (.raise u k i), .inl h3⟩
    | powerOn ok =>
      obtain ⟨f, h3⟩ := h3
      exact ⟨es, h1, h2.right (by constructor <;> rfl), .inr ⟨u, ok, f, rfl, h2.cfg, h3⟩⟩
    | stuck f => exact ⟨es.length, h1, h3⟩

theorem ramRead_ends (n : Nat) (a : Word) (s : State) : Ends 4 s (ramRead n a s) := by
  unfold ramRead
  simp only
  split
  · exact ends_still (.raise _ _ _) _
  · exact conclude_ends ((memRead_ports _ _ s).andThen (n := 0) fun _ _ _ => ports_done _ (by constructor <;> rfl))

theorem ramWrite_ends (n : Nat) (a v : Word) (s : State) : Ends (2 * pieceEvents s.cfg) s (ramWrite n a v s) := by
  unfold ramWrite
  simp only
  split
  · exact ends_still (.raise _ _ _) _
  · exact conclude_ends ((memWrite_ports _ _ _ s).andThen (n := 0) fun _ _ _ => ports_done _ (by constructor <;> rfl))

theorem dbgStr_ends (v : Word) (s : State) : Ends (4 * s.cfg.ramSize) s (execCsrwDbgStr v s) := by
  unfold execCsrwDbgStr
  simp only
  split
  · exact ends_still (.raise _ _ _) _
  · exact (conclude_ends ((streamString_ports _ _ s).andThen (n := 0) fun _ _ _ =>
      ports_done _ (by constructor <;> rfl))).mono (by omega)

theorem emitAndRespond_ends (bytes : List Byte) (s : State) : Ends 0 s (emitAndRespond bytes s) :=
  conclude_ends ((emitStr_ports bytes s).andThen (n := 0) fun _ _ _ => ports_done _ (by constructor <;> rfl))

theorem reservedKey_ends (p : Port) (a : Word) (s : State) : Ends 0 s (reservedKey p a s) := by
  cases p
  case console => exact ends_still (by constructor <;> rfl) _
  all_goals exact ends_still (.raise _ _ _) _

/-- How any instruction ends, in every state: it answers a next state unless a wait for the host is endless. -/
theorem exec_ends (i : Instr) (s : State) : ∃ n, Ends n s (exec i s) := by
  cases i
  case fetchRam => exact ⟨_, ramRead_ends _ _ s⟩
  case loadBRam => exact ⟨_, ramRead_ends _ _ s⟩
  case loadHRam => exact ⟨_, ramRead_ends _ _ s⟩
  case loadWRam => exact ⟨_, ramRead_ends _ _ s⟩
  case storeBRam => exact ⟨_, ramWrite_ends _ _ _ s⟩
  case storeHRam => exact ⟨_, ramWrite_ends _ _ _ s⟩
  case storeWRam => exact ⟨_, ramWrite_ends _ _ _ s⟩
  case flushAll => exact ⟨_, conclude_ends (sweep_ports flushSlot_ports s)⟩
  case evictAll => exact ⟨_, conclude_ends (sweep_ports evictSlot_ports s)⟩
  case csrwDbgStr => exact ⟨_, dbgStr_ends _ s⟩
  case csrwDbgDec => exact ⟨_, emitAndRespond_ends _ s⟩
  case csrwDbgHex => exact ⟨_, emitAndRespond_ends _ s⟩
  case csrwDbgChr => exact ⟨_, emitAndRespond_ends _ s⟩
  case storeUartTx => exact ⟨_, emitAndRespond_ends _ s⟩
  case csrrDbgIn =>
    refine ⟨0, ?_⟩
    rw [exec]
    unfold execCsrrDbgIn
    split <;> exact ends_still (by constructor <;> rfl) _
  case pollInput b =>
    refine ⟨0, ?_⟩
    rw [exec]
    unfold execPollInput State.deliverInput
    split <;> exact ends_still (by constructor <;> rfl) _
  case reservedCmdB p a => exact ⟨_, reservedKey_ends p a s⟩
  case reservedCmdCToF p l a => exact ⟨_, reservedKey_ends p a s⟩
  case reservedWrongPort p l a => exact ⟨_, reservedKey_ends p a s⟩
  all_goals exact ⟨0, ends_still (by constructor <;> rfl) _⟩

/-- What any instruction does at the ports where it answers a next state. -/
theorem exec_port (i : Instr) (e : exec i s = .next t) : ∃ n, AtPort n s t := by
  obtain ⟨n, h⟩ := exec_ends i s
  rw [e] at h
  exact ⟨n, h⟩

/-- No instruction is refused, and each answers a next state when the host does its duties (R206). -/
theorem exec_next (i : Instr) (hd : s.dutiful) : ∃ t, exec i s = .next t := by
  obtain ⟨n, h⟩ := exec_ends i s
  cases he : exec i s with
  | next t => exact ⟨t, rfl⟩
  | refused r => rw [he] at h; exact h.elim
  | fault f =>
    rw [he] at h
    obtain ⟨m, -, hc⟩ := h
    cases hc with
    | @store k hn hk hc =>
      rw [List.getD_eq_getElem?_getD] at hc
      cases hl : s.bsAnswers[k]? with
      | none => rw [hl] at hc; cases hc
      | some a => rw [hl] at hc; exact absurd hc (hd.answers a (List.mem_of_getElem? hl))
    | console hn hc => exact absurd rfl (hd.console _ hc)

end Sys2Proof.Machine
end

