-- ==== Sys2Proof/Laws/Whole.lean ====
section
/-! SUPPORT. What holds of every instruction that answers a next state: it keeps `Inv` and the unsettled lines, and
`exec_served`, which says once what any instruction may do to the streams, the latch, the counters, the backing-store
port and the RAM view. -/

namespace Sys2Proof.Machine

open Sys2Proof

variable {s t u : State}

/-- No instruction unsettles a line or draws for one. -/
theorem exec_unsettled (i : Instr) (e : exec i s = .next t) : t.unsettled = s.unsettled ∧ t.draws = s.draws := by
  obtain ⟨n, es, -, h, -⟩ := exec_port i e
  exact ⟨h.unsettled, h.draws⟩

/-! ### The invariant -/

theorem ramRead_inv (h : Inv s) {n : Nat} (hn : n ∈ [1, 2, 4]) (a : Word) (e : ramRead n a s = .next t) : Inv t := by
  by_cases ho : s.cfg.off a + n ≤ s.cfg.ramSize
  · rcases ramRead_spec h hn ho with ⟨bytes, u, h1, -, -, -, he⟩ | ⟨w, u, h1, -, -, he⟩
    · rw [e] at he; injection he with he; exact he ▸ h1.inv.setResp _
    · exact conclude_stop_inv h1.inv (he ▸ e)
  · unfold ramRead at e; rw [if_pos (by omega)] at e; injection e with e; exact e ▸ h.raise _ _

theorem ramWrite_inv (h : Inv s) {n : Nat} (hn : n ∈ [1, 2, 4]) (a v : Word) (e : ramWrite n a v s = .next t) :
    Inv t := by
  by_cases ho : s.cfg.off a + n ≤ s.cfg.ramSize
  · rcases ramWrite_spec h hn ho with ⟨u, h1, -, -, he⟩ | ⟨w, u, lines, -, -, -, -, h1, he⟩
    · rw [e] at he; injection he with he; exact he ▸ h1.inv.setResp _
    · exact conclude_stop_inv h1.inv (he ▸ e)
  · unfold ramWrite at e; rw [if_pos (by omega)] at e; injection e with e; exact e ▸ h.raise _ _

theorem sweep_inv {f : Nat → State → Txn Bool} {g : Slot → Slot} (hf : SweepsSlot f g) (h : Inv s)
    (e : conclude (sweep f s) = .next t) : Inv t := by
  rcases sweepEnd_spec hf h with ⟨failed, u, h1, -, -, -, he⟩ | ⟨failed, w, u, h1, -, -, he⟩
  · rw [e] at he; injection he with he; exact he ▸ h1.inv.setResp _
  · exact conclude_stop_inv h1.inv (he ▸ e)

theorem dbgStr_inv (h : Inv s) {v : Word} (e : exec (.csrwDbgStr v) s = .next t) : Inv t := by
  rw [exec] at e
  by_cases hv : s.cfg.off v < s.cfg.ramSize
  · rcases dbgStr_spec h hv with ⟨out, u, h1, -, -, -, -, he⟩ | ⟨w, out, u, h1, -, -, -, -, he⟩
    · rw [he] at e; injection e with e; exact e ▸ h1.inv.setResp _
    · exact conclude_stop_inv h1.inv (he ▸ e)
  · unfold execCsrwDbgStr at e; rw [if_pos (by omega)] at e; injection e with e; exact e ▸ h.raise _ _

theorem emitAndRespond_inv (h : Inv s) {bytes : List Byte} (e : emitAndRespond bytes s = .next t) : Inv t := by
  rcases emitAndRespond_spec bytes h with he | ⟨w, u, k, -, -, rfl, he⟩
  · rw [he] at e; injection e with e; subst e; exact h.congr rfl rfl rfl rfl
  · refine conclude_stop_inv ?_ (he ▸ e)
    exact h.congr rfl rfl rfl rfl

theorem reservedKey_inv (h : Inv s) {p : Port} {a : Word} (e : reservedKey p a s = .next t) : Inv t := by
  cases p <;> (injection e with e; subst e; exact h.congr rfl rfl rfl rfl)

/-- Every instruction keeps `Inv`. -/
theorem exec_inv (h : Inv s) (i : Instr) (e : exec i s = .next t) : Inv t := by
  cases i
  case fetchRam a => exact ramRead_inv h (by decide) a e
  case loadBRam a => exact ramRead_inv h (by decide) a e
  case loadHRam a => exact ramRead_inv h (by decide) a e
  case loadWRam a => exact ramRead_inv h (by decide) a e
  case storeBRam a v => exact ramWrite_inv h (by decide) a v e
  case storeHRam a v => exact ramWrite_inv h (by decide) a v e
  case storeWRam a v => exact ramWrite_inv h (by decide) a v e
  case flushAll => exact sweep_inv flushSlot_spec h e
  case evictAll => exact sweep_inv evictSlot_spec h e
  case restart => injection e with e; exact e ▸ h.restartBlock
  case csrwDbgStr v => exact dbgStr_inv h e
  case csrwDbgDec v => exact emitAndRespond_inv h e
  case csrwDbgHex v => exact emitAndRespond_inv h e
  case csrwDbgChr v => exact emitAndRespond_inv h e
  case storeUartTx w v => exact emitAndRespond_inv h e
  case csrrDbgIn =>
    rw [exec] at e; unfold execCsrrDbgIn at e
    split at e <;> (injection e with e; subst e; exact h.congr rfl rfl rfl rfl)
  case pollInput b =>
    injection e with e; subst e
    refine h.congr ?_ ?_ ?_ ?_ <;> (unfold State.deliverInput; split <;> rfl)
  case reservedCmdB p a => exact reservedKey_inv h e
  case reservedCmdCToF p l a => exact reservedKey_inv h e
  case reservedWrongPort p l a => exact reservedKey_inv h e
  all_goals (injection e with e; subst e; exact h.congr rfl rfl rfl rfl)

/-! ### What an instruction may do -/

/-- The latch is set by a recorded IOFault and by nothing else. -/
def LatchedBy (s t : State) (records : List ErrorRecord) : Prop :=
  t.errLog = s.errLog ++ records ∧ t.ioFaultLatch = (s.ioFaultLatch || records.any (·.kind == .io))

/-- The backing-store events from `s` to `t`, each one whole line. -/
def Traced (s t : State) : Prop := ∃ events, t.bsLog = s.bsLog ++ events ∧ ∀ e ∈ events, e.wholeLine s.cfg

/-- What an instruction that is not cut short does. -/
structure Served (i : Instr) (s t : State) : Prop where
  cfg      : t.cfg = s.cfg
  console  : s.conOut <+: t.conOut
  records  : ∃ records, LatchedBy s t records ∨
    (((∃ insn code, i = .postExec insn code) ∨ i = .restart) ∧ t.errLog = s.errLog ∧ t.ioFaultLatch = false)
  trace    : Traced s t
  counted  : Counted s t (s.cfg.ramSize + 2)
  coherent : Coherent s → Coherent t
  view     : storesToRam i = false → i ≠ .restart → Coherent s → ∀ p, t.view p = s.view p

/-- A power-on reset ended the transaction in the state `u`. -/
def Abandoned (s t : State) : Prop := ¬ s.uncut ∧ ∃ u ok, t = u.powerOn ok ∧ Traced s u

theorem KeepsCache.served (hk : KeepsCache s t) {i : Instr} (hc : t.cfg = s.cfg) (hco : s.conOut <+: t.conOut)
    (hr : ∃ records, LatchedBy s t records ∨
      (((∃ insn code, i = .postExec insn code) ∨ i = .restart) ∧ t.errLog = s.errLog ∧ t.ioFaultLatch = false)) :
    Served i s t where
  cfg      := hc
  console  := hco
  records  := hr
  trace    := ⟨[], by simp [hk.bsLog]⟩
  counted  := ⟨0, 0, by omega, by omega, by simp [hk.accesses], by simp [hk.hits]⟩
  coherent h x hx := by rw [hk.bs, hc]; exact h x (hk.slots ▸ hx)
  view _ _ _ p := State.view_congr hk.slots hc hk.bs p

theorem KeepsCache.silent (hk : KeepsCache s t) {i : Instr} (hc : t.cfg = s.cfg) (hco : s.conOut <+: t.conOut)
    (he : t.errLog = s.errLog) (hl : t.ioFaultLatch = s.ioFaultLatch) : Served i s t ∨ Abandoned s t :=
  .inl (hk.served hc hco ⟨[], .inl ⟨by simp [he], by simp [hl]⟩⟩)

theorem Calm.served (h : Calm s u) {n : Nat} (hc : Counted s u n) (hn : n ≤ s.cfg.ramSize + 2) (i : Instr)
    (r : Option Response) : Served i s (u.setResp r) where
  cfg      := h.inner.cfg
  console  := by simp [h.inner.rest.conOut]
  records  := ⟨[], .inl ⟨by simp [h.inner.errors.errLog], by simp [h.inner.errors.latch]⟩⟩
  trace    := h.trace
  counted  := (hc.mono hn).congr rfl rfl
  coherent := h.coherent
  view _ _ hc p := by simp [h.view hc]

theorem Calm.served_raise (h : Calm s u) {n : Nat} (hc : Counted s u n) (hn : n ≤ s.cfg.ramSize + 2) (i : Instr)
    (info : Word) : Served i s (u.raise .io info) where
  cfg      := h.inner.cfg
  console  := by simp [h.inner.rest.conOut]
  records  := ⟨[⟨.io, info⟩], .inl ⟨by simp [h.inner.errors.errLog], by simp⟩⟩
  trace    := h.trace
  counted  := (hc.mono hn).congr rfl rfl
  coherent := h.coherent
  view _ _ hc p := by simp [h.view hc]

theorem Went.latchedBy {failed : Bool} {out : List Byte} (h : Went s u failed out) : ∃ records, LatchedBy s u records := by
  obtain ⟨recs, h1, h2, h3⟩ := h.errors
  refine ⟨recs, h1, ?_⟩
  rw [h.latch]
  congr 1
  cases failed with
  | false => rw [h2.1 rfl]; rfl
  | true =>
    cases recs with
    | nil => simp at h2
    | cons r rs => simp [h3 r (by simp)]

theorem Went.served {failed : Bool} {out : List Byte} (h : Went s u failed out) {n : Nat} (hc : Counted s u n)
    (hn : n ≤ s.cfg.ramSize + 2) (i : Instr) (r : Option Response) : Served i s (u.setResp r) where
  cfg      := h.cfg
  console  := by simp [h.console.2.2]
  records  := let ⟨recs, h1⟩ := h.latchedBy; ⟨recs, .inl h1⟩
  trace    := h.trace
  counted  := (hc.mono hn).congr rfl rfl
  coherent := h.coherent
  view _ _ hc p := by simp [h.view hc]

theorem Went.served_raise {failed : Bool} {out : List Byte} (h : Went s u failed out) {n : Nat} (hc : Counted s u n)
    (hn : n ≤ s.cfg.ramSize + 2) (i : Instr) (info : Word) : Served i s (u.raise .io info) where
  cfg      := h.cfg
  console  := by simp [h.console.2.2]
  records  := let ⟨recs, h1, _⟩ := h.latchedBy; ⟨recs ++ [⟨.io, info⟩], .inl ⟨by simp [h1], by simp⟩⟩
  trace    := h.trace
  counted  := (hc.mono hn).congr rfl rfl
  coherent := h.coherent
  view _ _ hc p := by simp [h.view hc]

theorem Wrote.served {o : Nat} {bytes : List Byte} (h : Wrote s u o bytes) {n : Nat} (hc : Counted s u n)
    (hn : n ≤ s.cfg.ramSize + 2) {i : Instr} (hi : storesToRam i = true) (r : Option Response) :
    Served i s (u.setResp r) where
  cfg      := h.inner.cfg
  console  := by simp [h.inner.rest.conOut]
  records  := ⟨[], .inl ⟨by simp [h.inner.errors.errLog], by simp [h.inner.errors.latch]⟩⟩
  trace    := h.trace
  counted  := (hc.mono hn).congr rfl rfl
  coherent := h.coherent
  view hf  := by simp [hi] at hf

theorem Wrote.served_raise {o : Nat} {bytes : List Byte} (h : Wrote s u o bytes) {n : Nat} (hc : Counted s u n)
    (hn : n ≤ s.cfg.ramSize + 2) {i : Instr} (hi : storesToRam i = true) (info : Word) :
    Served i s (u.raise .io info) where
  cfg      := h.inner.cfg
  console  := by simp [h.inner.rest.conOut]
  records  := ⟨[⟨.io, info⟩], .inl ⟨by simp [h.inner.errors.errLog], by simp⟩⟩
  trace    := h.trace
  counted  := (hc.mono hn).congr rfl rfl
  coherent := h.coherent
  view hf  := by simp [hi] at hf

/-- A stop of a transaction that leaves a next state: its IOFault, or the power-on reset that abandoned it. -/
theorem conclude_stop_served {w : Stop} {i : Instr} (hs : StopOk s w) (ht : Traced s u)
    (hf : ∀ info, w = .fault .io info → Served i s (u.raise .io info)) (e : conclude (.stop w u) = .next t) :
    Served i s t ∨ Abandoned s t := by
  cases w with
  | fault k info =>
    obtain ⟨rfl, -⟩ := hs.2
    injection e with e
    exact .inl (e ▸ hf info rfl)
  | powerOn ok =>
    injection e with e
    exact .inr ⟨hs.2, u, ok, e.symm, ht⟩
  | stuck f => cases e

/-- A fault that is no IOFault, on its own. -/
theorem served_raise {k : FaultKind} (hk : k ≠ .io) (i : Instr) (info : Word) (s : State) :
    Served i s (s.raise k info) := by
  refine KeepsCache.served ?_ (by cases k <;> rfl) (by cases k <;> exact List.prefix_refl _) ⟨[⟨k, info⟩], .inl ?_⟩
  · constructor <;> cases k <;> rfl
  · constructor <;> cases k <;> first | exact absurd rfl hk | simp

theorem ramRead_served (h : Inv s) {n : Nat} (hn : n ∈ [1, 2, 4]) (a : Word) (i : Instr)
    (e : ramRead n a s = .next t) : Served i s t ∨ Abandoned s t := by
  by_cases ho : s.cfg.off a + n ≤ s.cfg.ramSize
  · rcases ramRead_spec h hn ho with ⟨bytes, u, h1, -, -, hc, he⟩ | ⟨w, u, h1, hs, hc, he⟩
    · rw [e] at he; injection he with he; exact .inl (he ▸ h1.served hc (by omega) _ _)
    · exact conclude_stop_served hs h1.trace (fun info _ => h1.served_raise hc (by omega) _ _) (he ▸ e)
  · unfold ramRead at e; rw [if_pos (by omega)] at e; injection e with e
    exact .inl (e ▸ served_raise (by decide) _ _ _)

theorem ramWrite_served (h : Inv s) {n : Nat} (hn : n ∈ [1, 2, 4]) (a v : Word) {i : Instr} (hi : storesToRam i = true)
    (e : ramWrite n a v s = .next t) : Served i s t ∨ Abandoned s t := by
  by_cases ho : s.cfg.off a + n ≤ s.cfg.ramSize
  · rcases ramWrite_spec (v := v) h hn ho with ⟨u, h1, -, hc, he⟩ | ⟨w, u, lines, hc, -, -, -, h1, he⟩
    · rw [e] at he; injection he with he; exact .inl (he ▸ h1.served hc (by omega) hi _)
    · refine conclude_stop_served h1.stop h1.trace (fun info hw => ?_) (he ▸ e)
      obtain ⟨_, -, m, -, -, hm⟩ := h1.partly _ _ hw
      exact hm.served_raise hc (by omega) hi _
  · unfold ramWrite at e; rw [if_pos (by omega)] at e; injection e with e
    exact .inl (e ▸ served_raise (by decide) _ _ _)

theorem sweep_served {f : Nat → State → Txn Bool} {g : Slot → Slot} (hf : SweepsSlot f g) (h : Inv s) (i : Instr)
    (e : conclude (sweep f s) = .next t) : Served i s t ∨ Abandoned s t := by
  rcases sweepEnd_spec hf h with ⟨failed, u, h1, hs, -, -, he⟩ | ⟨failed, w, u, h1, hs, hcut, he⟩
  · rw [e] at he; injection he with he
    exact .inl (he ▸ h1.served (n := 0) ((Counted.refl s).congr hs.accesses hs.hits) (by omega) _ _)
  · exact conclude_stop_served hs h1.trace (fun info hw => by subst hw; exact hcut.elim) (he ▸ e)

theorem dbgStr_served (h : Inv s) {v : Word} (e : exec (.csrwDbgStr v) s = .next t) :
    Served (.csrwDbgStr v) s t ∨ Abandoned s t := by
  rw [exec] at e
  by_cases hv : s.cfg.off v < s.cfg.ramSize
  · rcases dbgStr_spec h hv with ⟨out, u, h1, -, -, -, hc, he⟩ | ⟨w, out, u, h1, hs, -, hc, -, he⟩
    · rw [he] at e; injection e with e; exact .inl (e ▸ h1.served hc (by omega) _ _)
    · exact conclude_stop_served hs h1.trace (fun info _ => h1.served_raise hc (by omega) _ _) (he ▸ e)
  · unfold execCsrwDbgStr at e; rw [if_pos (by omega)] at e; injection e with e
    exact .inl (e ▸ served_raise (by decide) _ _ _)

theorem emitAndRespond_served (h : Inv s) {bytes : List Byte} (i : Instr) (e : emitAndRespond bytes s = .next t) :
    Served i s t ∨ Abandoned s t := by
  rcases emitAndRespond_spec bytes h with he | ⟨w, u, k, hs, hcut, rfl, he⟩
  · rw [he] at e; injection e with e; subst e
    exact (by constructor <;> rfl : KeepsCache s _).silent rfl (by simp) rfl rfl
  · exact conclude_stop_served hs ⟨[], by simp⟩ (fun info hw => by subst hw; exact hcut.elim) (he ▸ e)

theorem reservedKey_served {p : Port} {a : Word} (i : Instr) (e : reservedKey p a s = .next t) : Served i s t := by
  cases p
  case console =>
    injection e with e; subst e
    exact KeepsCache.served (by constructor <;> rfl) rfl (List.prefix_refl _) ⟨[⟨.device, a⟩], .inl ⟨rfl, by simp⟩⟩
  all_goals (injection e with e; exact e ▸ served_raise (by decide) _ _ _)

/-- What any instruction may do, whatever the backing store answers. -/
theorem exec_served (h : Inv s) (i : Instr) (e : exec i s = .next t) : Served i s t ∨ Abandoned s t := by
  cases i
  case fetchRam a => exact ramRead_served h (by decide) a _ e
  case loadBRam a => exact ramRead_served h (by decide) a _ e
  case loadHRam a => exact ramRead_served h (by decide) a _ e
  case loadWRam a => exact ramRead_served h (by decide) a _ e
  case storeBRam a v => exact ramWrite_served h (by decide) a v rfl e
  case storeHRam a v => exact ramWrite_served h (by decide) a v rfl e
  case storeWRam a v => exact ramWrite_served h (by decide) a v rfl e
  case flushAll => exact sweep_served flushSlot_spec h _ e
  case evictAll => exact sweep_served evictSlot_spec h _ e
  case csrwDbgStr v => exact dbgStr_served h e
  case csrwDbgDec v => exact emitAndRespond_served h _ e
  case csrwDbgHex v => exact emitAndRespond_served h _ e
  case csrwDbgChr v => exact emitAndRespond_served h _ e
  case storeUartTx w v => exact emitAndRespond_served h _ e
  case restart =>
    injection e with e; subst e
    exact .inl {
      cfg      := rfl
      console  := List.prefix_refl _
      records  := ⟨[], .inr ⟨.inr rfl, rfl, rfl⟩⟩
      trace    := ⟨[], (List.append_nil _).symm, by simp⟩
      counted  := (Counted.refl s).mono (by omega) |>.congr rfl rfl
      coherent := fun _ => (State.empty_restartBlock s).coherent
      view     := fun _ hr => absurd rfl hr }
  case reservedCmdB p a => exact .inl (reservedKey_served _ e)
  case reservedCmdCToF p l a => exact .inl (reservedKey_served _ e)
  case reservedWrongPort p l a => exact .inl (reservedKey_served _ e)
  case reservedLoadSize11 a => exact .inl (reservedKey_served (p := .core) (a := a) _ e)
  case reservedStoreSize11 a => exact .inl (reservedKey_served (p := .core) (a := a) _ e)
  case reservedCsrrWide a => exact .inl (reservedKey_served (p := .core) (a := a) _ e)
  case reservedCsrwWide a => exact .inl (reservedKey_served (p := .core) (a := a) _ e)
  case fetchNonram a => injection e with e; exact .inl (e ▸ served_raise (by decide) _ _ _)
  case loadUnmapped w a => injection e with e; exact .inl (e ▸ served_raise (by decide) _ _ _)
  case storeUnmapped w a v => injection e with e; exact .inl (e ▸ served_raise (by decide) _ _ _)
  case postExec x y =>
    injection e with e; subst e
    exact .inl (KeepsCache.served (by constructor <;> rfl) rfl (List.prefix_refl _)
      ⟨[], .inr ⟨.inl ⟨x, y, rfl⟩, rfl, rfl⟩⟩)
  case csrrDbgIn =>
    rw [exec] at e; unfold execCsrrDbgIn at e
    split at e <;> (injection e with e; subst e; exact (by constructor <;> rfl : KeepsCache s _).silent rfl (by simp) rfl rfl)
  case pollInput b =>
    injection e with e; subst e
    unfold State.deliverInput
    split <;> exact (by constructor <;> rfl : KeepsCache s _).silent rfl (by simp) rfl rfl
  all_goals (injection e with e; subst e; exact (by constructor <;> rfl : KeepsCache s _).silent rfl (by simp) rfl rfl)

/-- No host event settles a line, and none draws for one (R201). -/
theorem hostStep_unsettled {e : HostEvent} (h : hostStep e s = .next t) :
    (∀ tag ∈ s.unsettled, tag ∈ t.unsettled) ∧ t.draws = s.draws := by
  cases e with
  | powerOn ok => injection h with h; subst h; exact ⟨fun _ h => h, rfl⟩
  | imageWrite o b =>
    simp only [hostStep, writeImage] at h
    split at h
    · cases h
    · injection h with h; subst h
      split
      · exact ⟨fun _ h => h, rfl⟩
      · exact ⟨fun tag ht => State.mem_unsettle.2 (.inr ht), rfl⟩
  | release => injection h with h; subst h; exact ⟨fun _ h => h, rfl⟩
  | runLoop image =>
      simp only [hostStep, runLoopStep] at h
      split at h
      · injection h with h; subst h; exact ⟨fun _ h => h, rfl⟩
      · split at h
        · injection h with h; subst h; exact ⟨fun _ h => h, rfl⟩
        · obtain ⟨hr, rfl⟩ := loadImage_next (State.mayBulkLoad_restartBlock _) (accept_next h).2.2
          exact ⟨fun _ h => h, rfl⟩
        · have := (accept_next h).2.2
          unfold powerOff at this
          have hp := sweep_ports flushSlot_ports (s.setPostCode none)
          split at this
          · next hs =>
            rw [hs] at hp
            obtain ⟨es, -, hp, -⟩ := hp
            injection this with this; subst this
            exact ⟨fun tag ht => by simpa [hp.unsettled] using ht, hp.draws⟩
          · next w u hs =>
            rw [hs] at hp
            obtain ⟨es, -, hp, -⟩ := hp
            cases w with
            | fault k i =>
              injection this with this
              subst this
              exact ⟨fun tag ht => by simpa [hp.unsettled] using ht, by simpa using hp.draws⟩
            | powerOn ok =>
              injection this with this
              subst this
              exact ⟨fun tag ht => by simpa [hp.unsettled] using ht, by simpa using hp.draws⟩
            | stuck f => cases this

end Sys2Proof.Machine
end

