-- ==== Sys2Proof/Tests/Slice0.lean ====
section
/-! SUPPORT. Checks of the model on the vectors of spec/95_test_vectors.md (named C-, B-, S-, H-, R-, Z- there), the
well-formedness checks on ill-formed terms, the decoding of words written out from spec/30_encoding.md R55 to R58, and
for each obligation with hypotheses a theorem `witness_<name>` that meets them. -/

namespace Sys2Proof.Tests

open Sys2Proof Sys2Proof.Machine

/- Each `decide +kernel` waits for the declarations before it, and a thread for each would not fit the memory limit. -/
set_option Elab.async false

/-! ### The configuration SC and small states over it -/

/-- SC: LINE_SIZE 16, NUM_LINES 2, RAM_SIZE 64, RAM_IMAGE_OFFSET 0x8000_0000, WRITE_BACK. -/
def scConfig : Config := { Config.standard with ramSize := 64, lsBits := 4, numLines := 2 }

/-- `BS[o] = o` for every offset of SC. -/
def scImage : Memory := (List.range 63).map fun o => (o + 1, BitVec.ofNat 8 (o + 1))

/-- SC from power-on reset, once the core has had a transaction. -/
def sc : State :=
  { State.reset with
    cfg     := scConfig
    slots   := List.replicate 2 (Slot.empty 16)
    lru     := [0, 1]
    bs      := scImage
    booting := false }

/-- Line `tag` as SC's image holds it. -/
def scLine (tag : Nat) : List Byte := scImage.readBytes tag 16

/-- SC with line 0 dirty in slot 0 (byte 1 stored as 0xAA) and line 16 clean in slot 1, used last. -/
def scDirty : State :=
  { sc with
    slots    := [⟨true, 0#32, true, splice (scLine 0) 1 [0xAA#8]⟩, ⟨true, 16#32, false, scLine 16⟩]
    lru      := [1, 0]
    accesses := 2#64 }

/-- The same with line 0 clean. -/
def scClean : State := { scDirty with slots := [⟨true, 0#32, false, scLine 0⟩, ⟨true, 16#32, false, scLine 16⟩] }

/-- SC with both lines dirty. -/
def scTwoDirty : State :=
  { scDirty with slots := [⟨true, 0#32, true, splice (scLine 0) 1 [0xAA#8]⟩,
      ⟨true, 16#32, true, splice (scLine 16) 1 [0xBB#8]⟩] }

/-- The same machine under WRITE_THROUGH. -/
def writeThrough (s : State) : State := { s with cfg := { s.cfg with writePolicy := .writeThrough } }

/-- The backing store answers FAIL to the next transaction and leaves `left` behind. -/
def failing (left : List Byte) (s : State) : State := { s with bsAnswers := [⟨false, left, none⟩] }

/-- The next state of an outcome. -/
def nextOf (o : Host.Outcome State Fault Refusal) : Option State :=
  match o with
  | .next t => some t
  | _ => none

/-- The next state, for an outcome that has one. -/
def after (o : Host.Outcome State Fault Refusal) : State := (nextOf o).getD State.reset

theorem eq_next_after {o : Host.Outcome State Fault Refusal} (h : (nextOf o).isSome = true) : o = .next (after o) := by
  cases o with
  | next t => rfl
  | fault f => simp [nextOf] at h
  | refused r => simp [nextOf] at h

/-- Why an outcome stops. -/
def stopOf (o : Host.Outcome State Fault Refusal) : Option (Fault ⊕ Refusal) :=
  match o with
  | .next _ => none
  | .fault f => some (.inl f)
  | .refused r => some (.inr r)

/-- One step on a key and a data word, presented on the port of the key's command. -/
def present (s : State) (key wdata : Nat) : Host.Outcome State Fault Refusal :=
  step (s.withFetchWord 72 (wdata * 2 ^ 40 + key))

/-- Its next state. -/
def served (s : State) (key wdata : Nat) : Option State := nextOf (present s key wdata)

/-- What a vector's columns show: the response, the backing-store events and the statistics. -/
def seen (t : Option State) : Option (Option Response × List BsEvent × Nat × Nat) :=
  t.map fun t => (t.resp, t.bsLog, t.hits.toNat, t.accesses.toNat)

/-- The response of a transaction that answers `rdata`. -/
def answer (rdata : Word) : Option Response := some ⟨rdata, none, none⟩

/-- The response of a transaction that raises. -/
def faulted (k : FaultKind) : Option Response := some ⟨0#32, some k, none⟩

/-! ### Ill-formed terms -/

/-- SC as a decode context. -/
def scCtx (pending : Bool) : DecodeCtx := ⟨scConfig, pending⟩

theorem test_wf_reserved :
    (Instr.reservedCsrrWide 0x140#32).wellFormed (scCtx false) = false ∧
    (Instr.reservedCsrwWide 0xFFF#32).wellFormed (scCtx false) = false ∧
    (Instr.reservedWrongPort .control .flushAll 0#32).wellFormed (scCtx false) = false := by decide +kernel

theorem test_wf_device :
    (Instr.loadUartRx .byte).wellFormed (scCtx false) = false ∧
    (Instr.loadUartRxEmpty .byte).wellFormed (scCtx true) = false ∧
    (Instr.loadDevDefault .byte 0#3).wellFormed (scCtx false) = false ∧
    (Instr.loadDevDefault .byte 5#3).wellFormed (scCtx false) = false ∧
    (Instr.storeDevDefault .byte 0#3 0#32).wellFormed (scCtx false) = false := by decide +kernel

theorem test_wf_csr :
    (Instr.csrrDefault 0x140#12).wellFormed (scCtx false) = false ∧
    (Instr.csrwDefault 0x136#12 0#32).wellFormed (scCtx false) = false ∧
    (Instr.csrwDefault 0x139#12 0#32).wellFormed (scCtx false) = false := by decide +kernel

theorem test_wf_ram :
    (Instr.fetchRam 0x80000040#32).wellFormed (scCtx false) = false ∧
    (Instr.loadBRam 0x7FFFFFFF#32).wellFormed (scCtx false) = false ∧
    (Instr.loadHRam 0x10000000#32).wellFormed (scCtx false) = false ∧
    (Instr.loadWRam 0x80000040#32).wellFormed (scCtx false) = false ∧
    (Instr.storeBRam 0x80000040#32 0#32).wellFormed (scCtx false) = false ∧
    (Instr.storeHRam 0#32 0#32).wellFormed (scCtx false) = false ∧
    (Instr.storeWRam 0x10000007#32 0#32).wellFormed (scCtx false) = false := by decide +kernel

theorem test_wf_outside :
    (Instr.fetchNonram 0x8000003F#32).wellFormed (scCtx false) = false ∧
    (Instr.loadUnmapped .word 0x80000000#32).wellFormed (scCtx false) = false ∧
    (Instr.loadUnmapped .word 0x10000007#32).wellFormed (scCtx false) = false ∧
    (Instr.storeUnmapped .word 0x10000000#32 0#32).wellFormed (scCtx false) = false := by decide +kernel

/-- One configuration for each constraint of R8 and R9 that it breaks. -/
def badConfigs : List Config := [
  { scConfig with lsBits := 1 },
  { scConfig with ramSize := 65 },
  { scConfig with ramSize := 0 },
  { scConfig with ramImageOffset := 0xFFFFFFD0#32 },
  { scConfig with numLines := 0 },
  { scConfig with ramImageOffset := 0x0FFFFFD0#32 },
  { scConfig with noDataSentinel := 0x7FFFFFFF#32 },
  { scConfig with restartCode := 3#32 },
  { scConfig with poweroffCode := scConfig.restartCode },
  { scConfig with failCode := 0#32 }]

theorem test_wf_config : scConfig.wf ∧ ∀ c ∈ badConfigs, ¬ c.wf := by decide +kernel

theorem test_step_refuses_bad_config :
    ∀ c ∈ badConfigs, stopOf (present { sc with cfg := c } 0x8000000000 0) = some (.inr .badConfiguration) := by
  decide +kernel

/-! ### Words written out from the encoding (R55 to R58) -/

/-- The row of SC's decoder for a key on a port. -/
def row (pending : Bool) (port : Port) (key : Key) (wdata : Word) : Instr := decode (scCtx pending) ⟨port, key, wdata⟩

theorem test_decode_reserved :
    row false .core 0xB000000001#40 0#32 = .reservedCmdB .core 1#32 ∧
    row false .control 0xD000000002#40 0#32 = .reservedCmdCToF .control 1#2 2#32 ∧
    row false .core 0x1C80000000#40 0#32 = .reservedLoadSize11 0x80000000#32 ∧
    row false .core 0x2C10000000#40 0#32 = .reservedStoreSize11 0x10000000#32 ∧
    row false .core 0x3000001140#40 0#32 = .reservedCsrrWide 0x1140#32 ∧
    row false .core 0x4000010136#40 0#32 = .reservedCsrwWide 0x10136#32 ∧
    row false .core 0x9000000000#40 0#32 = .reservedWrongPort .core .pollInput 0#32 := by decide +kernel

theorem test_decode_device :
    row false .core 0x2410000000#40 0x41#32 = .storeUartTx .half 0x41#32 ∧
    row true .core 0x1810000000#40 0#32 = .loadUartRx .word ∧
    row false .core 0x1010000000#40 0#32 = .loadUartRxEmpty .byte ∧
    row false .core 0x1410000005#40 0#32 = .loadUartLsr .half ∧
    row false .core 0x1810000007#40 0#32 = .loadDevDefault .word 7#3 ∧
    row false .core 0x2010000005#40 0x41#32 = .storeDevDefault .byte 5#3 0x41#32 := by decide +kernel

theorem test_decode_csr :
    row false .core 0x4000000136#40 7#32 = .csrwDbgDec 7#32 ∧
    row false .core 0x4000000137#40 7#32 = .csrwDbgHex 7#32 ∧
    row false .core 0x4000000138#40 7#32 = .csrwDbgStr 7#32 ∧
    row false .core 0x4000000139#40 7#32 = .csrwDbgChr 7#32 ∧
    row false .core 0x3C00000140#40 0#32 = .csrrDbgIn ∧
    row false .core 0x3000000FFF#40 0#32 = .csrrDefault 0xFFF#12 ∧
    row false .core 0x4000000140#40 5#32 = .csrwDefault 0x140#12 5#32 := by decide +kernel

theorem test_decode_ram :
    row false .core 0x0C80000000#40 0#32 = .fetchRam 0x80000000#32 ∧
    row false .core 0x108000003F#40 0#32 = .loadBRam 0x8000003F#32 ∧
    row false .core 0x148000000F#40 0#32 = .loadHRam 0x8000000F#32 ∧
    row false .core 0x1880000010#40 0#32 = .loadWRam 0x80000010#32 ∧
    row false .core 0x2080000001#40 0x1234ABCD#32 = .storeBRam 0x80000001#32 0x1234ABCD#32 ∧
    row false .core 0x248000000F#40 0xBEEF#32 = .storeHRam 0x8000000F#32 0xBEEF#32 ∧
    row false .core 0x288000001E#40 0x11223344#32 = .storeWRam 0x8000001E#32 0x11223344#32 := by decide +kernel

theorem test_decode_outside :
    row true .core 0x0010000000#40 0#32 = .fetchNonram 0x10000000#32 ∧
    row false .core 0x1010000008#40 0#32 = .loadUnmapped .byte 0x10000008#32 ∧
    row false .core 0x280FFFFFFC#40 0x41#32 = .storeUnmapped .word 0x0FFFFFFC#32 0x41#32 := by decide +kernel

theorem test_decode_commands :
    row false .core 0x5000B52023#40 3#32 = .postExec 0x00B52023#32 3#32 ∧
    row false .control 0x6000000000#40 0#32 = .flushAll ∧
    row false .control 0x7000000000#40 0#32 = .evictAll ∧
    row false .control 0x8000000000#40 0#32 = .getStats ∧
    row false .console 0x9000000000#40 0x1C3#32 = .pollInput 0xC3#8 ∧
    row false .control 0xA000000000#40 0#32 = .restart := by decide +kernel

/-! ### Reserved keys (vectors R-1 to R-7) -/

/-- A reserved key on the core port appends (DeviceFault, a), answers it and changes nothing else. -/
def reservedAnswer (s : State) (a : Word) : Option State :=
  some { s with errLog := s.errLog ++ [⟨.device, a⟩], resp := faulted .device }

theorem test_reserved_R1 : served sc 0xB000000000 0 = reservedAnswer sc 0#32 := by decide +kernel
theorem test_reserved_R2 : served sc 0xF080000000 0 = reservedAnswer sc 0x80000000#32 := by decide +kernel
theorem test_reserved_R3 : served sc 0x1C80000000 0 = reservedAnswer sc 0x80000000#32 := by decide +kernel
theorem test_reserved_R4 : served sc 0x2C10000000 0x41 = reservedAnswer sc 0x10000000#32 := by decide +kernel
theorem test_reserved_R5 : served sc 0x3000001140 0 = reservedAnswer sc 0x1140#32 := by decide +kernel
theorem test_reserved_R6 : served sc 0x4000010136 7 = reservedAnswer sc 0x10136#32 := by decide +kernel

theorem test_reserved_R7 :
    nextOf (step { sc with inputs := [.request ⟨.core, 0x9000000000#40, 0#32⟩] }) = reservedAnswer sc 0#32 := by decide +kernel

/-! ### The device window and the CSR ports (vectors B- and S-) -/

/-- Console bytes of one transaction from SC. -/
def console (key wdata : Nat) : List Nat := (after (present sc key wdata)).conOut.map (·.toNat)

theorem test_uart_tx_B4 : console 0x2810000000 0x41004342 = [0x42, 0x43] := by decide +kernel
theorem test_uart_tx_B7 : console 0x2410000000 0x44434241 = [0x41, 0x42] := by decide +kernel

/-- SC with the byte 0xC3 pending. -/
def scPending : State := { sc with pendValid := true, pendByte := 0xC3#8 }

theorem test_uart_rx_B16 :
    served scPending 0x1810000000 0 = some { scPending with pendValid := false, resp := answer 0xC3#32 } := by
  decide +kernel
theorem test_uart_rx_empty_B11 : served sc 0x1010000000 0 = some { sc with resp := answer 0#32 } := by decide +kernel
theorem test_uart_lsr_B12 : served sc 0x1010000005 0 = some { sc with resp := answer 0x60#32 } := by decide +kernel
theorem test_uart_lsr_B15 :
    served scPending 0x1410000005 0 = some { scPending with resp := answer 0x61#32 } := by decide +kernel
theorem test_dev_load_B22 :
    served scPending 0x1010000004 0 = some { scPending with resp := answer 0#32 } := by decide +kernel
theorem test_dev_store_B9 : served sc 0x2010000005 0x41 = some { sc with resp := answer 0#32 } := by decide +kernel

theorem test_dbg_dec_S4 :
    console 0x4000000136 0x80000000 = [0x2D, 0x32, 0x31, 0x34, 0x37, 0x34, 0x38, 0x33, 0x36, 0x34, 0x38] := by
  decide +kernel
theorem test_dbg_dec_S2 : console 0x4000000136 0 = [0x30] := by decide +kernel
theorem test_dbg_hex_S10 :
    console 0x4000000137 0x1234ABCD = [0x31, 0x32, 0x33, 0x34, 0x61, 0x62, 0x63, 0x64] := by decide +kernel
theorem test_dbg_chr_S12 : console 0x4000000139 0 = [0] := by decide +kernel
theorem test_dbg_chr_S14 : console 0x4000000139 0xFFFFFF41 = [0x41] := by decide +kernel

theorem test_dbg_str_S29 :
    console 0x4000000138 0x8000003D = [0x3D, 0x3E, 0x3F] ∧
    seen (served sc 0x4000000138 0x8000003D) = some (answer 0#32, [.read 48 true], 2, 3) := by decide +kernel
theorem test_dbg_str_S27 :
    served sc 0x4000000138 0x20 = some { sc with errLog := [⟨.device, 0x20#32⟩], resp := faulted .device } := by
  decide +kernel

theorem test_dbg_in_S19 : served sc 0x3000000140 0 = some { sc with resp := answer 0xFFFFFFFF#32 } := by decide +kernel
theorem test_dbg_in_S20 :
    served scPending 0x3000000140 0 = some { scPending with pendValid := false, resp := answer 0xC3#32 } := by
  decide +kernel
theorem test_csrr_default_S17 :
    served scPending 0x3000000138 0 = some { scPending with resp := answer 0#32 } := by decide +kernel
theorem test_csrw_default_S15 :
    served scPending 0x4000000140 5 = some { scPending with resp := answer 0#32 } := by decide +kernel

/-! ### RAM (vectors C-) -/

theorem test_fetch_C1 :
    seen (served sc 0x008000000E 0) = some (answer 0x11100F0E#32, [.read 0 true, .read 16 true], 0, 2) ∧
    (after (present sc 0x008000000E 0)).lru = [1, 0] := by decide +kernel
theorem test_fetch_C3 :
    served sc 0x008000003D 0 =
      some { sc with errLog := [⟨.bounds, 0x8000003D#32⟩], resp := faulted .bounds } := by decide +kernel
theorem test_load_b_C6 : seen (served sc 0x108000003F 0) = some (answer 0x3F#32, [.read 48 true], 0, 1) := by decide +kernel
theorem test_load_h_C7 :
    seen (served sc 0x148000000F 0) = some (answer 0x100F#32, [.read 0 true, .read 16 true], 0, 2) := by decide +kernel
theorem test_load_h_C8 : seen (served sc 0x148000003F 0) = some (faulted .bounds, [], 0, 0) := by decide +kernel
theorem test_load_w_C13 : seen (served scClean 0x188000000D 0) = some (answer 0x100F0E0D#32, [], 2, 4) := by decide +kernel
theorem test_load_w_C10 :
    seen (served sc 0x1880000010 0) = some (answer 0x13121110#32, [.read 16 true], 0, 1) ∧
    ((after (present sc 0x1880000010 0)).slot 0).tag = 16#32 := by decide +kernel

/-- The bytes the core sees from an offset on. -/
def bytesAt (s : State) (o n : Nat) : List Nat := (s.viewBytes o n).map (·.toNat)

theorem test_store_b_C14 :
    bytesAt (after (present sc 0x2080000001 0x1234ABCD)) 0 4 = [0, 0xCD, 2, 3] ∧
    ((after (present sc 0x2080000001 0x1234ABCD)).slot 0).dirty = true := by decide +kernel
theorem test_store_h_C15 :
    seen (served sc 0x248000000F 0xBEEF) = some (answer 0#32, [.read 0 true, .read 16 true], 0, 2) ∧
    bytesAt (after (present sc 0x248000000F 0xBEEF)) 14 4 = [14, 0xEF, 0xBE, 17] := by decide +kernel
theorem test_store_w_C17 :
    bytesAt (after (present sc 0x288000001E 0x11223344)) 29 6 = [29, 0x44, 0x33, 0x22, 0x11, 34] := by decide +kernel
theorem test_store_w_C18 :
    served sc 0x288000003D 5 =
      some { sc with errLog := [⟨.bounds, 0x8000003D#32⟩], resp := faulted .bounds } := by decide +kernel

theorem test_fetch_nonram_B23 :
    served scPending 0x0010000000 0 =
      some { scPending with errLog := [⟨.bounds, 0x10000000#32⟩], resp := faulted .bounds } := by decide +kernel
theorem test_load_unmapped_B26 :
    served sc 0x187FFFFFFE 0 =
      some { sc with errLog := [⟨.bounds, 0x7FFFFFFE#32⟩], resp := faulted .bounds } := by decide +kernel
theorem test_store_unmapped_B25 :
    served sc 0x280FFFFFFC 0x41 =
      some { sc with errLog := [⟨.bounds, 0x0FFFFFFC#32⟩], resp := faulted .bounds } := by decide +kernel

/-- C-20: with line 0 used last, the victim is the slot of line 16. -/
theorem test_lru_C20 :
    (after (present { scClean with lru := [0, 1] } 0x1080000020 0)).slots.map (·.tag.toNat) = [0, 32] := by decide +kernel

/-- C-27: the write-back of the dirty victim fails and the victim stays. -/
theorem test_write_back_C27 :
    seen (served (failing [] scDirty) 0x1080000021 0) =
      some (faulted .io, [.write 0 (splice (scLine 0) 1 [0xAA#8]) false], 0, 3) ∧
    (after (present (failing [] scDirty) 0x1080000021 0)).errLog = [⟨.io, 0#32⟩] ∧
    (after (present (failing [] scDirty) 0x1080000021 0)).slots = scDirty.slots := by decide +kernel

/-- C-26: the second piece's fill fails and the first piece stays written. -/
theorem test_split_store_C26 :
    let t := after (present { sc with bsAnswers := [BsAnswer.good, ⟨false, [], none⟩] } 0x248000000F 0xBEEF)
    t.errLog = [⟨.io, 16#32⟩] ∧ bytesAt t 14 3 = [14, 0xEF, 16] ∧ t.resp = faulted .io := by decide +kernel

/-- C-31: under WRITE_THROUGH each store piece is followed by one whole-line write. -/
theorem test_write_through_C31 :
    let t := after (present (writeThrough { scClean with slots := [scClean.slot 0, Slot.empty 16], lru := [0, 1] })
      0x248000000F 0xBEEF)
    t.bsLog.map (fun e => (e.tag, e.ok)) = [(0, true), (16, true), (16, true)] ∧
    t.bs.readBytes 14 4 = [14#8, 0xEF#8, 0xBE#8, 17#8] ∧ t.slots.any (·.dirty) = false := by decide +kernel

/-- L1-6: one write with the line's final bytes, before the read of the new line. -/
theorem test_write_back_order_L16 :
    (after (present scDirty 0x1080000020 0)).bsLog =
      [.write 0 (splice (scLine 0) 1 [0xAA#8]) true, .read 32 true] := by decide +kernel

/-! ### Commands (vectors C-21 to C-29, H-, S-21, Z-) -/

theorem test_flush_C28 :
    let t := after (present (failing [] scTwoDirty) 0x6000000000 0)
    t.resp = faulted .io ∧ t.slots.map (·.dirty) = [true, false] ∧ t.bs.read 17 = 0xBB#8 ∧
    t.errLog = [⟨.io, 0#32⟩] ∧ t.ioFaultLatch = true := by decide +kernel
theorem test_flush_C21 :
    let t := after (present scDirty 0x6000000000 0)
    t.resp = answer 0#32 ∧ t.bs.read 1 = 0xAA#8 ∧ t.slots.map (·.valid) = [true, true] := by decide +kernel
theorem test_evict_C29 :
    let t := after (present { scTwoDirty with bsAnswers := [BsAnswer.good, ⟨false, [], none⟩] } 0x7000000000 0)
    t.resp = faulted .io ∧ t.slots.map (fun x => (x.valid, x.dirty)) = [(false, false), (true, true)] ∧
    t.errLog = [⟨.io, 16#32⟩] := by decide +kernel
theorem test_evict_C23 : served sc 0x7000000000 0 = some { sc with resp := answer 0#32 } := by decide +kernel

theorem test_stats_C24 :
    served { sc with accesses := 2#64 } 0x8000000000 0 =
      some { sc with accesses := 2#64, resp := some ⟨0#32, none, some (0#64, 2#64)⟩ } := by decide +kernel

theorem test_post_exec_H4 :
    (after (present sc 0x5000000000 0x12345678)).resp = answer 0x12345678#32 := by decide +kernel
theorem test_post_exec_H5 :
    let t := after (present { sc with ioFaultLatch := true } 0x5000B52023 0)
    t.resp = answer sc.cfg.failCode ∧ t.ioFaultLatch = false := by decide +kernel

theorem test_poll_S21 : served scPending 0x9000000000 0x42 = some { scPending with resp := none } := by decide +kernel
theorem test_poll_B13 : served sc 0x9000000000 0xC3 = some { scPending with resp := none } := by decide +kernel

theorem test_restart_Z3 :
    let t := after (present { scDirty with pendValid := true } 0xA000000000 0)
    t.slots.any (·.valid) = false ∧ t.view 1 = 1#8 ∧ t.pendValid = true ∧ t.accesses = 2#64 ∧ t.resp = none := by
  decide +kernel

theorem test_power_on_Z2 :
    (after (step { scDirty with inputs := [.host (.powerOn false)] })).halted = true ∧
    stopOf (present { sc with halted := true } 0x8000000000 0) = some (.inl .halted) := by decide +kernel

/-! ### The host's side (R201, R206) -/

/-- A line touched under a valid slot stays unspecified: a draw long after the breach, when the line has left the cache
and come back, is what a LOAD sees (R201, U4). -/
theorem test_unsettled_from_then_on :
    let s : State := { sc with unsettled := [16], draws := [⟨[], []⟩, ⟨[], [(17, 0x99#8), (33, 0x98#8)]⟩] }
    let t := after (present s 0x7000000000 0)
    let u := after (present t 0x1080000011 0)
    u.resp = answer 0x11#32 ∧ u.view 17 = 0x99#8 ∧ u.view 33 = 33#8 ∧ u.unsettled = [16] := by decide +kernel

/-- A write of the image with a slot valid unsettles the lines of its bytes, and power-on reset settles none (R201). -/
theorem test_breach_unsettles :
    let t := after (step { scDirty with inputs := [.host (.imageWrite 15 [1#8, 2#8]), .host (.powerOn true)] })
    t.unsettled = [0, 16] ∧ (after (step t)).unsettled = [0, 16] ∧ t.bs.readBytes 14 4 = [14#8, 1#8, 2#8, 17#8] := by
  decide +kernel

/-- A write of the image with no slot valid is a breach too once the core has had a transaction (R195, D43: here a
CSR_READ), and a bulk load again after RESTART. -/
theorem test_bulk_load_window :
    let load : Input := .host (.imageWrite 16 [1#8])
    let s : State := { sc with booting := true, inputs := [load, .request ⟨.control, 0x6000000000#40, 0#32⟩, load,
      .request ⟨.core, 0x3000000000#40, 0#32⟩, load] }
    let t := after (step (after (step (after (step s)))))
    t.unsettled = [] ∧ (after (step (after (step t)))).unsettled = [16] ∧
    (after (step { (after (present sc 0xA000000000 0)) with inputs := [load] })).unsettled = [] := by decide +kernel

/-- A host that never answers or never accepts leaves the block waiting, and no fault is reported (R206, U7). -/
theorem test_stuck_host :
    stopOf (present { sc with bsAnswers := [⟨true, [], some .never⟩] } 0x1080000000 0) =
      some (.inl .backingStoreNeverAnswers) ∧
    stopOf (present { sc with conAnswers := [none, some .never] } 0x2810000000 0x4241) =
      some (.inl .consoleNeverAccepts) ∧
    console 0x2810000000 0x4241 = [0x41, 0x42] := by decide +kernel

/-- Power-on reset while the block waits for the console host abandons the transaction (R168, R206). -/
theorem test_power_on_at_console :
    let t := after (present { scPending with conAnswers := [none, some (.powerOn false)] } 0x2810000000 0x4241)
    t.conOut = [] ∧ t.halted = true ∧ t.resp = none ∧ t.pendValid = false := by decide +kernel

/-! ### Witnesses: states and operands that meet an obligation's hypotheses -/

theorem sc_inv : Inv sc := by constructor <;> decide +kernel
theorem scDirty_inv : Inv scDirty := by constructor <;> decide +kernel
theorem scClean_inv : Inv scClean := by constructor <;> decide +kernel
theorem scTwoDirty_inv : Inv scTwoDirty := by constructor <;> decide +kernel
theorem sc_coherent : Coherent sc := by unfold Coherent; decide +kernel
theorem scDirty_coherent : Coherent scDirty := by unfold Coherent; decide +kernel
theorem scTwoDirty_coherent : Coherent scTwoDirty := by unfold Coherent; decide +kernel
theorem sc_quiet : sc.quiet := ⟨⟨List.forall_mem_nil _, List.forall_mem_nil _⟩, List.forall_mem_nil _⟩
theorem scDirty_quiet : scDirty.quiet := ⟨⟨sc_quiet.answers, sc_quiet.console⟩, sc_quiet.oks⟩
theorem failing_inv {s : State} (h : Inv s) (left : List Byte) : Inv (failing left s) :=
  ⟨h.1, h.2, h.3, h.4, h.5, h.6, h.7, h.8, h.9⟩
theorem failing_uncut (left : List Byte) {s : State} (h : s.uncut) : (failing left s).uncut :=
  ⟨by simp [failing], h.console⟩

theorem witness_DecodeInvertsEncode :
    (Instr.loadUartRx .word).wellFormed (scCtx true) = true ∧
    (Instr.csrwDefault 0x13A#12 5#32).wellFormed (scCtx false) = true ∧
    (Instr.storeWRam 0x8000003F#32 5#32).wellFormed (scCtx false) = true ∧
    (Instr.loadUnmapped .byte 0x10000008#32).wellFormed (scCtx false) = true := by decide +kernel

/-- What DecodeIgnoresUnnamedBits asks of two requests. -/
def agree (r r' : Request) : Prop :=
  r.port = r'.port ∧ keyCmd r.key = keyCmd r'.key ∧
  (keyCmd r.key ∈ [0x1#4, 0x2#4] → keySize r.key = keySize r'.key) ∧
  ((∀ cmd ∈ [Cmd.flushAll, .evictAll, .getStats, .pollInput, .restart],
      ¬ (keyCmd r.key = cmd.code ∧ r.port = cmd.port)) → keyAddr r.key = keyAddr r'.key) ∧
  (keyCmd r.key ∈ [0x2#4, 0x4#4, 0x5#4] → r.wdata = r'.wdata) ∧
  (keyCmd r.key = 0x9#4 → r.wdata.setWidth 8 = r'.wdata.setWidth 8)

/-- FLUSH_ALL with every ignored bit set, POLL_INPUT with bits set above its byte, LOAD.W with its rsv bits set. -/
theorem witness_DecodeIgnoresUnnamedBits :
    agree ⟨.control, 0x6000000000#40, 0#32⟩ ⟨.control, 0x6FFFFFFFFF#40, 0xFFFFFFFF#32⟩ ∧
    agree ⟨.console, 0x9000000000#40, 0x41#32⟩ ⟨.console, 0x9FFFFFFFFF#40, 0xFFFFFF41#32⟩ ∧
    agree ⟨.core, 0x1880000000#40, 0#32⟩ ⟨.core, 0x1B80000000#40, 1#32⟩ := by
  unfold agree
  decide +kernel

theorem witness_AddressMap :
    scConfig.wf ∧ scConfig.region 0x10000007#32 = .device ∧ scConfig.region 0x10000008#32 = .unmapped ∧
    scConfig.region 0x8000003F#32 = .ram ∧ scConfig.region 0x80000040#32 = .unmapped ∧
    scConfig.region 0x7FFFFFFF#32 = .unmapped := by decide +kernel

theorem witness_LoadStoreFetchDispatch :
    scConfig.wf ∧ keyCmd 0x1810000005#40 = 0x1#4 ∧ Width.ofCode (keySize 0x1810000005#40) = some .word ∧
    keyCmd 0x2410000000#40 = 0x2#4 ∧ Width.ofCode (keySize 0x2410000000#40) = some .half ∧
    keyCmd 0x0C80000000#40 = 0x0#4 := by decide +kernel

theorem witness_CsrCommandAndReservedDispatch :
    keyCmd 0x3000000FFF#40 = 0x3#4 ∧ keyCmd 0x4000001000#40 = 0x4#4 ∧ keyCmd 0x5000000000#40 = 0x5#4 ∧
    keyCmd 0x6000000000#40 = 0x6#4 ∧ keyCmd 0x7000000000#40 = 0x7#4 ∧ keyCmd 0x8000000000#40 = 0x8#4 ∧
    keyCmd 0x9000000000#40 = 0x9#4 ∧ keyCmd 0xA000000000#40 = 0xA#4 ∧
    (keyCmd 0x1C00000000#40 = 0x1#4 ∧ keySize 0x1C00000000#40 = 3#2) ∧
    (keyCmd 0x2C00000000#40 = 0x2#4 ∧ keySize 0x2C00000000#40 = 3#2) ∧
    keyCmd 0xB000000000#40 = 0xB#4 ∧ 0xC#4 ≤ keyCmd 0xC000000000#40 ∧
    (keyCmd 0xA000000000#40 = Cmd.restart.code ∧ Port.console ≠ Cmd.restart.port) := by decide +kernel

/-- A request waiting in SC. -/
def scAsked : State := { sc with inputs := [.request ⟨.core, 0x008000000E#40, 0#32⟩] }

theorem witness_StepRunsDecodedRequest :
    scAsked.inputs = .request ⟨.core, 0x008000000E#40, 0#32⟩ :: [] ∧ scAsked.cfg.wf ∧ scAsked.halted = false ∧
    scAsked.released = false ∧ scAsked.unsettled = [] ∧ sc.cfg.wf ∧ sc.halted = false ∧ sc.released = false ∧
    sc.unsettled = [] := by decide +kernel

theorem witness_HaltedBlockAcceptsNoRequest :
    ({ scAsked with halted := true } : State).cfg.wf ∧ ({ scAsked with released := true } : State).halted = false ∧
    ({ sc with halted := true, inputs := [.host (.powerOn true)] } : State).inputs = .host (.powerOn true) :: [] := by
  decide +kernel

theorem witness_PowerOnResetValues :
    ({ scDirty with inputs := [.host (.powerOn false)] } : State).cfg.wf ∧
    ({ scDirty with inputs := [.host (.powerOn false)] } : State).inputs = .host (.powerOn false) :: [] := by
  decide +kernel

theorem witness_StepKeepsInvariant : Inv scAsked ∧ step scAsked = .next (after (step scAsked)) :=
  ⟨sc_inv.congr rfl rfl rfl rfl, eq_next_after (by decide +kernel)⟩

theorem witness_StepKeepsCoherence :
    Inv scAsked ∧ Coherent scAsked ∧ scAsked.unsettled = [] ∧
    (∀ offset bytes rest, scAsked.inputs ≠ .host (.imageWrite offset bytes) :: rest) ∧
    step scAsked = .next (after (step scAsked)) :=
  ⟨sc_inv.congr rfl rfl rfl rfl, sc_coherent, rfl, by simp [scAsked], eq_next_after (by decide +kernel)⟩

theorem witness_StepKeepsConfiguration : step scAsked = .next (after (step scAsked)) :=
  eq_next_after (by decide +kernel)

theorem witness_HitsNeverExceedAccesses :
    Inv scDirty ∧ exec (.loadWRam 0x8000000E#32) scDirty = .next (after (exec (.loadWRam 0x8000000E#32) scDirty)) ∧
    scDirty.hits.toNat ≤ scDirty.accesses.toNat ∧ scDirty.accesses.toNat + scDirty.cfg.ramSize + 2 < 2 ^ 64 :=
  ⟨scDirty_inv, eq_next_after (by decide +kernel), by decide +kernel, by decide +kernel⟩

theorem writeThrough_inv {s : State} (h : Inv s) : Inv (writeThrough s) := ⟨h.1, h.2, h.3, h.4, h.5, h.6, h.7, h.8, h.9⟩

/-- A write-through that fails leaves a dirty slot. -/
theorem witness_DirtyOnlyAfterFailedWriteThrough :
    let s := failing [] (writeThrough scClean)
    let t := after (exec (.storeBRam 0x80000002#32 0x55#32) s)
    Inv s ∧ s.cfg.writePolicy = .writeThrough ∧ exec (.storeBRam 0x80000002#32 0x55#32) s = .next t ∧
    t.slots.any (·.dirty) = true :=
  ⟨failing_inv (writeThrough_inv scClean_inv) _, rfl, eq_next_after (by decide +kernel), by decide +kernel⟩

theorem witness_StreamsOnlyGrow :
    Inv scDirty ∧ scDirty.uncut ∧ exec (.csrwDbgChr 0x41#32) scDirty = .next (after (exec (.csrwDbgChr 0x41#32) scDirty)) :=
  ⟨scDirty_inv, scDirty_quiet.touncut, rfl⟩

/-- Both clauses: a transaction that sets the latch, and one that clears it. -/
theorem witness_LatchFollowsIoFaults :
    (let s := failing [] sc
     let t := after (exec (.loadBRam 0x80000000#32) s)
     Inv s ∧ s.uncut ∧ exec (.loadBRam 0x80000000#32) s = .next t ∧ s.ioFaultLatch = false ∧ t.ioFaultLatch = true) ∧
    (let s : State := { sc with ioFaultLatch := true }
     let t := after (exec (.postExec 0#32 0#32) s)
     Inv s ∧ s.uncut ∧ exec (.postExec 0#32 0#32) s = .next t ∧ s.ioFaultLatch = true ∧ t.ioFaultLatch = false) :=
  ⟨⟨failing_inv sc_inv _, failing_uncut _ ⟨sc_quiet.answers, sc_quiet.console⟩, eq_next_after (by decide +kernel), by decide +kernel, by decide +kernel⟩,
    sc_inv.congr rfl rfl rfl rfl, ⟨sc_quiet.answers, sc_quiet.console⟩, rfl, rfl, rfl⟩

/-- The last word of RAM. -/
theorem witness_ReadsReturnRamBytes :
    (.loadWRam 0x8000003C#32, 4) ∈ ramReads 0x8000003C#32 ∧ Inv scDirty ∧ Coherent scDirty ∧ scDirty.quiet ∧
    scDirty.cfg.off 0x8000003C#32 + 4 ≤ scDirty.cfg.ramSize :=
  ⟨by decide +kernel, scDirty_inv, scDirty_coherent, scDirty_quiet, by decide +kernel⟩

/-- A word over two lines. -/
theorem witness_StoresWriteRamBytes :
    (.storeWRam 0x8000000D#32 7#32, 4) ∈ ramWrites 0x8000000D#32 7#32 ∧ Inv scDirty ∧ Coherent scDirty ∧
    scDirty.quiet ∧ scDirty.cfg.off 0x8000000D#32 + 4 ≤ scDirty.cfg.ramSize :=
  ⟨by decide +kernel, scDirty_inv, scDirty_coherent, scDirty_quiet, by decide +kernel⟩

theorem witness_BoundsFaultsArePrecise :
    (.loadHRam 0x8000003F#32, 2) ∈ ramReads 0x8000003F#32 ++ ramWrites 0x8000003F#32 0#32 ∧
    sc.cfg.ramSize < sc.cfg.off 0x8000003F#32 + 2 := by decide +kernel

theorem witness_OnlyStoresChangeRam :
    let s := failing [] scDirty
    Inv s ∧ Coherent s ∧ s.uncut ∧ exec .evictAll s = .next (after (exec .evictAll s)) ∧
    storesToRam .evictAll = false ∧ Instr.evictAll ≠ .restart :=
  ⟨failing_inv scDirty_inv _, scDirty_coherent, failing_uncut _ ⟨sc_quiet.answers, sc_quiet.console⟩, eq_next_after (by decide +kernel), rfl, by decide⟩

/-- A store whose second piece's fill fails. -/
theorem witness_StoreStopsAtPieceBoundary :
    let s := failing [] { scDirty with slots := [scDirty.slot 0, Slot.empty 16] }
    (.storeHRam 0x8000000F#32 0xBEEF#32, 2) ∈ ramWrites 0x8000000F#32 0xBEEF#32 ∧ Inv s ∧ Coherent s ∧ s.uncut ∧
    s.cfg.off 0x8000000F#32 + 2 ≤ s.cfg.ramSize ∧
    (after (exec (.storeHRam 0x8000000F#32 0xBEEF#32) s)).resp = faulted .io :=
  ⟨by decide +kernel, by constructor <;> decide +kernel, by unfold Coherent; decide +kernel, failing_uncut _ ⟨sc_quiet.answers, sc_quiet.console⟩,
    by decide +kernel, by decide +kernel⟩

theorem witness_LoadAfterStoreReturnsValue :
    (.storeHRam 0x8000003E#32 7#32, 2) ∈ ramWrites 0x8000003E#32 7#32 ∧
    (.loadHRam 0x8000003E#32, 2) ∈ ramReads 0x8000003E#32 ∧ Inv scDirty ∧ Coherent scDirty ∧ scDirty.quiet ∧
    scDirty.cfg.off 0x8000003E#32 + 2 ≤ scDirty.cfg.ramSize :=
  ⟨by decide +kernel, by decide +kernel, scDirty_inv, scDirty_coherent, scDirty_quiet, by decide +kernel⟩

theorem witness_StoredValueSurvivesEviction :
    (.storeWRam 0x8000001D#32 0xCAFEF00D#32, 4) ∈ ramWrites 0x8000001D#32 0xCAFEF00D#32 ∧
    (.fetchRam 0x8000001D#32, 4) ∈ ramReads 0x8000001D#32 ∧ Inv scDirty ∧ Coherent scDirty ∧ scDirty.quiet ∧
    scDirty.cfg.off 0x8000001D#32 + 4 ≤ scDirty.cfg.ramSize :=
  ⟨by decide +kernel, by decide +kernel, scDirty_inv, scDirty_coherent, scDirty_quiet, by decide +kernel⟩

/-- The last bytes of a resident line. -/
theorem witness_ReadHitTouchesOnlyRecency :
    (.loadHRam 0x8000000E#32, 2) ∈ ramReads 0x8000000E#32 ∧ Inv scDirty ∧
    scDirty.cfg.off 0x8000000E#32 + 2 ≤ scDirty.cfg.ramSize ∧
    scDirty.cfg.idxOf (scDirty.cfg.off 0x8000000E#32) + 2 ≤ scDirty.cfg.lineSize ∧
    (scDirty.slot 0).valid = true ∧ (scDirty.slot 0).tag.toNat = scDirty.cfg.tagOf (scDirty.cfg.off 0x8000000E#32) :=
  ⟨by decide +kernel, scDirty_inv, by decide +kernel, by decide +kernel, by decide +kernel, by decide +kernel⟩

/-- A read inside line 32, which no slot of the state holds. -/
def missing (s : State) : Prop := ¬ s.resident (s.cfg.tagOf (s.cfg.off 0x8000002C#32))

theorem scDirty_missing : missing scDirty := by unfold missing State.resident; decide +kernel
theorem scClean_missing : missing scClean := by unfold missing State.resident; decide +kernel

/-- A read and a STORE, the latter under each policy. -/
theorem witness_MissFillsVictim :
    (.loadWRam 0x8000002C#32, 4) ∈ ramReads 0x8000002C#32 ∧
    (.storeWRam 0x8000002C#32 7#32, 4) ∈ ramWrites 0x8000002C#32 7#32 ∧
    ∀ s ∈ [scClean, writeThrough scClean], Inv s ∧ s.quiet ∧
      s.cfg.off 0x8000002C#32 + 4 ≤ s.cfg.ramSize ∧ s.cfg.idxOf (s.cfg.off 0x8000002C#32) + 4 ≤ s.cfg.lineSize ∧
      missing s ∧ (s.slot s.victim).dirty = false := by
  refine ⟨by decide +kernel, by decide +kernel, fun s hs => ?_⟩
  simp only [List.mem_cons, List.not_mem_nil, or_false] at hs
  have hq := scDirty_quiet
  rcases hs with rfl | rfl
  · exact ⟨scClean_inv, ⟨⟨hq.answers, hq.console⟩, hq.oks⟩, by decide +kernel, by decide +kernel, scClean_missing, by decide +kernel⟩
  · exact ⟨writeThrough_inv scClean_inv, ⟨⟨hq.answers, hq.console⟩, hq.oks⟩, by decide +kernel, by decide +kernel,
      scClean_missing, by decide +kernel⟩

/-- The same with a dirty victim; under WRITE_THROUGH an earlier failed write left it so. -/
theorem witness_MissWritesDirtyVictimFirst :
    (.loadWRam 0x8000002C#32, 4) ∈ ramReads 0x8000002C#32 ∧
    (.storeWRam 0x8000002C#32 7#32, 4) ∈ ramWrites 0x8000002C#32 7#32 ∧
    ∀ s ∈ [scDirty, writeThrough scDirty], Inv s ∧ s.quiet ∧
      s.cfg.off 0x8000002C#32 + 4 ≤ s.cfg.ramSize ∧ s.cfg.idxOf (s.cfg.off 0x8000002C#32) + 4 ≤ s.cfg.lineSize ∧
      missing s ∧ (s.slot s.victim).dirty = true := by
  refine ⟨by decide +kernel, by decide +kernel, fun s hs => ?_⟩
  simp only [List.mem_cons, List.not_mem_nil, or_false] at hs
  have hq := scDirty_quiet
  rcases hs with rfl | rfl
  · exact ⟨scDirty_inv, hq, by decide +kernel, by decide +kernel, scDirty_missing, by decide +kernel⟩
  · exact ⟨writeThrough_inv scDirty_inv, ⟨⟨hq.answers, hq.console⟩, hq.oks⟩, by decide +kernel, by decide +kernel,
      scDirty_missing, by decide +kernel⟩

/-- Every clause: the smallest invalid slot, no invalid slot, and one slot. -/
theorem witness_VictimIsInvalidOrLeastRecent :
    (Inv sc ∧ 0 < sc.cfg.numLines ∧ (sc.slot 0).valid = false) ∧
    (Inv scDirty ∧ ∀ j < scDirty.cfg.numLines, (scDirty.slot j).valid = true) ∧
    (let s : State := { sc with cfg := { scConfig with numLines := 1 }, slots := [Slot.empty 16], lru := [0] }
     Inv s ∧ s.cfg.numLines = 1) :=
  ⟨⟨sc_inv, by decide +kernel, by decide +kernel⟩, ⟨scDirty_inv, by decide +kernel⟩,
    by constructor <;> decide +kernel, rfl⟩

/-- The backing store never answers the next transaction. -/
def unanswered (s : State) : State := { s with bsAnswers := [⟨true, [], some .never⟩] }

/-- A read whose event fails, and a STORE whose event is never answered. -/
theorem witness_FailedWriteBackKeepsVictim :
    (.loadBRam 0x8000002C#32, 1) ∈ ramReads 0x8000002C#32 ++ ramWrites 0x8000002C#32 7#32 ∧
    (.storeBRam 0x8000002C#32 7#32, 1) ∈ ramReads 0x8000002C#32 ++ ramWrites 0x8000002C#32 7#32 ∧
    (failing [1#8] scDirty).bsAnswers = ⟨false, [1#8], none⟩ :: [] ∧
    (unanswered scDirty).bsAnswers = ⟨true, [], some .never⟩ :: [] ∧
    ∀ s ∈ [failing [1#8] scDirty, unanswered scDirty], Inv s ∧ s.cfg.off 0x8000002C#32 + 1 ≤ s.cfg.ramSize ∧
      missing s ∧ (s.slot s.victim).dirty = true := by
  refine ⟨by decide +kernel, by decide +kernel, rfl, rfl, fun s hs => ?_⟩
  simp only [List.mem_cons, List.not_mem_nil, or_false] at hs
  rcases hs with rfl | rfl
  · exact ⟨failing_inv scDirty_inv _, by decide +kernel, scDirty_missing, by decide +kernel⟩
  · exact ⟨scDirty_inv.congr rfl rfl rfl rfl, by decide +kernel, scDirty_missing, by decide +kernel⟩

theorem witness_FailedFillDropsVictim :
    (.loadBRam 0x8000002C#32, 1) ∈ ramReads 0x8000002C#32 ++ ramWrites 0x8000002C#32 7#32 ∧
    (.storeBRam 0x8000002C#32 7#32, 1) ∈ ramReads 0x8000002C#32 ++ ramWrites 0x8000002C#32 7#32 ∧
    (failing [1#8] scClean).bsAnswers = ⟨false, [1#8], none⟩ :: [] ∧
    (unanswered scClean).bsAnswers = ⟨true, [], some .never⟩ :: [] ∧
    ∀ s ∈ [failing [1#8] scClean, unanswered scClean], Inv s ∧ s.cfg.off 0x8000002C#32 + 1 ≤ s.cfg.ramSize ∧
      missing s ∧ (s.slot s.victim).dirty = false := by
  refine ⟨by decide +kernel, by decide +kernel, rfl, rfl, fun s hs => ?_⟩
  simp only [List.mem_cons, List.not_mem_nil, or_false] at hs
  rcases hs with rfl | rfl
  · exact ⟨failing_inv scClean_inv _, by decide +kernel, scClean_missing, by decide +kernel⟩
  · exact ⟨scClean_inv.congr rfl rfl rfl rfl, by decide +kernel, scClean_missing, by decide +kernel⟩

theorem witness_WriteBackStoreHitStaysInCache :
    (.storeHRam 0x8000000E#32 7#32, 2) ∈ ramWrites 0x8000000E#32 7#32 ∧ Inv scClean ∧
    scClean.cfg.writePolicy = .writeBack ∧ scClean.cfg.off 0x8000000E#32 + 2 ≤ scClean.cfg.ramSize ∧
    scClean.cfg.idxOf (scClean.cfg.off 0x8000000E#32) + 2 ≤ scClean.cfg.lineSize ∧
    (scClean.slot 0).valid = true ∧ (scClean.slot 0).tag.toNat = scClean.cfg.tagOf (scClean.cfg.off 0x8000000E#32) :=
  ⟨by decide +kernel, scClean_inv, rfl, by decide +kernel, by decide +kernel, by decide +kernel, by decide +kernel⟩

/-- Both answers of the backing store. -/
theorem witness_WriteThroughStoreHitWritesLine :
    let s := failing [] (writeThrough scClean)
    let s' : State := { s with bsAnswers := [⟨true, [], none⟩] }
    (.storeHRam 0x8000000E#32 7#32, 2) ∈ ramWrites 0x8000000E#32 7#32 ∧ Inv s ∧ Inv s' ∧
    s.cfg.writePolicy = .writeThrough ∧ s.cfg.off 0x8000000E#32 + 2 ≤ s.cfg.ramSize ∧
    s.cfg.idxOf (s.cfg.off 0x8000000E#32) + 2 ≤ s.cfg.lineSize ∧
    (s.slot 0).valid = true ∧ (s.slot 0).tag.toNat = s.cfg.tagOf (s.cfg.off 0x8000000E#32) ∧
    s.bsAnswers = ⟨false, [], none⟩ :: [] ∧ s'.bsAnswers = ⟨true, [], none⟩ :: [] :=
  ⟨by decide +kernel, failing_inv (writeThrough_inv scClean_inv) _,
    (failing_inv (writeThrough_inv scClean_inv) []).congr rfl rfl rfl rfl, rfl, by decide +kernel, by decide +kernel,
    by decide +kernel, by decide +kernel, rfl, rfl⟩

theorem witness_AccessEventsAreBounded :
    (.storeWRam 0x8000001E#32 7#32, 4) ∈ ramReads 0x8000001E#32 ++ ramWrites 0x8000001E#32 7#32 ∧
    exec (.storeWRam 0x8000001E#32 7#32) scDirty = .next (after (exec (.storeWRam 0x8000001E#32 7#32) scDirty)) :=
  ⟨by decide +kernel, eq_next_after (by decide +kernel)⟩

theorem witness_TransfersAreWholeLines :
    Inv scDirty ∧ exec .flushAll scDirty = .next (after (exec .flushAll scDirty)) ∧
    (after (exec .flushAll scDirty)).bsLog.length = 1 := ⟨scDirty_inv, eq_next_after (by decide +kernel), by decide +kernel⟩

theorem witness_ImageChangesOnlyByBSWrite :
    exec .flushAll (failing [7#8] scTwoDirty) = .next (after (exec .flushAll (failing [7#8] scTwoDirty))) ∧
    (after (exec .flushAll (failing [7#8] scTwoDirty))).bsLog.length = 2 :=
  ⟨eq_next_after (by decide +kernel), by decide +kernel⟩

/-- Every clause: a host that answers, one that never answers the second event, one whose console never accepts, and
power-on reset after the first of two write-backs. -/
theorem witness_HostWaitsEndTransactions :
    scTwoDirty.dutiful ∧
    (let s : State := { scTwoDirty with bsAnswers := [BsAnswer.good, ⟨true, [], some .never⟩] }
     stopOf (exec .flushAll s) = some (.inl .backingStoreNeverAnswers) ∧
     exec .getStats s = .next (after (exec .getStats s)) ∧
     (∀ j < 1, (s.bsAnswers.getD j BsAnswer.good).cut = none) ∧
     (s.bsAnswers.getD 1 BsAnswer.good).cut = some .never) ∧
    (stopOf (exec (.csrwDbgChr 0x41#32) { sc with conAnswers := [some .never] }) = some (.inl .consoleNeverAccepts)) ∧
    (let s : State := { scTwoDirty with bsAnswers := [⟨true, [], some (.powerOn true)⟩] }
     let t := after (exec .flushAll s)
     exec .flushAll s = .next t ∧ (∀ j < 0, (s.bsAnswers.getD j BsAnswer.good).cut = none) ∧
     (s.bsAnswers.getD 0 BsAnswer.good).cut = some (.powerOn true) ∧ s.bsLog.length + 0 < t.bsLog.length) :=
  ⟨⟨by simp [scTwoDirty, scDirty, sc, State.reset], by simp [scTwoDirty, scDirty, sc, State.reset]⟩,
    ⟨by decide +kernel, eq_next_after (by decide +kernel), by decide +kernel, by decide +kernel⟩, by decide +kernel,
    eq_next_after (by decide +kernel), by decide +kernel, by decide +kernel, by decide +kernel⟩

theorem witness_FlushAllWritesDirtyLines :
    Inv (failing [] scTwoDirty) ∧ (failing [] scTwoDirty).uncut ∧ Coherent (failing [] scTwoDirty) ∧
    (failing [] scTwoDirty).sweepFails 0 = true ∧ (failing [] scTwoDirty).sweepFails 1 = false :=
  ⟨failing_inv scTwoDirty_inv _, failing_uncut _ ⟨sc_quiet.answers, sc_quiet.console⟩, scTwoDirty_coherent, by decide +kernel, by decide +kernel⟩

theorem witness_EvictAllEmptiesCache :
    Inv (failing [] scTwoDirty) ∧ (failing [] scTwoDirty).uncut ∧ Inv scDirty ∧ scDirty.uncut ∧
    ∀ j < scDirty.cfg.numLines, scDirty.sweepFails j = false :=
  ⟨failing_inv scTwoDirty_inv _, failing_uncut _ ⟨sc_quiet.answers, sc_quiet.console⟩, scDirty_inv, scDirty_quiet.touncut,
    by decide +kernel⟩

theorem witness_PollInputDeliversOrLosesByte : sc.pendValid = false ∧ scPending.pendValid = true := ⟨rfl, rfl⟩

theorem witness_PostExecSurfacesIoFault :
    ({ sc with ioFaultLatch := true } : State).ioFaultLatch = true ∧ sc.ioFaultLatch = false := ⟨rfl, rfl⟩

/-- SC with a step-result code handed to the run loop. -/
def handed (code : Word) : State := { scDirty with postCode := some code, inputs := [.host (.runLoop [(0, [0x13#8])])] }

/-- Every clause: the codes 0, 1 and 3, POWEROFF_CODE, and FAIL_CODE. -/
theorem witness_RunLoopActsOnStepResult :
    ∀ code ∈ [0#32, 1#32, 3#32, scConfig.poweroffCode, scConfig.failCode],
      (handed code).cfg.wf ∧ (handed code).inputs = .host (.runLoop [(0, [0x13#8])]) :: [] ∧
      (handed code).postCode = some code ∧ (handed code).halted = false ∧ (handed code).released = false ∧
      Inv (handed code) ∧ (handed code).uncut ∧
      (∀ part ∈ [(0, [0x13#8])], part.1 + part.2.length ≤ (handed code).cfg.ramSize) ∧
      scConfig.failCode ∉ [0#32, 1#32, 3#32, scConfig.poweroffCode] :=
  fun code _ => ⟨scDirty_inv.cfg_wf, rfl, rfl, rfl, rfl, scDirty_inv.congr rfl rfl rfl rfl,
    ⟨scDirty_quiet.answers, scDirty_quiet.console⟩, by simp [handed, scDirty, sc, scConfig], by decide⟩

/-- The console host accepts one byte, and is cut short at the next one. -/
def scCut (c : Cut) : State := { sc with conAnswers := [none, some c] }

/-- The clauses of a cut at a byte of output, the last of `n`. -/
def cutWitness (n : Nat) (s : State) (c : Cut) : Prop :=
  n - 1 < n ∧ s.accepts (n - 1) ∧ s.conAnswers.getD (n - 1) none = some c

/-- Every clause: the bytes accepted, the second never accepted, and power-on reset at the wait for it. -/
theorem witness_UartTransmitsUpToNul :
    (leBytes 2 0x4241#32).takeWhile (· != 0#8) = [0x41#8, 0x42#8] ∧ sc.accepts 2 ∧
    cutWitness 2 (scCut .never) .never ∧ cutWitness 2 (scCut (.powerOn true)) (.powerOn true) := by
  unfold cutWitness State.accepts
  decide +kernel

/-- The text of -7 has two bytes. -/
theorem witness_DbgDecEmitsDecimalText :
    decText 0xFFFFFFF9#32 = [0x2D#8, 0x37#8] ∧ sc.accepts 2 ∧ cutWitness 2 (scCut .never) .never ∧
    cutWitness 2 (scCut (.powerOn false)) (.powerOn false) := by
  unfold cutWitness State.accepts
  decide +kernel

theorem witness_DbgHexEmitsEightDigits :
    sc.accepts 8 ∧ 1 < 8 ∧ (scCut .never).accepts 1 ∧ (scCut .never).conAnswers.getD 1 none = some .never ∧
    (scCut (.powerOn true)).accepts 1 ∧ (scCut (.powerOn true)).conAnswers.getD 1 none = some (.powerOn true) := by
  unfold State.accepts
  decide +kernel

theorem witness_DbgChrEmitsLowByte :
    sc.accepts 1 ∧ cutWitness 1 { sc with conAnswers := [some .never] } .never ∧
    cutWitness 1 { sc with conAnswers := [some (.powerOn true)] } (.powerOn true) := by
  unfold cutWitness State.accepts
  decide +kernel

/-- Both clauses: a pointer one past RAM, and the last byte of RAM. -/
theorem witness_DbgStrEmitsString :
    scDirty.cfg.ramSize ≤ scDirty.cfg.off 0x80000040#32 ∧ Inv scDirty ∧ Coherent scDirty ∧ scDirty.quiet ∧
    scDirty.cfg.off 0x8000003F#32 < scDirty.cfg.ramSize :=
  ⟨by decide +kernel, scDirty_inv, scDirty_coherent, scDirty_quiet, by decide +kernel⟩

/-- A string whose second line's fill fails. -/
theorem witness_DbgStrKeepsEmittedPrefix :
    let s := failing [] scClean
    Inv s ∧ Coherent s ∧ s.uncut ∧ s.cfg.off 0x8000001E#32 < s.cfg.ramSize ∧
    (after (exec (.csrwDbgStr 0x8000001E#32) s)).conOut = [0x1E#8, 0x1F#8] ∧
    (after (exec (.csrwDbgStr 0x8000001E#32) s)).resp = faulted .io :=
  ⟨failing_inv scClean_inv _, by unfold Coherent; decide +kernel, failing_uncut _ ⟨sc_quiet.answers, sc_quiet.console⟩, by decide +kernel,
    by decide +kernel, by decide +kernel⟩

theorem witness_DbgInConsumesOrAnswersSentinel :
    scPending.cfg.wf ∧ scPending.pendValid = true ∧ sc.cfg.wf ∧ sc.pendValid = false := by decide +kernel

/-- Both clauses: a bulk load up to the last byte of RAM, and one byte further. -/
theorem witness_BulkLoadOverwritesItsRange :
    let s : State := { sc with booting := true, inputs := [.host (.imageWrite 63 [1#8])] }
    Inv s ∧ s.empty ∧ s.booting = true ∧ s.inputs = .host (.imageWrite 63 [1#8]) :: [] ∧
    63 + [1#8].length ≤ s.cfg.ramSize ∧ s.cfg.ramSize < 64 + [1#8].length :=
  ⟨sc_inv.congr rfl rfl rfl rfl, by unfold State.empty; decide +kernel, rfl, rfl, by decide +kernel,
    by decide +kernel⟩

/-- Two bytes over the end of line 0, of which line 0 is dirty and resident and line 16 clean and resident. -/
def breached : State :=
  { scDirty with
    inputs := [.host (.imageWrite 15 [1#8, 2#8])]
    draws  := [⟨[], [(31, 0x77#8)]⟩] }

/-- Every clause: the breach with a slot valid, and the one with none valid but after the core's first transaction; and
a later step over an unsettled line, with the last byte of that line drawn. -/
theorem witness_ExternalWriteUnsettlesTouchedLines :
    Inv breached ∧ ¬ (breached.empty ∧ breached.booting = true) ∧ (sc.empty ∧ ¬ (sc.empty ∧ sc.booting = true)) ∧ 15 + [1#8, 2#8].length ≤ breached.cfg.ramSize ∧
    breached.inputs = .host (.imageWrite 15 [1#8, 2#8]) :: [] ∧
    step breached = .next (after (step breached)) ∧ breached.draws = ⟨[], [(31, 0x77#8)]⟩ :: [] ∧
    ([((31 : Nat), 0x77#8)].map (·.1)).Nodup ∧ (after (step breached)).unsettledAt 31 = true ∧
    (after (step breached)).unsettledAt 32 = false :=
  ⟨scDirty_inv.congr rfl rfl rfl rfl, fun h => by simp [breached, scDirty, sc] at h,
    ⟨by unfold State.empty; decide +kernel, fun h => by simp [sc] at h⟩, by decide +kernel, rfl,
    eq_next_after (by decide +kernel), rfl, by simp, by decide +kernel, by decide +kernel⟩

theorem witness_RebootIsIdempotent :
    let r1 := after (exec .restart scDirty)
    let u1 : State := { r1 with bs := [(0, [0x13#8])].foldl (fun m part => m.writeBytes part.1 part.2) r1.bs }
    Inv scDirty ∧ exec .restart scDirty = .next r1 ∧ exec .restart u1 = .next (after (exec .restart u1)) :=
  ⟨scDirty_inv, rfl, rfl⟩

end Sys2Proof.Tests
end

section
/-! SUPPORT. The address map as ranges of bus addresses (spec/20_memory.md R41, R44, spec/41_bus_decode.md R110), and
the statement AddressMap. -/

namespace Sys2Proof

variable {c : Config} {a : Word}

/-- The device window is the DEV_SIZE addresses from DEV_BASE (R44). -/
theorem inDevice_iff : inDevice a = true ↔ 0x10000000 ≤ a.toNat ∧ a.toNat < 0x10000008 := by
  have hlt := a.isLt
  rw [inDevice, beq_iff_eq, ← BitVec.toNat_inj, BitVec.extractLsb'_toNat, Nat.shiftRight_eq_div_pow,
    BitVec.toNat_ofNat]
  omega

theorem Config.off_of_le (h : c.ramImageOffset.toNat ≤ a.toNat) : c.off a = a.toNat - c.ramImageOffset.toNat :=
  BitVec.toNat_sub_of_le h

/-- Below the RAM window the subtraction of R41 wraps. -/
theorem Config.off_of_lt (h : a.toNat < c.ramImageOffset.toNat) :
    c.off a = 2 ^ 32 - (c.ramImageOffset.toNat - a.toNat) :=
  BitVec.toNat_sub_of_lt h

/-- The RAM window does not wrap (R9), so a wrapped offset lies past its end. -/
theorem Config.inRam_iff (h : c.wf) : c.inRam a = true ↔
    c.ramImageOffset.toNat ≤ a.toNat ∧ a.toNat < c.ramImageOffset.toNat + c.ramSize := by
  obtain ⟨-, -, -, hfits, -⟩ := h
  rw [inRam, decide_eq_true_eq]
  rcases Nat.lt_or_ge a.toNat c.ramImageOffset.toNat with hlt | hle
  · rw [Config.off_of_lt hlt]; omega
  · rw [Config.off_of_le hle]; omega

/-- The two windows are disjoint (R9), so the order of the tests in `region` does not matter. -/
theorem Config.inDevice_eq_false_of_inRam (h : c.wf) (hr : c.inRam a = true) : inDevice a = false := by
  have hin := (Config.inRam_iff h).1 hr
  obtain ⟨-, -, -, -, -, hdisjoint, -⟩ := h
  have hbase : devBase.toNat = 0x10000000 := rfl
  have hsize : devSize = 8 := rfl
  rw [Bool.eq_false_iff, Ne, inDevice_iff]
  omega

theorem Config.region_eq_device_iff : c.region a = .device ↔ inDevice a = true := by
  unfold Config.region
  cases inDevice a <;> cases c.inRam a <;> decide

theorem Config.region_eq_ram_iff : c.region a = .ram ↔ inDevice a = false ∧ c.inRam a = true := by
  unfold Config.region
  cases inDevice a <;> cases c.inRam a <;> decide

theorem Config.region_eq_unmapped_iff : c.region a = .unmapped ↔ c.region a ≠ .device ∧ c.region a ≠ .ram := by
  cases c.region a <;> decide

/-- With the parameters of R8 and R9 the RAM region is the whole RAM window. -/
theorem Config.region_eq_ram_iff_inRam (h : c.wf) : c.region a = .ram ↔ c.inRam a = true := by
  rw [Config.region_eq_ram_iff]
  exact ⟨fun hr => hr.2, fun hr => ⟨Config.inDevice_eq_false_of_inRam h hr, hr⟩⟩

/-- Settles O6: the windows of `inDevice_iff` and `Config.inRam_iff`, which R9 keeps apart. -/
theorem addressMap : Obligations.AddressMap := by
  intro c a h
  have hram := (Config.region_eq_ram_iff_inRam h).trans (Config.inRam_iff (a := a) h)
  exact ⟨Config.region_eq_device_iff.trans inDevice_iff, hram, Config.region_eq_unmapped_iff,
    fun hr => Config.off_of_le (hram.1 hr).1⟩

end Sys2Proof
end

section
/-! SUPPORT. The parameters are configuration: nothing that goes on changes `cfg` (spec/00_scope.md R8,
spec/10_state.md R20), and the statement StepKeepsConfiguration. -/

namespace Sys2Proof.Machine

open Sys2Proof

variable {s t : State}

/-- No instruction changes the parameters, in any state and however the host answers. -/
theorem exec_cfg (i : Instr) (h : exec i s = .next t) : t.cfg = s.cfg := by
  obtain ⟨n, events, -, hport, -⟩ := exec_port i h
  exact hport.cfg

theorem writeImage_cfg {offset : Nat} {bytes : List Byte} (h : writeImage offset bytes s = .next t) :
    t.cfg = s.cfg := by
  unfold writeImage at h
  split at h
  · cases h
  · injection h with h
    subst h
    split <;> rfl

/-- A response, a raised fault and a power-on reset all end a transaction with its parameters. -/
theorem conclude_cfg {r : Txn Response} {n : Nat} (hr : r.Ports n s) (h : conclude r = .next t) : t.cfg = s.cfg := by
  have hend := conclude_ends hr
  rw [h] at hend
  obtain ⟨events, -, hported, -⟩ := hend
  exact hported.cfg

theorem powerOff_cfg (h : powerOff s = .next t) : t.cfg = s.cfg := by
  have hports := sweep_ports flushSlot_ports s
  unfold powerOff at h
  cases hs : sweep flushSlot s with
  | done r u =>
    rw [hs] at h hports
    obtain ⟨events, -, hported, -⟩ := hports
    exact Host.Outcome.next.inj h ▸ hported.cfg
  | stop w u =>
    rw [hs] at h hports
    exact conclude_cfg hports h

theorem runLoopStep_cfg {image : List (Nat × List Byte)} (h : runLoopStep image s = .next t) : t.cfg = s.cfg := by
  unfold runLoopStep at h
  split at h
  · exact Host.Outcome.next.inj h ▸ rfl
  · next code _ =>
    simp only at h
    split at h
    · exact Host.Outcome.next.inj h ▸ rfl
    · obtain ⟨-, -, hload⟩ := accept_next h
      rw [(loadImage_next (State.mayBulkLoad_restartBlock _) hload).2]
      rfl
    · obtain ⟨-, -, hoff⟩ := accept_next h
      exact (powerOff_cfg hoff).trans (State.setPostCode_cfg s none)

theorem hostStep_cfg {e : HostEvent} (h : hostStep e s = .next t) : t.cfg = s.cfg := by
  cases e with
  | powerOn ok => exact Host.Outcome.next.inj h ▸ rfl
  | imageWrite offset bytes => exact writeImage_cfg h
  | runLoop image => exact runLoopStep_cfg h
  | release => exact Host.Outcome.next.inj h ▸ rfl

theorem serve_cfg (h : serve s = .next t) : t.cfg = s.cfg := by
  rcases serve_cases h with ⟨-, rfl⟩ | ⟨e, rest, -, -, hhost⟩ | ⟨r, rest, -, -, hexec⟩
  · rfl
  · exact (hostStep_cfg hhost).trans (State.setInputs_cfg s rest)
  · exact (exec_cfg _ hexec).trans ((State.noteRequest_cfg _ r.port).trans (State.setInputs_cfg s rest))

/-- Settles O16: neither the input served nor the draw for the unsettled lines touches `cfg`. -/
theorem stepKeepsConfiguration : Obligations.StepKeepsConfiguration := by
  intro s s' h
  obtain ⟨u, hserve, rfl⟩ := step_next h
  exact (Redrawn.drift u).cfg.trans (serve_cfg hserve)

end Sys2Proof.Machine
end

section
/-! SUPPORT. What an input leaves behind: the inversion lemmas of the run loop's reaction (spec/43_core_hooks.md R151)
and of power-off (spec/70_reset_and_hazards.md R194), the invariant and the coherence of clean lines over every input
(spec/10_state.md R23, R26), and the statements StepKeepsInvariant and StepKeepsCoherence. -/

namespace Sys2Proof.Machine

open Sys2Proof

variable {s t : State}

/-! ### What a host event can do -/

/-- A transaction cut short answers a next state only by power-on reset (R168). -/
theorem conclude_cut {w : Stop} {u : State} (hcut : w.isCut) (h : conclude (.stop w u) = .next t) :
    ∃ ok, t = u.powerOn ok := by
  cases w with
  | fault k info => exact hcut.elim
  | powerOn ok => exact ⟨ok, (Host.Outcome.next.inj h).symm⟩
  | stuck f => cases h

/-- Power-off flushes the cache and releases the backing store, unless power-on reset abandons the flush. -/
theorem powerOff_next (hinv : Inv s) (h : powerOff s = .next t) :
    ∃ failed u, Went s u failed [] ∧
      ((∃ r, t = { u.setResp r with released := true }) ∨ ∃ ok, t = u.powerOn ok) := by
  have hspec := sweep_spec flushSlot_spec hinv
  unfold powerOff at h
  cases hs : sweep flushSlot s with
  | done r u =>
    rw [hs] at h hspec
    obtain ⟨failed, -, hwent, -⟩ := hspec
    exact ⟨failed, u, hwent, .inl ⟨some r, (Host.Outcome.next.inj h).symm⟩⟩
  | stop w u =>
    rw [hs] at h hspec
    obtain ⟨failed, hwent, -, hcut⟩ := hspec
    exact ⟨failed, u, hwent, .inr (conclude_cut hcut h)⟩

/-- The run loop does nothing to the block, or restarts it and loads the image, or powers it off (R151). -/
theorem runLoopStep_cases {image : List (Nat × List Byte)} (h : runLoopStep image s = .next t) :
    t = s ∨ t = s.setPostCode none ∨ loadImage image (s.setPostCode none).restartBlock = .next t ∨
      powerOff (s.setPostCode none) = .next t := by
  unfold runLoopStep at h
  split at h
  · exact .inl (Host.Outcome.next.inj h).symm
  · simp only at h
    split at h
    · exact .inr (.inl (Host.Outcome.next.inj h).symm)
    · exact .inr (.inr (.inl (accept_next h).2.2))
    · exact .inr (.inr (.inr (accept_next h).2.2))

/-! ### The invariant over every input -/

theorem Inv.setInputs (h : Inv s) (q : List Input) : Inv (s.setInputs q) := h.congr rfl rfl rfl rfl

theorem Inv.noteRequest (h : Inv s) (p : Port) : Inv (s.noteRequest p) := h.congr rfl rfl rfl rfl

theorem Inv.setPostCode (h : Inv s) (c : Option Word) : Inv (s.setPostCode c) := h.congr rfl rfl rfl rfl

theorem loadImage_inv {image : List (Nat × List Byte)} (hinv : Inv s) (h : loadImage image s = .next t) : Inv t := by
  induction image generalizing s with
  | nil => exact Host.Outcome.next.inj h ▸ hinv
  | cons part parts ih =>
    unfold loadImage at h
    split at h
    · next s1 hw => exact ih (writeImage_inv hinv hw) h
    · cases h
    · cases h

theorem powerOff_inv (hinv : Inv s) (h : powerOff s = .next t) : Inv t := by
  obtain ⟨failed, u, hwent, ⟨r, rfl⟩ | ⟨ok, rfl⟩⟩ := powerOff_next hinv h
  · exact hwent.inv.congr rfl rfl rfl rfl
  · exact hwent.inv.powerOn ok

theorem hostStep_inv {e : HostEvent} (hinv : Inv s) (h : hostStep e s = .next t) : Inv t := by
  cases e with
  | powerOn ok => exact Host.Outcome.next.inj h ▸ hinv.powerOn ok
  | imageWrite offset bytes => exact writeImage_inv hinv h
  | release => exact Host.Outcome.next.inj h ▸ hinv.congr rfl rfl rfl rfl
  | runLoop image =>
    rcases runLoopStep_cases h with rfl | rfl | hload | hoff
    · exact hinv
    · exact hinv.setPostCode none
    · exact loadImage_inv (hinv.setPostCode none).restartBlock hload
    · exact powerOff_inv (hinv.setPostCode none) hoff

theorem serve_inv (hinv : Inv s) (h : serve s = .next t) : Inv t := by
  rcases serve_cases h with ⟨-, rfl⟩ | ⟨e, rest, -, -, hhost⟩ | ⟨r, rest, -, -, hexec⟩
  · exact hinv
  · exact hostStep_inv (hinv.setInputs rest) hhost
  · exact exec_inv ((hinv.setInputs rest).noteRequest r.port) _ hexec

/-- Settles O14: the input served keeps the invariant, and so does the draw for the unsettled lines after it. -/
theorem stepKeepsInvariant : Obligations.StepKeepsInvariant := by
  intro s s' hinv h
  obtain ⟨u, hserve, rfl⟩ := step_next h
  exact (SeesSettled.drift (serve_inv hinv hserve)).inv

/-! ### Coherence over every input -/

/-- Equal slots, image and parameters carry coherence over. -/
theorem Coherent.congr (h : Coherent s) (hc : t.cfg = s.cfg) (hs : t.slots = s.slots) (hb : t.bs = s.bs) :
    Coherent t := by
  intro x hx
  rw [hb, hc]
  exact h x (hs ▸ hx)

theorem Coherent.setInputs (h : Coherent s) (q : List Input) : Coherent (s.setInputs q) := h.congr rfl rfl rfl

theorem Coherent.noteRequest (h : Coherent s) (p : Port) : Coherent (s.noteRequest p) := h.congr rfl rfl rfl

theorem Coherent.setPostCode (h : Coherent s) (c : Option Word) : Coherent (s.setPostCode c) := h.congr rfl rfl rfl

/-- Whatever the backing store answers, an instruction keeps clean lines equal to the image. -/
theorem exec_coherent (hinv : Inv s) (hcoh : Coherent s) (i : Instr) (h : exec i s = .next t) : Coherent t := by
  rcases exec_served hinv i h with hserved | ⟨-, u, ok, rfl, -⟩
  · exact hserved.coherent hcoh
  · exact (State.empty_powerOn u ok).coherent

theorem powerOff_coherent (hinv : Inv s) (hcoh : Coherent s) (h : powerOff s = .next t) : Coherent t := by
  obtain ⟨failed, u, hwent, ⟨r, rfl⟩ | ⟨ok, rfl⟩⟩ := powerOff_next hinv h
  · exact (hwent.coherent hcoh).congr rfl rfl rfl
  · exact (State.empty_powerOn u ok).coherent

theorem powerOff_unsettled (hinv : Inv s) (h : powerOff s = .next t) : t.unsettled = s.unsettled := by
  obtain ⟨failed, u, hwent, ht⟩ := powerOff_next hinv h
  obtain ⟨-, -, -, -, -, hunsettled, -⟩ := hwent.host
  rcases ht with ⟨r, rfl⟩ | ⟨ok, rfl⟩ <;> exact hunsettled

/-- A bulk load that R195 permits meets no valid slot, so it breaks no agreement and unsettles no line. -/
theorem writeImage_bulk_coherent {offset : Nat} {bytes : List Byte} (hload : s.mayBulkLoad = true)
    (h : writeImage offset bytes s = .next t) : Coherent t ∧ t.unsettled = s.unsettled := by
  obtain ⟨-, hempty⟩ := State.mayBulkLoad_iff.1 hload
  by_cases hr : offset + bytes.length ≤ s.cfg.ramSize
  · rw [writeImage_bulk hload hr] at h
    injection h with h
    subst h
    exact ⟨State.empty.coherent hempty, rfl⟩
  · rw [writeImage_past (by omega)] at h
    cases h

/-- A host event keeps coherence and unsettles no line, unless it is a write of the image that R195 does not permit. -/
theorem hostStep_coherent {e : HostEvent} (hinv : Inv s) (hcoh : Coherent s)
    (hload : ∀ offset bytes, e = .imageWrite offset bytes → s.mayBulkLoad = true) (h : hostStep e s = .next t) :
    Coherent t ∧ t.unsettled = s.unsettled := by
  cases e with
  | powerOn ok => exact Host.Outcome.next.inj h ▸ ⟨(State.empty_powerOn s ok).coherent, rfl⟩
  | imageWrite offset bytes => exact writeImage_bulk_coherent (hload offset bytes rfl) h
  | release => exact Host.Outcome.next.inj h ▸ ⟨hcoh.congr rfl rfl rfl, rfl⟩
  | runLoop image =>
    rcases runLoopStep_cases h with rfl | rfl | hboot | hoff
    · exact ⟨hcoh, rfl⟩
    · exact ⟨hcoh.setPostCode none, rfl⟩
    · obtain ⟨-, rfl⟩ := loadImage_next (State.mayBulkLoad_restartBlock _) hboot
      exact ⟨State.empty.coherent (State.empty_restartBlock (s.setPostCode none)), rfl⟩
    · have hinv' := hinv.setPostCode none
      exact ⟨powerOff_coherent hinv' (hcoh.setPostCode none) hoff,
        (powerOff_unsettled hinv' hoff).trans (State.setPostCode_unsettled s none)⟩

/-- Settles O15: with no line unsettled the step is what was served, and only a write of the image that R195 does not
permit would break coherence. -/
theorem stepKeepsCoherence : Obligations.StepKeepsCoherence := by
  intro s s' hinv hcoh hsettled hload h
  obtain ⟨u, hserve, rfl⟩ := step_next h
  have hu : Coherent u ∧ u.unsettled = [] := by
    rcases serve_cases hserve with ⟨-, rfl⟩ | ⟨e, rest, hin, -, hhost⟩ | ⟨r, rest, -, -, hexec⟩
    · exact ⟨hcoh, hsettled⟩
    · have hbulk : ∀ offset bytes, e = .imageWrite offset bytes → (s.setInputs rest).mayBulkLoad = true := by
        rintro offset bytes rfl
        obtain ⟨hempty, hboot⟩ := hload offset bytes rest hin
        exact State.mayBulkLoad_iff.2 ⟨hboot, hempty⟩
      obtain ⟨hcoh', hun⟩ := hostStep_coherent (hinv.setInputs rest) (hcoh.setInputs rest) hbulk hhost
      exact ⟨hcoh', hun.trans hsettled⟩
    · have hinv' := (hinv.setInputs rest).noteRequest r.port
      have hcoh' := (hcoh.setInputs rest).noteRequest r.port
      exact ⟨exec_coherent hinv' hcoh' _ hexec, (exec_unsettled _ hexec).1.trans hsettled⟩
  rw [drift_settled hu.2]
  exact hu

end Sys2Proof.Machine
end

section
/-! SUPPORT. What an instruction makes of the statistics, the streams and the latch (spec/10_state.md R26, R27, R29,
R31), read off `exec_served`, and the statements HitsNeverExceedAccesses, StreamsOnlyGrow and LatchFollowsIoFaults. -/

namespace Sys2Proof.Machine

open Sys2Proof

variable {s t : State}

/-- Where no wait is cut short, no power-on reset abandons an instruction (R168). -/
theorem exec_served_uncut (hinv : Inv s) (huncut : s.uncut) (i : Instr) (h : exec i s = .next t) : Served i s t :=
  (exec_served hinv i h).resolve_right fun habandoned => habandoned.1 huncut

/-- Each hit comes with its access, so hits stays at most accesses while neither counter wraps (R27). -/
theorem Counted.hits_le_accesses {n : Nat} (h : Counted s t n) (hle : s.hits.toNat ≤ s.accesses.toNat)
    (hwrap : s.accesses.toNat + n < 2 ^ 64) : t.hits.toNat ≤ t.accesses.toNat := by
  obtain ⟨m, k, hkm, hmn, haccesses, hhits⟩ := h
  rw [haccesses, hhits, BitVec.toNat_add, BitVec.toNat_add, BitVec.toNat_ofNat, BitVec.toNat_ofNat]
  omega

/-- Settles O17: an instruction counts at most `ramSize + 2` accesses, each with at most one hit, and a power-on reset
clears both counters. -/
theorem hitsNeverExceedAccesses : Obligations.HitsNeverExceedAccesses := by
  intro i s t hinv h hle hwrap
  rcases exec_served hinv i h with hserved | ⟨-, u, ok, rfl, -⟩
  · exact hserved.counted.hits_le_accesses hle hwrap
  · exact Nat.le_refl 0

/-- Settles O19: output and records are appended only. -/
theorem streamsOnlyGrow : Obligations.StreamsOnlyGrow := by
  intro i s t hinv huncut h
  have hserved := exec_served_uncut hinv huncut i h
  refine ⟨hserved.console, ?_⟩
  obtain ⟨records, ⟨hlog, -⟩ | ⟨-, hlog, -⟩⟩ := hserved.records
  · exact hlog ▸ List.prefix_append _ _
  · exact hlog ▸ List.prefix_refl _

/-- From a clear latch, the latch tells whether an IOFault is among the records that joined (R29, R163). -/
theorem LatchedBy.latch_iff {records : List ErrorRecord} (h : LatchedBy s t records) (hclear : s.ioFaultLatch = false) :
    t.ioFaultLatch = true ↔ ∃ x ∈ t.errLog.drop s.errLog.length, x.kind = .io := by
  obtain ⟨hlog, hlatch⟩ := h
  rw [hlatch, hclear, Bool.false_or, hlog, List.drop_left, List.any_eq_true]
  simp only [beq_iff_eq]

/-- Settles O20: the latch takes up each recorded IOFault; POST_EXEC and RESTART alone clear it, and they record
nothing. -/
theorem latchFollowsIoFaults : Obligations.LatchFollowsIoFaults := by
  intro i s t hinv huncut h
  obtain ⟨records, hlatched | ⟨hclears, hlog, hlatch⟩⟩ := (exec_served_uncut hinv huncut i h).records
  · refine ⟨hlatched.latch_iff, fun hset hclear => ?_⟩
    rw [hlatched.2, hset, Bool.true_or] at hclear
    cases hclear
  · exact ⟨fun _ => by simp [hlatch, hlog], fun _ _ => hclears⟩

end Sys2Proof.Machine
end

section
/-! SUPPORT. A read that hits (spec/40_cache.md R82, R87): the response of a one-line read whose line is resident, the
whole state after it, and the statement ReadHitTouchesOnlyRecency. -/

namespace Sys2Proof.Machine

open Sys2Proof

variable {s : State}

/-- A read inside a line that slot `k` holds ends after its hit, with the slot's bytes (R82, R87). -/
theorem ramRead_hit (hinv : Inv s) {n k : Nat} {a : Word} (ho : s.cfg.off a + n ≤ s.cfg.ramSize)
    (hline : s.cfg.idxOf (s.cfg.off a) + n ≤ s.cfg.lineSize) (hv : (s.slot k).valid = true)
    (ht : (s.slot k).tag.toNat = s.cfg.tagOf (s.cfg.off a)) :
    ramRead n a s = .next { s with
      accesses := s.accesses + 1#64
      hits     := s.hits + 1#64
      lru      := k :: s.lru.filter (· != k)
      resp     := some ⟨leWord (((s.slot k).data.drop (s.cfg.idxOf (s.cfg.off a))).take n), none, none⟩ } := by
  rw [ramRead_one ho hline, resolve_hit hinv hv ht]
  rfl

/-- Settles O28: the exact state of a hit, with the bytes of the line as the response's word. -/
theorem readHitTouchesOnlyRecency : Obligations.ReadHitTouchesOnlyRecency := by
  intro s a i n k hi hinv ho hline hv ht
  obtain ⟨hn, hexec⟩ := ramReads_exec hi
  obtain ⟨hlen, hbytes⟩ := lineSlice (hinv.data_length k) hline
  exact ⟨_, wordOf_leWord hlen (width_bounds hn).2 hbytes, (hexec s).trans (ramRead_hit hinv ho hline hv ht)⟩

end Sys2Proof.Machine
end

section
/-! SUPPORT. An instruction at its waits for the host (spec/60_exceptions.md R168, spec/70_reset_and_hazards.md R190,
R206): the first cut among the backing store's answers decides where it ends. From `exec_ends` and `exec_port`, the
statements ImageChangesOnlyByBSWrite and HostWaitsEndTransactions. -/

namespace Sys2Proof.Machine

open Sys2Proof

variable {s t : State}

/-- Settles O38: the events, the answers they use up and the image they leave, as `Ported` has them. -/
theorem imageChangesOnlyByBSWrite : Obligations.ImageChangesOnlyByBSWrite := by
  intro i s t h
  obtain ⟨n, events, -, hported, -⟩ := exec_port i h
  exact ⟨events, hported.bsLog, hported.image, hported.answers, hported.ok⟩

/-- A power-on reset sets the block's fields, whatever the transaction it abandons has made of them (R190). -/
theorem PoweredOn.powerOn {u : State} (hcfg : u.cfg = s.cfg) (ok : Bool) : PoweredOn ok s (u.powerOn ok) where
  slot_count := by rw [State.powerOn_slots, List.length_replicate, hcfg]
  slots x hx := by rw [List.eq_of_mem_replicate hx]; exact ⟨rfl, rfl, rfl⟩
  lru        := by rw [State.powerOn_lru, hcfg]
  accesses   := rfl
  hits       := rfl
  pendValid  := rfl
  pendByte   := rfl
  latch      := rfl
  halted     := rfl
  conOut     := rfl
  errLog     := rfl
  resp       := rfl

/-- A cut is drawn with an answer of the list: past its end no answer cuts. -/
theorem mem_of_cut {k : Nat} {c : Cut} (hcut : (s.bsAnswers.getD k BsAnswer.good).cut = some c) :
    ∃ a ∈ s.bsAnswers, a.cut = some c := by
  rw [List.getD_eq_getElem?_getD] at hcut
  cases ha : s.bsAnswers[k]? with
  | none => rw [ha] at hcut; cases hcut
  | some a => rw [ha] at hcut; exact ⟨a, List.mem_of_getElem? ha, hcut⟩

/-- Answers that do not cut end before one that does. -/
theorem State.noCut.le_of_cut {m k : Nat} {c : Cut} (h : s.noCut m)
    (hcut : (s.bsAnswers.getD k BsAnswer.good).cut = some c) : m ≤ k := by
  by_contra hlt
  rw [h k (by omega)] at hcut
  cases hcut

/-- The fault an endless wait ends in names the port it waits at (R206). -/
theorem CutBy.never_fault {n : Nat} {f : Fault} (h : CutBy s n .never f) :
    (f = .backingStoreNeverAnswers ∧ ∃ a ∈ s.bsAnswers, a.cut = some .never) ∨
      (f = .consoleNeverAccepts ∧ some .never ∈ s.conAnswers) := by
  cases h with
  | store hn hbefore hcut => exact .inl ⟨rfl, mem_of_cut hcut⟩
  | console hbefore hcut => exact .inr ⟨rfl, hcut⟩

/-- Where answer `k` is the first that cuts, an instruction that answers a next state issued at most `k` events, or
event `k` was its last and a power-on reset ended it there (R168). -/
theorem AtPort.first_cut {n k : Nat} {c : Cut} (h : AtPort n s t) (hbefore : s.noCut k)
    (hcut : (s.bsAnswers.getD k BsAnswer.good).cut = some c) :
    t.bsLog.length ≤ s.bsLog.length + k ∨
      (t.bsLog.length = s.bsLog.length + k + 1 ∧ ∃ ok, c = .powerOn ok ∧ PoweredOn ok s t) := by
  obtain ⟨events, -, hported, hend⟩ := h
  have hlen : t.bsLog.length = s.bsLog.length + events.length := by rw [hported.bsLog, List.length_append]
  have hshort : s.noCut events.length → t.bsLog.length ≤ s.bsLog.length + k := fun hno => by
    have := hno.le_of_cut hcut
    omega
  rcases hend with hno | ⟨u, ok, f, rfl, hcfg, hcutby⟩
  · exact .inl (hshort hno)
  · cases hcutby with
    | console hno hmem => exact .inl (hshort hno)
    | @store j hlast hbefore' hcut' =>
      obtain rfl : j = k := Nat.le_antisymm (hbefore'.le_of_cut hcut) (hbefore.le_of_cut hcut')
      rw [hcut'] at hcut
      exact .inr ⟨by omega, ok, (Option.some.inj hcut).symm, .powerOn hcfg ok⟩

/-- Settles O39: `exec_ends` leaves a next state or an endless wait, and the first cut says where. -/
theorem hostWaitsEndTransactions : Obligations.HostWaitsEndTransactions := by
  intro i s
  obtain ⟨n, hends⟩ := exec_ends i s
  refine ⟨exec_next i, fun f hf => ?_, fun r hr => ?_,
    fun t k ht hbefore => ⟨fun hnever => ?_, fun ok hreset hlong => ?_⟩⟩
  · rw [hf] at hends
    obtain ⟨m, -, hcut⟩ := hends
    exact hcut.never_fault
  · rw [hr] at hends
    exact hends
  · rw [ht] at hends
    rcases hends.first_cut hbefore hnever with hshort | ⟨-, ok, hok, -⟩
    · exact hshort
    · cases hok
  · rw [ht] at hends
    rcases hends.first_cut hbefore hreset with hshort | ⟨hlen, ok', hok, hon⟩
    · omega
    · cases hok
      exact ⟨hlen, hon⟩

end Sys2Proof.Machine
end

section
/-! SUPPORT. Halt, release and power-on reset (spec/10_state.md R30, R39, spec/70_reset_and_hazards.md R190 to R195):
the step that serves each, the machine right after reset, and the statements HaltedBlockAcceptsNoRequest,
PowerOnResetValues, ResetStateValues and ResetMeetsInvariant. -/

namespace Sys2Proof.Machine

open Sys2Proof

variable {s t : State}

/-- The step that serves a power-on reset. -/
theorem step_powerOn {ok : Bool} {rest : List Input} (hw : s.cfg.wf) (h : s.inputs = .host (.powerOn ok) :: rest) :
    step s = .next ((s.setInputs rest).powerOn ok).drift := by
  rw [step, serve_host hw h]
  rfl

/-- Settles O10: `accept` stops the request; a power-on reset is no request. -/
theorem haltedBlockAcceptsNoRequest : Obligations.HaltedBlockAcceptsNoRequest := by
  intro s rest hw
  refine ⟨fun r hin hhalted => ?_, fun r hin hopen hreleased => ?_, fun ok hin => ⟨_, step_powerOn hw hin, ?_⟩⟩
  · rw [step, serve_request hw hin, accept_halted (s := s.setInputs rest) hhalted]
    rfl
  · rw [step, serve_request hw hin, accept_released (s := s.setInputs rest) hopen hreleased]
    rfl
  · rw [(Redrawn.drift _).same]
    exact ⟨rfl, rfl, rfl⟩

/-- Drawing the unsettled lines keeps what holds of every slot's valid bit, tag and dirty bit. -/
theorem Redrawn.forall_slots (h : Redrawn s t) {P : Bool × Word × Bool → Prop}
    (hs : ∀ x ∈ s.slots, P (x.valid, x.tag, x.dirty)) : ∀ x ∈ t.slots, P (x.valid, x.tag, x.dirty) := by
  have hmap : ∀ y ∈ t.slots.map (fun x => (x.valid, x.tag, x.dirty)), P y := by
    rw [h.slots]
    exact List.forall_mem_map.2 hs
  exact List.forall_mem_map.1 hmap

theorem Redrawn.length_slots (h : Redrawn s t) : t.slots.length = s.slots.length := by
  simpa using congrArg List.length h.slots

/-- The power-on values of R39 are none of the bytes an unsettled line draws. -/
theorem PoweredOn.redrawn {u : State} {ok : Bool} (h : PoweredOn ok u s) (hr : Redrawn s t) : PoweredOn ok u t where
  slot_count := hr.length_slots.trans h.slot_count
  slots      := hr.forall_slots (P := fun y => y.1 = false ∧ y.2.2 = false ∧ y.2.1 = 0#32) h.slots
  lru        := by rw [hr.same]; exact h.lru
  accesses   := by rw [hr.same]; exact h.accesses
  hits       := by rw [hr.same]; exact h.hits
  pendValid  := by rw [hr.same]; exact h.pendValid
  pendByte   := by rw [hr.same]; exact h.pendByte
  latch      := by rw [hr.same]; exact h.latch
  halted     := by rw [hr.same]; exact h.halted
  conOut     := by rw [hr.same]; exact h.conOut
  errLog     := by rw [hr.same]; exact h.errLog
  resp       := by rw [hr.same]; exact h.resp

/-- Settles O11: the reset sets the fields, and the draw after it touches bytes of unsettled lines only. -/
theorem powerOnResetValues : Obligations.PowerOnResetValues := by
  intro s ok rest hw hin
  have hdrift := Redrawn.drift ((s.setInputs rest).powerOn ok)
  have hon := (PoweredOn.powerOn (s := s) (State.setInputs_cfg s rest) ok).redrawn hdrift
  refine ⟨_, step_powerOn hw hin, hon, hdrift.cfg, ?_, ?_, fun x hx => (hon.slots x hx).1, ?_, hdrift.image⟩
  all_goals rw [hdrift.same]; rfl

/-! ### The machine right after reset -/

/-- The parameters of `State.reset` meet R8 and R9. -/
theorem standard_wf : Config.standard.wf := by decide

theorem State.empty_reset : State.reset.empty := by
  intro x hx
  rw [List.eq_of_mem_replicate hx]
  rfl

/-- Settles O12: the fields as R39 gives them; every slot is the empty one. -/
theorem resetStateValues : Obligations.ResetStateValues := by
  refine ⟨List.length_replicate, fun x hx => ?_, rfl, rfl, rfl, rfl, rfl, rfl, rfl, rfl, rfl⟩
  rw [List.eq_of_mem_replicate hx]
  exact ⟨rfl, rfl, rfl⟩

/-- Settles O13: no slot is valid at reset, so both ask only for the shape of the record. -/
theorem resetMeetsInvariant : Obligations.ResetMeetsInvariant := by
  refine ⟨Inv.of_empty standard_wf State.empty_reset List.length_replicate (fun x hx => ?_) (List.Perm.refl _)
    Memory.wf_nil (List.forall_mem_nil _), State.empty_reset.coherent⟩
  rw [List.eq_of_mem_replicate hx]
  exact ⟨List.length_replicate, rfl⟩

end Sys2Proof.Machine
end

section
/-! SUPPORT. The shapes the meanings of the 36 instructions take, so that a proof about every instruction has one case
for each shape. -/

namespace Sys2Proof.Machine

open Sys2Proof

/-- The shapes the meanings of the instructions take: those that reach the cache or the console, RESTART, and those
that leave the cache and the backing store aside. -/
inductive Meaning (s : State) : Host.Outcome State Fault Refusal → Prop
  | read (n : Nat) (a : Word) : Meaning s (ramRead n a s)
  | write (n : Nat) (a v : Word) : Meaning s (ramWrite n a v s)
  | flush : Meaning s (execFlushAll s)
  | evict : Meaning s (execEvictAll s)
  | string (v : Word) : Meaning s (execCsrwDbgStr v s)
  | text (bytes : List Byte) : Meaning s (emitAndRespond bytes s)
  | restart : Meaning s (execRestart s)
  | aside {t : State} (h : KeepsCache s t) : Meaning s (.next t)

theorem KeepsCache.raise (s : State) (k : FaultKind) (info : Word) : KeepsCache s (s.raise k info) := by
  constructor <;> simp

theorem reservedKey_meaning (p : Port) (a : Word) (s : State) : Meaning s (reservedKey p a s) := by
  cases p with
  | console => exact .aside (by constructor <;> rfl)
  | core => exact .aside (.raise s .device a)
  | control => exact .aside (.raise s .device a)

theorem csrrDbgIn_meaning (s : State) : Meaning s (execCsrrDbgIn s) := by
  unfold execCsrrDbgIn
  split <;> exact .aside (by constructor <;> rfl)

/-- Every instruction has one of the shapes. -/
theorem exec_meaning (i : Instr) (s : State) : Meaning s (exec i s) := by
  cases i
  case fetchRam a => exact .read 4 a
  case loadBRam a => exact .read 1 a
  case loadHRam a => exact .read 2 a
  case loadWRam a => exact .read 4 a
  case storeBRam a v => exact .write 1 a v
  case storeHRam a v => exact .write 2 a v
  case storeWRam a v => exact .write 4 a v
  case flushAll => exact .flush
  case evictAll => exact .evict
  case restart => exact .restart
  case csrwDbgStr v => exact .string v
  case csrwDbgDec v => exact .text (decText v)
  case csrwDbgHex v => exact .text (hexText v)
  case csrwDbgChr v => exact .text [v.setWidth 8]
  case storeUartTx w v => exact .text (uartBytes w v)
  case reservedCmdB p a => exact reservedKey_meaning p a s
  case reservedCmdCToF p low a => exact reservedKey_meaning p a s
  case reservedWrongPort p cmd a => exact reservedKey_meaning p a s
  case csrrDbgIn => exact csrrDbgIn_meaning s
  case pollInput b => exact .aside (by constructor <;> simp)
  all_goals exact .aside (by constructor <;> rfl)

end Sys2Proof.Machine
end

section
/-! SUPPORT. Which slots an instruction can leave dirty under WRITE_THROUGH (spec/10_state.md R26, spec/40_cache.md
R86): no operation but a failed write-through sets a dirty bit, and that one ends the transaction. The statement
DirtyOnlyAfterFailedWriteThrough. -/

namespace Sys2Proof.Machine

open Sys2Proof

variable {s t u : State}

/-! ### Slots that were dirty before -/

/-- From `s` to `t` no line became dirty: every dirty slot of `t` holds a line that was dirty in `s`. The trace did not
shrink, and the policy is the same. -/
structure DirtyKept (s t : State) : Prop where
  cfg   : t.cfg = s.cfg
  trace : s.bsLog.length ≤ t.bsLog.length
  dirty : ∀ x ∈ t.slots, x.dirty = true → ∃ y ∈ s.slots, y.dirty = true ∧ y.tag = x.tag

/-- Every dirty slot of `t` holds a line that was dirty in `s`, or the write of its present bytes has failed since. -/
def DirtyOrFailed (s t : State) : Prop :=
  ∀ x ∈ t.slots, x.dirty = true →
    (∃ y ∈ s.slots, y.dirty = true ∧ y.tag = x.tag) ∨
      .write x.tag.toNat x.data false ∈ t.bsLog.drop s.bsLog.length

theorem DirtyKept.of_slots (hs : t.slots = s.slots) (hc : t.cfg = s.cfg) (hl : s.bsLog.length ≤ t.bsLog.length) :
    DirtyKept s t := ⟨hc, hl, fun x hx hd => ⟨x, hs ▸ hx, hd, rfl⟩⟩

theorem DirtyKept.refl (s : State) : DirtyKept s s := .of_slots rfl rfl (Nat.le_refl _)

theorem DirtyKept.trans (h : DirtyKept s t) (h' : DirtyKept t u) : DirtyKept s u where
  cfg := h'.cfg.trans h.cfg
  trace := h.trace.trans h'.trace
  dirty x hx hd := by
    obtain ⟨y, hy, hyd, hyt⟩ := h'.dirty x hx hd
    obtain ⟨z, hz, hzd, hzt⟩ := h.dirty y hy hyd
    exact ⟨z, hz, hzd, hzt.trans hyt⟩

theorem State.lt_of_dirty {i : Nat} (h : (s.slot i).dirty = true) : i < s.slots.length := by
  by_contra hi
  rw [State.slot_out (by omega)] at h
  cases h

/-- A slot set clean, or to one with the dirty bit and the tag it had, makes no line dirty. -/
theorem DirtyKept.setSlot {i : Nat} {x : Slot}
    (hx : x.dirty = true → (s.slot i).dirty = true ∧ (s.slot i).tag = x.tag) : DirtyKept s (s.setSlot i x) where
  cfg := rfl
  trace := Nat.le_refl _
  dirty y hy hd := by
    rcases State.mem_setSlot hy with rfl | hy
    · obtain ⟨hid, hit⟩ := hx hd
      exact ⟨s.slot i, State.slot_mem (State.lt_of_dirty hid), hid, hit⟩
    · exact ⟨y, hy, hd, rfl⟩

theorem DirtyKept.orFailed (h : DirtyKept s t) : DirtyOrFailed s t := fun x hx hd => .inl (h.dirty x hx hd)

theorem DirtyOrFailed.congr (h : DirtyOrFailed s t) (hs : u.slots = t.slots) (hl : u.bsLog = t.bsLog) :
    DirtyOrFailed s u := by
  intro x hx
  rw [hl]
  exact h x (hs ▸ hx)

/-- What failed after `t` failed after `s`. -/
theorem DirtyKept.trans_orFailed (h : DirtyKept s t) (h' : DirtyOrFailed t u) : DirtyOrFailed s u := by
  intro x hx hd
  rcases h' x hx hd with ⟨y, hy, hyd, hyt⟩ | hfailed
  · obtain ⟨z, hz, hzd, hzt⟩ := h.dirty y hy hyd
    exact .inl ⟨z, hz, hzd, hzt.trans hyt⟩
  · exact .inr (List.drop_subset_drop_left _ h.trace hfailed)

/-! ### Transactions that dirty a slot only as they fail -/

/-- Where the transaction goes on no line became dirty; where it raises, one may have whose write failed. -/
def Txn.DirtiesOnFail {α : Type} (r : Txn α) (s : State) : Prop :=
  r.Spec (fun _ t => DirtyKept s t) fun w t => ¬ w.isCut → DirtyOrFailed s t

theorem dirties_done {α : Type} {a : α} (h : DirtyKept s t) : (Txn.done a t).DirtiesOnFail s := h

theorem dirties_stop {α : Type} {w : Stop} (h : DirtyKept s t) : (Txn.stop w t : Txn α).DirtiesOnFail s :=
  fun _ => h.orFailed

theorem Txn.DirtiesOnFail.after {α : Type} {r : Txn α} (h : DirtyKept s t) (h' : r.DirtiesOnFail t) :
    r.DirtiesOnFail s :=
  Txn.Spec.mono h' (fun _ _ hu => h.trans hu) fun _ _ hu hw => h.trans_orFailed (hu hw)

theorem Txn.DirtiesOnFail.andThen {α β : Type} {r : Txn α} {f : α → State → Txn β} (h : r.DirtiesOnFail s)
    (hf : ∀ a t, t.cfg = s.cfg → (f a t).DirtiesOnFail t) : (r.andThen f).DirtiesOnFail s :=
  Txn.Spec.andThen h fun a t ht => (hf a t ht.cfg).after ht

/-- A BSWrite leaves its event and no slot changed; it stops only where it is cut short. -/
theorem bsWrite_trace (tag : Nat) (data : List Byte) (s : State) :
    (bsWrite tag data s).Spec
      (fun ok t => t.slots = s.slots ∧ t.cfg = s.cfg ∧ t.bsLog = s.bsLog ++ [.write tag data ok])
      fun w _ => w.isCut :=
  bsWrite_spec (fun _ => ⟨rfl, rfl, rfl⟩) fun c _ => c.stop_isCut _

theorem bsWrite_dirties (tag : Nat) (data : List Byte) (s : State) : (bsWrite tag data s).DirtiesOnFail s :=
  (bsWrite_trace tag data s).mono (fun _ _ ⟨hs, hc, hl⟩ => .of_slots hs hc (by simp [hl])) fun _ _ hcut hw =>
    absurd hcut hw

theorem bsRead_dirties (tag : Nat) (s : State) : (bsRead tag s).DirtiesOnFail s := by
  have hread : ∀ ok, DirtyKept s (s.logEvent (.read tag ok)) := fun ok => .of_slots rfl rfl (by simp)
  exact bsRead_spec (fun _ _ => hread true) (fun _ _ => hread false) fun c _ hw => absurd (c.stop_isCut _) hw

theorem writeBack_dirties (i : Nat) (s : State) : (writeBack i s).DirtiesOnFail s := by
  unfold writeBack
  simp only
  split
  · refine (bsWrite_dirties _ _ s).andThen fun ok t _ => ?_
    split
    · exact dirties_done (.setSlot (by simp))
    · exact dirties_done (.refl t)
  · exact dirties_done (.refl s)

theorem releaseVictim_dirties (v : Nat) (s : State) : (releaseVictim v s).DirtiesOnFail s := by
  refine (writeBack_dirties v s).andThen fun ok t _ => ?_
  split
  · exact dirties_done (.setSlot fun hd => ⟨hd, rfl⟩)
  · exact dirties_stop (.refl t)

theorem fill_dirties (v tag : Nat) (s : State) : (fill v tag s).DirtiesOnFail s := by
  refine (bsRead_dirties tag s).andThen fun line t _ => ?_
  cases line with
  | none => exact dirties_stop (.refl t)
  | some bytes =>
    have hfilled : DirtyKept t (t.setSlot v ⟨true, BitVec.ofNat 32 tag, false, bytes⟩) := .setSlot (by simp)
    exact dirties_done (hfilled.trans (.of_slots rfl rfl (Nat.le_refl _)))

theorem resolve_dirties (tag : Nat) (s : State) : (resolve tag s).DirtiesOnFail s := by
  have hcounted : DirtyKept s s.countAccess := .of_slots rfl rfl (Nat.le_refl _)
  have hmiss := (releaseVictim_dirties s.countAccess.victim s.countAccess).andThen fun _ t _ =>
    fill_dirties s.countAccess.victim tag t
  unfold resolve
  simp only
  split
  · exact dirties_done (.of_slots rfl rfl (Nat.le_refl _))
  · exact hmiss.after hcounted

theorem readPieces_dirties (ps : List Piece) (s : State) : (readPieces ps s).DirtiesOnFail s := by
  induction ps generalizing s with
  | nil => exact dirties_done (.refl s)
  | cons p ps ih =>
    exact (resolve_dirties p.tag s).andThen fun i t _ => (ih t).andThen fun rest u _ => dirties_done (.refl u)

/-- Under WRITE_THROUGH the policy leaves the slot clean, or dirty with the write of its bytes failed (R86). -/
theorem writePolicy_dirties (i : Nat) (hpol : s.cfg.writePolicy = .writeThrough) :
    (writePolicy i s).DirtiesOnFail s := by
  unfold writePolicy
  simp only [hpol]
  refine Txn.Spec.andThen ((bsWrite_trace _ _ s).mono (fun _ _ h => h) fun w t hcut hw => absurd hcut hw) ?_
  rintro ok t ⟨hs, hc, hl⟩
  have hkept : DirtyKept s t := .of_slots hs hc (by simp [hl])
  cases ok with
  | true => exact dirties_done (hkept.trans (.setSlot (by simp)))
  | false =>
    intro _ x hx hd
    rcases State.mem_setSlot hx with rfl | hx
    · right
      rw [State.setSlot_bsLog, hl, List.drop_left, State.slot_congr hs hc]
      exact List.mem_singleton.2 rfl
    · exact .inl (hkept.dirty x hx hd)

theorem writePiece_dirties (p : Piece) (bytes : List Byte) (hpol : s.cfg.writePolicy = .writeThrough) :
    (writePiece p bytes s).DirtiesOnFail s := by
  refine (resolve_dirties p.tag s).andThen fun i t hc => ?_
  have hcopied : DirtyKept t (t.setSlot i { t.slot i with data := splice (t.slot i).data p.first bytes }) :=
    .setSlot fun hd => ⟨hd, rfl⟩
  exact (writePolicy_dirties i (by rw [State.setSlot_cfg, hc, hpol])).after hcopied

theorem writePieces_dirties (ps : List Piece) (bytes : List Byte) (hpol : s.cfg.writePolicy = .writeThrough) :
    (writePieces ps bytes s).DirtiesOnFail s := by
  induction ps generalizing s bytes with
  | nil => exact dirties_done (.refl s)
  | cons p ps ih => exact (writePiece_dirties p _ hpol).andThen fun _ t hc => ih _ (by rw [hc, hpol])

theorem flushSlot_dirties (i : Nat) (s : State) : (flushSlot i s).DirtiesOnFail s := by
  refine (writeBack_dirties i s).andThen fun ok t _ => ?_
  split
  · exact dirties_done (.refl t)
  · exact dirties_done (.of_slots rfl rfl (Nat.le_refl _))

theorem evictSlot_dirties (i : Nat) (s : State) : (evictSlot i s).DirtiesOnFail s := by
  refine (flushSlot_dirties i s).andThen fun ok t _ => ?_
  split
  · exact dirties_done (.setSlot fun hd => ⟨hd, rfl⟩)
  · exact dirties_done (.refl t)

theorem overSlots_dirties {f : Nat → State → Txn Bool} (hf : ∀ i s, (f i s).DirtiesOnFail s) (is : List Nat)
    (failed : Bool) (s : State) : (overSlots f is failed s).DirtiesOnFail s := by
  induction is generalizing s failed with
  | nil => exact dirties_done (.refl s)
  | cons i is ih => exact (hf i s).andThen fun ok t _ => ih _ t

theorem sweep_dirties {f : Nat → State → Txn Bool} (hf : ∀ i s, (f i s).DirtiesOnFail s) (s : State) :
    (sweep f s).DirtiesOnFail s :=
  (overSlots_dirties hf _ _ s).andThen fun _ t _ => dirties_done (.refl t)

theorem emit_dirties (b : Byte) (s : State) : (emit b s).DirtiesOnFail s :=
  (emit_spec b).mono (by rintro _ t rfl; exact .of_slots rfl rfl (Nat.le_refl _)) fun w t ⟨_, _, hcut⟩ hw =>
    absurd hcut hw

theorem emitStr_dirties (bytes : List Byte) (s : State) : (emitStr bytes s).DirtiesOnFail s := by
  induction bytes generalizing s with
  | nil => exact dirties_done (.refl s)
  | cons b bytes ih => exact (emit_dirties b s).andThen fun _ t _ => ih t

theorem streamString_dirties (n p : Nat) (s : State) : (streamString n p s).DirtiesOnFail s := by
  induction n generalizing p s with
  | zero => exact dirties_done (.refl s)
  | succ n ih =>
    refine (readPieces_dirties _ s).andThen fun bytes t _ => ?_
    simp only
    split
    · exact dirties_done (.refl t)
    · exact (emit_dirties _ t).andThen fun _ u _ => ih (p + 1) u

/-! ### Instructions -/

/-- The end of a transaction sets no dirty bit, and a power-on reset clears them all. -/
theorem conclude_orFailed {r : Txn Response} (hr : r.DirtiesOnFail s) (h : conclude r = .next t) :
    DirtyOrFailed s t := by
  cases r with
  | done resp u =>
    cases h
    exact DirtyOrFailed.congr (DirtyKept.orFailed hr) rfl rfl
  | stop w u =>
    cases w with
    | fault k info =>
      cases h
      exact DirtyOrFailed.congr (hr id) (State.raise_slots u k info) (State.raise_bsLog u k info)
    | powerOn ok =>
      cases h
      intro x hx hd
      rw [List.eq_of_mem_replicate hx] at hd
      cases hd
    | stuck f => cases h

/-- A transaction that only responds after `r` dirties a slot where `r` does. -/
theorem Txn.DirtiesOnFail.respond {α : Type} {r : Txn α} (hr : r.DirtiesOnFail s) (resp : α → Response) :
    (r.andThen fun a u => .done (resp a) u).DirtiesOnFail s :=
  hr.andThen fun _ u _ => dirties_done (.refl u)

theorem raise_orFailed (s : State) (k : FaultKind) (info : Word) : DirtyOrFailed s (s.raise k info) :=
  (DirtyKept.refl s).orFailed.congr (State.raise_slots s k info) (State.raise_bsLog s k info)

theorem ramRead_orFailed {n : Nat} {a : Word} (h : ramRead n a s = .next t) : DirtyOrFailed s t := by
  unfold ramRead at h
  simp only at h
  split at h
  · exact Host.Outcome.next.inj h ▸ raise_orFailed s .bounds a
  · exact conclude_orFailed ((readPieces_dirties _ s).respond _) h

theorem ramWrite_orFailed {n : Nat} {a v : Word} (hpol : s.cfg.writePolicy = .writeThrough)
    (h : ramWrite n a v s = .next t) : DirtyOrFailed s t := by
  unfold ramWrite at h
  simp only at h
  split at h
  · exact Host.Outcome.next.inj h ▸ raise_orFailed s .bounds a
  · exact conclude_orFailed ((writePieces_dirties _ _ hpol).respond _) h

theorem dbgStr_orFailed {v : Word} (h : execCsrwDbgStr v s = .next t) : DirtyOrFailed s t := by
  unfold execCsrwDbgStr at h
  simp only at h
  split at h
  · exact Host.Outcome.next.inj h ▸ raise_orFailed s .device v
  · exact conclude_orFailed ((streamString_dirties _ _ s).respond _) h

/-- Settles O18: of the shapes a meaning takes, a STORE alone sets a dirty bit, as its write-through fails. -/
theorem dirtyOnlyAfterFailedWriteThrough : Obligations.DirtyOnlyAfterFailedWriteThrough := by
  intro i s t _ hpol h
  change DirtyOrFailed s t
  have hmeaning := exec_meaning i s
  generalize exec i s = o at hmeaning h
  cases hmeaning with
  | read n a => exact ramRead_orFailed h
  | write n a v => exact ramWrite_orFailed hpol h
  | flush => exact conclude_orFailed (sweep_dirties flushSlot_dirties s) h
  | evict => exact conclude_orFailed (sweep_dirties evictSlot_dirties s) h
  | string v => exact dbgStr_orFailed h
  | text bytes => exact conclude_orFailed ((emitStr_dirties bytes s).respond _) h
  | restart =>
    cases h
    intro x hx hd
    obtain ⟨y, -, rfl⟩ := List.mem_map.1 hx
    cases hd
  | aside hkeeps =>
    cases h
    exact (DirtyKept.refl s).orFailed.congr hkeeps.slots hkeeps.bsLog

end Sys2Proof.Machine
end

section
/-! SUPPORT. FETCH, LOAD and STORE on RAM against the RAM view (spec/20_memory.md R46 to R54), while the backing store
answers OK and no wait is cut short: `ramRead_quiet`, `ramWrite_quiet` and `evictAll_quiet` say what each leaves, and
`Stored` is what a STORE leaves for a later read. The statements OnlyStoresChangeRam, ReadsReturnRamBytes,
StoresWriteRamBytes, LoadAfterStoreReturnsValue and StoredValueSurvivesEviction. -/

namespace Sys2Proof.Machine

open Sys2Proof

variable {s t : State} {a v : Word} {n : Nat}

/-- Settles O24: `exec_served` says it of every instruction that no power-on reset abandons. -/
theorem onlyStoresChangeRam : Obligations.OnlyStoresChangeRam := by
  intro i s t hinv hcoh huncut h hstore hrestart
  exact (exec_served_uncut hinv huncut i h).view hstore hrestart hcoh

/-! ### One access -/

/-- An access touches at most two lines, and a hit is counted only with its access (R43, R89). -/
theorem Counted.countsTouched {c : Config} {o : Nat} (h : Counted s t 2)
    (haccesses : t.accesses = s.accesses + BitVec.ofNat 64 (linesTouched c o n)) :
    CountsLines s t (linesTouched c o n) :=
  h.countsLines haccesses (by omega) (linesTouched_le c o n)

/-- With OK answers a read in bounds ends with the bytes the core sees (R90 to R93). -/
theorem ramRead_quiet (hinv : Inv s) (hcoh : Coherent s) (hquiet : s.quiet) (hn : n ∈ [1, 2, 4])
    (ho : s.cfg.off a + n ≤ s.cfg.ramSize) :
    ∃ u, Calm s u ∧ CountsLines s u (linesTouched s.cfg (s.cfg.off a) n) ∧
      ramRead n a s = .next (u.setResp (some ⟨leWord (s.viewBytes (s.cfg.off a) n), none, none⟩)) := by
  rcases ramRead_spec hinv hn ho with ⟨bytes, u, hcalm, hbytes, haccesses, hcount, hread⟩ | ⟨w, u, -, hstop, -⟩
  · exact ⟨u, hcalm, hcount.countsTouched haccesses, hbytes hcoh ▸ hread⟩
  · exact absurd hquiet hstop.1

/-- With OK answers a write in bounds writes all its bytes (R94 to R96). -/
theorem ramWrite_quiet (hinv : Inv s) (hquiet : s.quiet) (hn : n ∈ [1, 2, 4])
    (ho : s.cfg.off a + n ≤ s.cfg.ramSize) :
    ∃ u, Wrote s u (s.cfg.off a) (leBytes n v) ∧ CountsLines s u (linesTouched s.cfg (s.cfg.off a) n) ∧
      ramWrite n a v s = .next (u.setResp (some ⟨0#32, none, none⟩)) := by
  rcases ramWrite_spec (v := v) hinv hn ho with
    ⟨u, hwrote, haccesses, hcount, hwrite⟩ | ⟨w, u, lines, -, -, -, -, htorn, -⟩
  · exact ⟨u, hwrote, hcount.countsTouched haccesses, hwrite⟩
  · exact absurd hquiet htorn.stop.1

/-- A completed write leaves all the stored bytes, whatever response it then gives. -/
theorem Wrote.holdsAll {o : Nat} (h : Wrote s t o (leBytes n v)) (hcoh : Coherent s) (r : Option Response) :
    HoldsBytes s (t.setResp r) o n v := by
  have hall : (leBytes n v).take n = leBytes n v := List.take_of_length_le (by simp)
  exact Wrote.holdsBytes (u := t) (hall.symm ▸ h) (Nat.le_refl n) hcoh rfl rfl rfl

/-- Settles O21: the bytes of `ramRead_quiet`, and its frame. -/
theorem readsReturnRamBytes : Obligations.ReadsReturnRamBytes := by
  intro s a i n hi hinv hcoh hquiet ho
  obtain ⟨hn, hexec⟩ := ramReads_exec hi
  obtain ⟨u, hcalm, hlines, hread⟩ := ramRead_quiet hinv hcoh hquiet hn ho
  have hword : wordOf (leWord (s.viewBytes (s.cfg.off a) n)) n fun j => s.view (s.cfg.off a + j) :=
    wordOf_leWord (State.length_viewBytes s _ n) (width_bounds hn).2 fun j hj => by
      simp [State.viewBytes, List.getD_eq_getElem?_getD, hj]
  exact ⟨_, _, (hexec s).trans hread, rfl, hword, fun p => (u.view_setResp _ p).trans (hcalm.view hcoh p),
    hcalm.inner.keepsRest _, hcalm.inner.keepsErrors _, hlines⟩

/-- Settles O22: the bytes of `ramWrite_quiet`, and its frame. -/
theorem storesWriteRamBytes : Obligations.StoresWriteRamBytes := by
  intro s a v i n hi hinv hcoh hquiet ho
  obtain ⟨hn, hexec⟩ := ramWrites_exec hi
  obtain ⟨u, hwrote, hlines, hwrite⟩ := ramWrite_quiet hinv hquiet hn ho
  exact ⟨_, (hexec s).trans hwrite, rfl, hwrote.holdsAll hcoh _, hwrote.inner.keepsRest _,
    hwrote.inner.keepsErrors _, hlines⟩

/-! ### A STORE and a later read -/

/-- The core sees the low `n` bytes of `v` at the bus address `a`, in RAM, and a further access with OK answers will
complete. -/
structure Stored (s : State) (a v : Word) (n : Nat) : Prop where
  inv      : Inv s
  coherent : Coherent s
  quiet    : s.quiet
  in_ram   : s.cfg.off a + n ≤ s.cfg.ramSize
  bytes    : s.viewBytes (s.cfg.off a) n = leBytes n v

theorem HoldsBytes.viewBytes {o : Nat} (h : HoldsBytes s t o n v) : t.viewBytes o n = leBytes n v := by
  refine List.map_congr_left fun j hj => ?_
  have hj := List.mem_range.1 hj
  rw [h, if_pos (by omega), Nat.add_sub_cancel_left]

/-- A response changes nothing of it. -/
theorem Stored.setResp (h : Stored s a v n) (r : Option Response) : Stored (s.setResp r) a v n where
  inv      := h.inv.setResp r
  coherent := h.coherent.congr rfl rfl rfl
  quiet    := (DrawsLeft.of_eq (s.setResp_bsAnswers r) (s.setResp_conAnswers r)).quiet h.quiet
  in_ram   := h.in_ram
  bytes    := (State.viewBytes_congr (s.view_setResp r) _ _).trans h.bytes

/-- A STORE leaves its value stored (R51). -/
theorem ramWrite_stored (hinv : Inv s) (hcoh : Coherent s) (hquiet : s.quiet) (hn : n ∈ [1, 2, 4])
    (ho : s.cfg.off a + n ≤ s.cfg.ramSize) : ∃ t, ramWrite n a v s = .next t ∧ Stored t a v n := by
  obtain ⟨u, hwrote, -, hwrite⟩ := ramWrite_quiet (v := v) hinv hquiet hn ho
  refine ⟨_, hwrite, Stored.setResp ⟨hwrote.inv, hwrote.coherent hcoh, hwrote.left.quiet hquiet, ?_, ?_⟩ _⟩
  · rwa [hwrote.inner.cfg]
  · rw [hwrote.inner.cfg]
    exact (hwrote.holdsAll hcoh u.resp).viewBytes

/-- A read of a stored value answers it, zero-extended (R51, R68). -/
theorem Stored.ramRead (h : Stored s a v n) (hn : n ∈ [1, 2, 4]) :
    ∃ t, ramRead n a s = .next t ∧ t.resp = some ⟨(v.setWidth (8 * n)).setWidth 32, none, none⟩ := by
  obtain ⟨u, -, -, hread⟩ := ramRead_quiet h.inv h.coherent h.quiet hn h.in_ram
  rw [h.bytes, leWord_leBytes v hn] at hread
  exact ⟨_, hread, rfl⟩

/-- Settles O26: the STORE leaves its value stored, and the read answers it. -/
theorem loadAfterStoreReturnsValue : Obligations.LoadAfterStoreReturnsValue := by
  intro s a v st ld n hst hld hinv hcoh hquiet ho
  obtain ⟨hn, hstore⟩ := ramWrites_exec hst
  obtain ⟨-, hload⟩ := ramReads_exec hld
  obtain ⟨t, hwrite, hstored⟩ := ramWrite_stored hinv hcoh hquiet hn ho
  obtain ⟨u, hread, hresp⟩ := hstored.ramRead hn
  exact ⟨t, u, (hstore s).trans hwrite, (hload t).trans hread, hresp⟩

/-! ### EVICT_ALL between them -/

/-- With OK answers EVICT_ALL fails at no slot, leaves none valid, and changes no byte the core sees (R98, R53). -/
theorem evictAll_quiet (hinv : Inv s) (hquiet : s.quiet) :
    ∃ u, Went s u false [] ∧ u.empty ∧ exec .evictAll s = .next (u.setResp (some (sweepResponse false))) := by
  rcases sweepEnd_spec evictSlot_spec hinv with
    ⟨failed, u, hwent, -, hslots, hfails, hevict⟩ | ⟨failed, w, u, -, hstop, -⟩
  · obtain rfl : failed = false := Bool.eq_false_iff.2 fun hfailed => hfails hfailed hquiet
    refine ⟨u, hwent, fun x hx => ?_, hevict⟩
    obtain ⟨j, hj, rfl⟩ := State.slot_of_mem hx
    rw [hwent.inv.slot_count, hwent.cfg] at hj
    rcases hslots j hj with hevicted | ⟨hfailed, -⟩
    · rw [hevicted]
    · cases hfailed
  · exact absurd hquiet hstop.1

/-- A stored value stays stored over EVICT_ALL, in the image then. -/
theorem Stored.evictAll (h : Stored s a v n) : ∃ t, exec .evictAll s = .next t ∧ t.empty ∧ Stored t a v n := by
  obtain ⟨u, hwent, hempty, hevict⟩ := evictAll_quiet h.inv h.quiet
  refine ⟨_, hevict, hempty, Stored.setResp ⟨hwent.inv, hwent.coherent h.coherent, hwent.left.quiet h.quiet, ?_, ?_⟩ _⟩
  · rw [hwent.cfg]
    exact h.in_ram
  · rw [hwent.cfg, State.viewBytes_congr (hwent.view h.coherent)]
    exact h.bytes

/-- Settles O27: the value the STORE leaves is still stored after EVICT_ALL, and the read answers it. -/
theorem storedValueSurvivesEviction : Obligations.StoredValueSurvivesEviction := by
  intro s a v st ld n hst hld hinv hcoh hquiet ho
  obtain ⟨hn, hstore⟩ := ramWrites_exec hst
  obtain ⟨-, hload⟩ := ramReads_exec hld
  obtain ⟨t, hwrite, hstored⟩ := ramWrite_stored hinv hcoh hquiet hn ho
  obtain ⟨e, hevict, hempty, hstored'⟩ := hstored.evictAll
  obtain ⟨u, hread, hresp⟩ := hstored'.ramRead hn
  exact ⟨t, e, u, (hstore s).trans hwrite, hevict, hempty, (hload e).trans hread, hresp⟩

end Sys2Proof.Machine
end

section
/-! SUPPORT. The decoder by command (spec/30_encoding.md R55 to R58, R69): one equation for each way a request can be
taken, and the rows of the registers of the device window, of the other addresses and of the CSR numbers. -/

namespace Sys2Proof

variable {c : DecodeCtx} {k : Key} {v a : Word} {p : Port} {cmd : Cmd}

/-! ### One equation per command -/

theorem decode_reserved (h : Cmd.ofCode (keyCmd k) = none) : decode c ⟨p, k, v⟩ =
    if keyCmd k = 0xB#4 then .reservedCmdB p (keyAddr k)
    else .reservedCmdCToF p ((keyCmd k).extractLsb' 0 2) (keyAddr k) := by
  simp [decode, h]

theorem decode_wrongPort (h : keyCmd k = cmd.code) (hp : p ≠ cmd.port) :
    decode c ⟨p, k, v⟩ = .reservedWrongPort p cmd (keyAddr k) := by
  simp [decode, h, hp]

theorem decode_fetch (h : keyCmd k = Cmd.fetch.code) : decode c ⟨.core, k, v⟩ =
    if c.cfg.inRam (keyAddr k) then .fetchRam (keyAddr k) else .fetchNonram (keyAddr k) := by
  simp [decode, h, Cmd.port]

theorem decode_load (h : keyCmd k = Cmd.load.code) :
    decode c ⟨.core, k, v⟩ = decodeLoad c (keySize k) (keyAddr k) := by
  simp [decode, h, Cmd.port]

theorem decode_store (h : keyCmd k = Cmd.store.code) :
    decode c ⟨.core, k, v⟩ = decodeStore c (keySize k) (keyAddr k) v := by
  simp [decode, h, Cmd.port]

theorem decode_csrRead (h : keyCmd k = Cmd.csrRead.code) :
    decode c ⟨.core, k, v⟩ = decodeCsrRead (keyAddr k) := by
  simp [decode, h, Cmd.port]

theorem decode_csrWrite (h : keyCmd k = Cmd.csrWrite.code) :
    decode c ⟨.core, k, v⟩ = decodeCsrWrite (keyAddr k) v := by
  simp [decode, h, Cmd.port]

theorem decode_postExec (h : keyCmd k = Cmd.postExec.code) :
    decode c ⟨.core, k, v⟩ = .postExec (keyAddr k) v := by
  simp [decode, h, Cmd.port]

theorem decode_flushAll (h : keyCmd k = Cmd.flushAll.code) : decode c ⟨.control, k, v⟩ = .flushAll := by
  simp [decode, h, Cmd.port]

theorem decode_evictAll (h : keyCmd k = Cmd.evictAll.code) : decode c ⟨.control, k, v⟩ = .evictAll := by
  simp [decode, h, Cmd.port]

theorem decode_getStats (h : keyCmd k = Cmd.getStats.code) : decode c ⟨.control, k, v⟩ = .getStats := by
  simp [decode, h, Cmd.port]

theorem decode_pollInput (h : keyCmd k = Cmd.pollInput.code) :
    decode c ⟨.console, k, v⟩ = .pollInput (v.setWidth 8) := by
  simp [decode, h, Cmd.port]

theorem decode_restart (h : keyCmd k = Cmd.restart.code) : decode c ⟨.control, k, v⟩ = .restart := by
  simp [decode, h, Cmd.port]

/-- The codes 0xC to 0xF are reserved, and their low bits tell them apart. -/
theorem reservedCode_CToF (low : BitVec 2) :
    Cmd.ofCode (3#2 ++ low) = none ∧ 3#2 ++ low ≠ 0xB#4 ∧ (3#2 ++ low : BitVec 4).extractLsb' 0 2 = low := by
  revert low; decide

/-! ### Addresses of the device window and of the CSR ports (R44, R58) -/

/-- A word is its high bits and its low bits. -/
theorem high_append_low {m n : Nat} (a : BitVec (m + n)) : a.extractLsb' n m ++ a.extractLsb' 0 n = a := by
  refine BitVec.eq_of_getLsbD_eq fun i hi => ?_
  rw [BitVec.getLsbD_append]
  split
  · next h => simp [h]
  · next h =>
    rw [BitVec.getLsbD_extractLsb', decide_eq_true (by omega), Bool.true_and, Nat.add_sub_cancel' (by omega)]

@[simp] theorem inDevice_devAddr (reg : BitVec 3) : inDevice (devAddr reg) = true := by
  revert reg; decide

@[simp] theorem devAddr_low (reg : BitVec 3) : (devAddr reg).extractLsb' 0 3 = reg := by
  revert reg; decide

@[simp] theorem devAddr_inj {r q : BitVec 3} : devAddr r = devAddr q ↔ r = q :=
  ⟨fun h => by rw [← devAddr_low r, h, devAddr_low], congrArg devAddr⟩

/-- An address of the device window is its low three bits there. -/
theorem devAddr_of_inDevice (h : inDevice a = true) : devAddr (a.extractLsb' 0 3) = a := by
  rw [inDevice, beq_iff_eq] at h
  rw [devAddr, ← h]
  exact high_append_low (m := 29) (n := 3) a

@[simp] theorem csrAddr_high (n : BitVec 12) : (csrAddr n).extractLsb' 12 20 = 0#20 :=
  BitVec.extractLsb'_append_eq_left

@[simp] theorem csrAddr_low (n : BitVec 12) : (csrAddr n).extractLsb' 0 12 = n :=
  BitVec.extractLsb'_append_eq_right

@[simp] theorem csrAddr_inj {n m : BitVec 12} : csrAddr n = csrAddr m ↔ n = m :=
  ⟨fun h => by rw [← csrAddr_low n, h, csrAddr_low], congrArg csrAddr⟩

/-- An address with a narrow CSR number is that number. -/
theorem csrAddr_of_high (h : a.extractLsb' 12 20 = 0#20) : csrAddr (a.extractLsb' 0 12) = a := by
  rw [csrAddr, ← h]
  exact high_append_low (m := 20) (n := 12) a

/-! ### The rows of a LOAD, a STORE and a CSR transaction -/

theorem devBase_eq : devBase = devAddr 0#3 := by decide

theorem lsrAddr_eq : devAddr 0#3 + 5#32 = devAddr 5#3 := by decide

theorem region_devAddr (c : Config) (reg : BitVec 3) : c.region (devAddr reg) = .device :=
  Config.region_eq_device_iff.2 (inDevice_devAddr reg)

/-- An address outside the device window is none of its registers. -/
theorem ne_devAddr_of_region {c : Config} (h : c.region a ≠ .device) (reg : BitVec 3) : a ≠ devAddr reg := by
  rintro rfl
  exact h (region_devAddr c reg)

/-- The LOAD.ram row of a width. -/
def ramLoad (a : Word) : Width → Instr
  | .byte => .loadBRam a
  | .half => .loadHRam a
  | .word => .loadWRam a

/-- The STORE.ram row of a width. -/
def ramStore (a v : Word) : Width → Instr
  | .byte => .storeBRam a v
  | .half => .storeHRam a v
  | .word => .storeWRam a v

theorem decodeLoad_size11 {size : BitVec 2} (h : Width.ofCode size = none) :
    decodeLoad c size a = .reservedLoadSize11 a := by
  simp [decodeLoad, h]

theorem decodeLoad_device (w : Width) (reg : BitVec 3) : decodeLoad c w.code (devAddr reg) =
    if reg = 0#3 then if c.pendValid then .loadUartRx w else .loadUartRxEmpty w
    else if reg = 5#3 then .loadUartLsr w else .loadDevDefault w reg := by
  simp [decodeLoad, devBase_eq, lsrAddr_eq, region_devAddr]

theorem decodeLoad_ram (w : Width) (h : c.cfg.region a = .ram) : decodeLoad c w.code a = ramLoad a w := by
  have hne := ne_devAddr_of_region (a := a) (c := c.cfg) (by simp [h])
  cases w <;> simp [decodeLoad, devBase_eq, lsrAddr_eq, hne, h, ramLoad]

theorem decodeLoad_unmapped (w : Width) (h : c.cfg.region a = .unmapped) :
    decodeLoad c w.code a = .loadUnmapped w a := by
  have hne := ne_devAddr_of_region (a := a) (c := c.cfg) (by simp [h])
  simp [decodeLoad, devBase_eq, lsrAddr_eq, hne, h]

theorem decodeStore_size11 {size : BitVec 2} (h : Width.ofCode size = none) :
    decodeStore c size a v = .reservedStoreSize11 a := by
  simp [decodeStore, h]

theorem decodeStore_device (w : Width) (reg : BitVec 3) : decodeStore c w.code (devAddr reg) v =
    if reg = 0#3 then .storeUartTx w v else .storeDevDefault w reg v := by
  simp [decodeStore, devBase_eq, region_devAddr]

theorem decodeStore_ram (w : Width) (h : c.cfg.region a = .ram) : decodeStore c w.code a v = ramStore a v w := by
  have hne := ne_devAddr_of_region (a := a) (c := c.cfg) (by simp [h])
  cases w <;> simp [decodeStore, devBase_eq, hne, h, ramStore]

theorem decodeStore_unmapped (w : Width) (h : c.cfg.region a = .unmapped) :
    decodeStore c w.code a v = .storeUnmapped w a v := by
  have hne := ne_devAddr_of_region (a := a) (c := c.cfg) (by simp [h])
  simp [decodeStore, devBase_eq, hne, h]

theorem decodeCsrRead_wide (h : a.extractLsb' 12 20 ≠ 0#20) : decodeCsrRead a = .reservedCsrrWide a := if_pos h

theorem decodeCsrRead_narrow (n : BitVec 12) :
    decodeCsrRead (csrAddr n) = if n = 0x140#12 then .csrrDbgIn else .csrrDefault n := by
  simp [decodeCsrRead]

theorem decodeCsrWrite_wide (h : a.extractLsb' 12 20 ≠ 0#20) : decodeCsrWrite a v = .reservedCsrwWide a := if_pos h

theorem decodeCsrWrite_narrow (n : BitVec 12) : decodeCsrWrite (csrAddr n) v =
    if n = 0x136#12 then .csrwDbgDec v
    else if n = 0x137#12 then .csrwDbgHex v
    else if n = 0x138#12 then .csrwDbgStr v
    else if n = 0x139#12 then .csrwDbgChr v
    else .csrwDefault n v := by
  simp [decodeCsrWrite]

/-! ### The ways a request can be taken -/

/-- A request carries a reserved command, or a command on another port than its own, or one on its own. -/
theorem request_cases (p : Port) (k : Key) : Cmd.ofCode (keyCmd k) = none ∨
    (∃ cmd : Cmd, keyCmd k = cmd.code ∧ p ≠ cmd.port) ∨ ∃ cmd : Cmd, keyCmd k = cmd.code ∧ p = cmd.port := by
  cases hc : Cmd.ofCode (keyCmd k) with
  | none => exact .inl rfl
  | some cmd =>
    have hk := Cmd.code_of_ofCode hc
    by_cases hp : p = cmd.port
    · exact .inr (.inr ⟨cmd, hk, hp⟩)
    · exact .inr (.inl ⟨cmd, hk, hp⟩)

theorem size_cases (size : BitVec 2) : Width.ofCode size = none ∨ ∃ w : Width, size = w.code := by
  cases hw : Width.ofCode size with
  | none => exact .inl rfl
  | some w => exact .inr ⟨w, Width.code_of_ofCode hw⟩

/-- An address is a register of the device window, or in RAM, or unmapped (R110). -/
theorem address_cases (c : Config) (a : Word) :
    (∃ reg, a = devAddr reg) ∨ c.region a = .ram ∨ c.region a = .unmapped := by
  cases hr : c.region a with
  | device => exact .inl ⟨_, (devAddr_of_inDevice (Config.region_eq_device_iff.1 hr)).symm⟩
  | ram => exact .inr (.inl rfl)
  | unmapped => exact .inr (.inr rfl)

/-- An a field is too wide for a CSR number, or it is one (R58). -/
theorem csr_cases (a : Word) : a.extractLsb' 12 20 ≠ 0#20 ∨ ∃ n, a = csrAddr n := by
  by_cases h : a.extractLsb' 12 20 = 0#20
  · exact .inr ⟨_, (csrAddr_of_high h).symm⟩
  · exact .inl h

end Sys2Proof
end

section
/-! SUPPORT. The statements on the encoding (spec/30_encoding.md R55 to R59, R69 to R71): DecodeInvertsEncode,
DecodeGivesWellFormed, DecodeIgnoresUnnamedBits, CsrCommandAndReservedDispatch and SampleWordsDecode. -/

namespace Sys2Proof

variable {c : DecodeCtx} {k : Key} {v a : Word} {p : Port} {cmd : Cmd}

/-! ### The encoder -/

theorem decode_request_load (c : DecodeCtx) (size : BitVec 2) (a v : Word) :
    decode c (Cmd.load.request size a v) = decodeLoad c size a := by
  rw [Cmd.request, Cmd.port, decode_load (keyCmd_mkKey ..), keySize_mkKey, keyAddr_mkKey]

theorem decode_request_store (c : DecodeCtx) (size : BitVec 2) (a v : Word) :
    decode c (Cmd.store.request size a v) = decodeStore c size a v := by
  rw [Cmd.request, Cmd.port, decode_store (keyCmd_mkKey ..), keySize_mkKey, keyAddr_mkKey]

theorem decode_request_csrRead (c : DecodeCtx) (size : BitVec 2) (a v : Word) :
    decode c (Cmd.csrRead.request size a v) = decodeCsrRead a := by
  rw [Cmd.request, Cmd.port, decode_csrRead (keyCmd_mkKey ..), keyAddr_mkKey]

theorem decode_request_csrWrite (c : DecodeCtx) (size : BitVec 2) (a v : Word) :
    decode c (Cmd.csrWrite.request size a v) = decodeCsrWrite a v := by
  rw [Cmd.request, Cmd.port, decode_csrWrite (keyCmd_mkKey ..), keyAddr_mkKey]

theorem decode_request_fetch (c : DecodeCtx) (size : BitVec 2) (a v : Word) :
    decode c (Cmd.fetch.request size a v) = if c.cfg.inRam a then .fetchRam a else .fetchNonram a := by
  rw [Cmd.request, Cmd.port, decode_fetch (keyCmd_mkKey ..), keyAddr_mkKey]

/-- Settles O1: the key's fields read back, and each address takes its own row. -/
theorem decodeInvertsEncode : Obligations.DecodeInvertsEncode := by
  intro c i h
  cases i with
  | reservedCmdB p a => rw [encode, decode_reserved (by simp [Cmd.ofCode]), keyCmd_mkKey, keyAddr_mkKey, if_pos rfl]
  | reservedCmdCToF p low a =>
    obtain ⟨hnone, hB, hlow⟩ := reservedCode_CToF low
    rw [encode, decode_reserved (by rw [keyCmd_mkKey, hnone]), keyCmd_mkKey, keyAddr_mkKey, if_neg hB, hlow]
  | reservedLoadSize11 a => exact (decode_request_load c 3#2 a 0#32).trans (decodeLoad_size11 rfl)
  | reservedStoreSize11 a => exact (decode_request_store c 3#2 a 0#32).trans (decodeStore_size11 rfl)
  | reservedCsrrWide a => exact (decode_request_csrRead ..).trans (decodeCsrRead_wide (bne_iff_ne.1 h))
  | reservedCsrwWide a => exact (decode_request_csrWrite ..).trans (decodeCsrWrite_wide (bne_iff_ne.1 h))
  | reservedWrongPort p cmd a =>
    exact (decode_wrongPort (keyCmd_mkKey ..) (bne_iff_ne.1 h)).trans (by rw [keyAddr_mkKey])
  | storeUartTx w v => exact (decode_request_store ..).trans (decodeStore_device w 0#3)
  | loadUartRx w => exact (decode_request_load ..).trans ((decodeLoad_device w 0#3).trans (if_pos h))
  | loadUartRxEmpty w =>
    have hempty : ¬ c.pendValid = true := by simpa [Instr.wellFormed] using h
    exact (decode_request_load ..).trans ((decodeLoad_device w 0#3).trans (if_neg hempty))
  | loadUartLsr w => exact (decode_request_load ..).trans (decodeLoad_device w 5#3)
  | csrwDbgDec v => exact (decode_request_csrWrite ..).trans (decodeCsrWrite_narrow 0x136#12)
  | csrwDbgHex v => exact (decode_request_csrWrite ..).trans (decodeCsrWrite_narrow 0x137#12)
  | csrwDbgStr v => exact (decode_request_csrWrite ..).trans (decodeCsrWrite_narrow 0x138#12)
  | csrwDbgChr v => exact (decode_request_csrWrite ..).trans (decodeCsrWrite_narrow 0x139#12)
  | csrrDbgIn => exact (decode_request_csrRead ..).trans (decodeCsrRead_narrow 0x140#12)
  | loadDevDefault w reg =>
    obtain ⟨h0, h5⟩ : reg ≠ 0#3 ∧ reg ≠ 5#3 := by simpa [Instr.wellFormed] using h
    exact (decode_request_load ..).trans ((decodeLoad_device w reg).trans (by rw [if_neg h0, if_neg h5]))
  | storeDevDefault w reg v =>
    exact (decode_request_store ..).trans ((decodeStore_device w reg).trans (if_neg (bne_iff_ne.1 h)))
  | csrrDefault n => exact (decode_request_csrRead ..).trans ((decodeCsrRead_narrow n).trans (if_neg (bne_iff_ne.1 h)))
  | csrwDefault n v =>
    obtain ⟨h6, h7, h8, h9⟩ : n ≠ 0x136#12 ∧ n ≠ 0x137#12 ∧ n ≠ 0x138#12 ∧ n ≠ 0x139#12 := by
      simpa [Instr.wellFormed] using h
    exact (decode_request_csrWrite ..).trans ((decodeCsrWrite_narrow n).trans
      (by rw [if_neg h6, if_neg h7, if_neg h8, if_neg h9]))
  | fetchRam a => exact (decode_request_fetch ..).trans (if_pos h)
  | loadBRam a => exact (decode_request_load ..).trans (decodeLoad_ram .byte (eq_of_beq h))
  | loadHRam a => exact (decode_request_load ..).trans (decodeLoad_ram .half (eq_of_beq h))
  | loadWRam a => exact (decode_request_load ..).trans (decodeLoad_ram .word (eq_of_beq h))
  | storeBRam a v => exact (decode_request_store ..).trans (decodeStore_ram .byte (eq_of_beq h))
  | storeHRam a v => exact (decode_request_store ..).trans (decodeStore_ram .half (eq_of_beq h))
  | storeWRam a v => exact (decode_request_store ..).trans (decodeStore_ram .word (eq_of_beq h))
  | fetchNonram a => exact (decode_request_fetch ..).trans (if_neg (by simpa [Instr.wellFormed] using h))
  | loadUnmapped w a => exact (decode_request_load ..).trans (decodeLoad_unmapped w (eq_of_beq h))
  | storeUnmapped w a v => exact (decode_request_store ..).trans (decodeStore_unmapped w (eq_of_beq h))
  | postExec insn code => exact (decode_postExec (keyCmd_mkKey ..)).trans (by rw [keyAddr_mkKey])
  | flushAll => exact decode_flushAll (keyCmd_mkKey ..)
  | evictAll => exact decode_evictAll (keyCmd_mkKey ..)
  | getStats => exact decode_getStats (keyCmd_mkKey ..)
  | pollInput b => exact (decode_pollInput (keyCmd_mkKey ..)).trans (by simp)
  | restart => exact decode_restart (keyCmd_mkKey ..)

/-! ### Well-formedness -/

theorem wellFormed_ramLoad (w : Width) (h : c.cfg.region a = .ram) : (ramLoad a w).wellFormed c = true := by
  cases w <;> exact beq_iff_eq.2 h

theorem wellFormed_ramStore (w : Width) (h : c.cfg.region a = .ram) : (ramStore a v w).wellFormed c = true := by
  cases w <;> exact beq_iff_eq.2 h

theorem decodeLoad_wellFormed (size : BitVec 2) (a : Word) : (decodeLoad c size a).wellFormed c = true := by
  rcases size_cases size with hsize | ⟨w, rfl⟩
  · rw [decodeLoad_size11 hsize]; rfl
  · rcases address_cases c.cfg a with ⟨reg, rfl⟩ | hram | hout
    · rw [decodeLoad_device]
      split_ifs <;> simp_all [Instr.wellFormed]
    · rw [decodeLoad_ram w hram]
      exact wellFormed_ramLoad w hram
    · rw [decodeLoad_unmapped w hout]
      exact beq_iff_eq.2 hout

theorem decodeStore_wellFormed (size : BitVec 2) (a v : Word) : (decodeStore c size a v).wellFormed c = true := by
  rcases size_cases size with hsize | ⟨w, rfl⟩
  · rw [decodeStore_size11 hsize]; rfl
  · rcases address_cases c.cfg a with ⟨reg, rfl⟩ | hram | hout
    · rw [decodeStore_device]
      split_ifs <;> simp_all [Instr.wellFormed]
    · rw [decodeStore_ram w hram]
      exact wellFormed_ramStore w hram
    · rw [decodeStore_unmapped w hout]
      exact beq_iff_eq.2 hout

theorem decodeCsrRead_wellFormed (c : DecodeCtx) (a : Word) : (decodeCsrRead a).wellFormed c = true := by
  rcases csr_cases a with hwide | ⟨n, rfl⟩
  · rw [decodeCsrRead_wide hwide]
    exact bne_iff_ne.2 hwide
  · rw [decodeCsrRead_narrow]
    split_ifs <;> simp_all [Instr.wellFormed]

theorem decodeCsrWrite_wellFormed (c : DecodeCtx) (a v : Word) : (decodeCsrWrite a v).wellFormed c = true := by
  rcases csr_cases a with hwide | ⟨n, rfl⟩
  · rw [decodeCsrWrite_wide hwide]
    exact bne_iff_ne.2 hwide
  · rw [decodeCsrWrite_narrow]
    split_ifs <;> simp_all [Instr.wellFormed]

/-- Settles O2: each way a request is taken leaves the row's condition behind. -/
theorem decodeGivesWellFormed : Obligations.DecodeGivesWellFormed := by
  rintro c ⟨p, k, v⟩
  rcases request_cases p k with hnone | ⟨cmd, hk, hp⟩ | ⟨cmd, hk, rfl⟩
  · rw [decode_reserved hnone]
    split_ifs <;> rfl
  · rw [decode_wrongPort hk hp]
    exact bne_iff_ne.2 hp
  · cases cmd with
    | fetch =>
      rw [Cmd.port, decode_fetch hk]
      split_ifs <;> simp_all [Instr.wellFormed]
    | load =>
      rw [Cmd.port, decode_load hk]
      exact decodeLoad_wellFormed _ _
    | store =>
      rw [Cmd.port, decode_store hk]
      exact decodeStore_wellFormed _ _ _
    | csrRead =>
      rw [Cmd.port, decode_csrRead hk]
      exact decodeCsrRead_wellFormed c _
    | csrWrite =>
      rw [Cmd.port, decode_csrWrite hk]
      exact decodeCsrWrite_wellFormed c _ _
    | postExec => rw [Cmd.port, decode_postExec hk]; rfl
    | flushAll => rw [Cmd.port, decode_flushAll hk]; rfl
    | evictAll => rw [Cmd.port, decode_evictAll hk]; rfl
    | getStats => rw [Cmd.port, decode_getStats hk]; rfl
    | pollInput => rw [Cmd.port, decode_pollInput hk]; rfl
    | restart => rw [Cmd.port, decode_restart hk]; rfl

/-! ### Ignored bits -/

theorem Cmd.code_inj {cmd cmd' : Cmd} (h : cmd.code = cmd'.code) : cmd = cmd' :=
  Option.some.inj (by rw [← Cmd.ofCode_code, h, Cmd.ofCode_code])

/-- Settles O4: each way a request is taken reads the fields its hypothesis gives. -/
theorem decodeIgnoresUnnamedBits : Obligations.DecodeIgnoresUnnamedBits := by
  rintro c ⟨p, k, v⟩ ⟨-, k', v'⟩ rfl hcmd hsize haddr hdata hbyte
  simp only at hcmd hsize haddr hdata hbyte ⊢
  rcases request_cases p k with hnone | ⟨cmd, hk, hp⟩ | ⟨cmd, hk, rfl⟩
  · have ha := haddr fun cmd _ h => by rw [h.1, Cmd.ofCode_code] at hnone; cases hnone
    rw [decode_reserved hnone, decode_reserved (hcmd ▸ hnone), hcmd, ha]
  · have ha := haddr fun cmd' _ h => hp (by rw [Cmd.code_inj (hk.symm.trans h.1), h.2])
    rw [decode_wrongPort hk hp, decode_wrongPort (hcmd ▸ hk) hp, ha]
  · have hk' : keyCmd k' = cmd.code := hcmd ▸ hk
    have ha (hmem : cmd ∉ [Cmd.flushAll, .evictAll, .getStats, .pollInput, .restart]) : keyAddr k = keyAddr k' :=
      haddr fun cmd' hcmd' h => hmem (Cmd.code_inj (hk.symm.trans h.1) ▸ hcmd')
    rw [hk] at hsize hdata hbyte
    cases cmd with
    | fetch => rw [Cmd.port, decode_fetch hk, decode_fetch hk', ha (by decide)]
    | load => rw [Cmd.port, decode_load hk, decode_load hk', ha (by decide), hsize (by decide)]
    | store =>
      rw [Cmd.port, decode_store hk, decode_store hk', ha (by decide), hsize (by decide), hdata (by decide)]
    | csrRead => rw [Cmd.port, decode_csrRead hk, decode_csrRead hk', ha (by decide)]
    | csrWrite => rw [Cmd.port, decode_csrWrite hk, decode_csrWrite hk', ha (by decide), hdata (by decide)]
    | postExec => rw [Cmd.port, decode_postExec hk, decode_postExec hk', ha (by decide), hdata (by decide)]
    | flushAll => rw [Cmd.port, decode_flushAll hk, decode_flushAll hk']
    | evictAll => rw [Cmd.port, decode_evictAll hk, decode_evictAll hk']
    | getStats => rw [Cmd.port, decode_getStats hk, decode_getStats hk']
    | pollInput => rw [Cmd.port, decode_pollInput hk, decode_pollInput hk', hbyte rfl]
    | restart => rw [Cmd.port, decode_restart hk, decode_restart hk']

/-! ### CSR numbers and reserved keys -/

theorem wide_iff : a.extractLsb' 12 20 ≠ 0#20 ↔ 0x1000 ≤ a.toNat := by
  have hlt := a.isLt
  rw [Ne, ← BitVec.toNat_inj, BitVec.extractLsb'_toNat, Nat.shiftRight_eq_div_pow, BitVec.toNat_ofNat]
  omega

theorem csrAddr_narrow (n : BitVec 12) : ¬ 0x1000 ≤ (csrAddr n).toNat := fun h =>
  wide_iff.2 h (csrAddr_high n)

theorem decodeCsrRead_eq (a : Word) : decodeCsrRead a =
    if 0x1000 ≤ a.toNat then .reservedCsrrWide a
    else if a = 0x140#32 then .csrrDbgIn else .csrrDefault (a.extractLsb' 0 12) := by
  rcases csr_cases a with hwide | ⟨n, rfl⟩
  · rw [decodeCsrRead_wide hwide, if_pos (wide_iff.1 hwide)]
  · rw [decodeCsrRead_narrow, if_neg (csrAddr_narrow n), csrAddr_low]
    exact if_congr csrAddr_inj.symm rfl rfl

theorem decodeCsrWrite_eq (a v : Word) : decodeCsrWrite a v =
    if 0x1000 ≤ a.toNat then .reservedCsrwWide a
    else if a = 0x136#32 then .csrwDbgDec v
    else if a = 0x137#32 then .csrwDbgHex v
    else if a = 0x138#32 then .csrwDbgStr v
    else if a = 0x139#32 then .csrwDbgChr v
    else .csrwDefault (a.extractLsb' 0 12) v := by
  rcases csr_cases a with hwide | ⟨n, rfl⟩
  · rw [decodeCsrWrite_wide hwide, if_pos (wide_iff.1 hwide)]
  · have hnum (m : BitVec 12) : n = m ↔ csrAddr n = csrAddr m := csrAddr_inj.symm
    rw [decodeCsrWrite_narrow, if_neg (csrAddr_narrow n), csrAddr_low]
    exact if_congr (hnum _) rfl (if_congr (hnum _) rfl (if_congr (hnum _) rfl (if_congr (hnum _) rfl rfl)))

/-- The codes 0xC to 0xF are reserved (R56). -/
theorem reservedCode_of_le (code : BitVec 4) (h : 0xC#4 ≤ code) : Cmd.ofCode code = none ∧ code ≠ 0xB#4 := by
  revert code; decide

/-- Settles O8: the equation of each command, of a reserved command and of a command on another port. -/
theorem csrCommandAndReservedDispatch : Obligations.CsrCommandAndReservedDispatch := by
  intro c k v
  refine ⟨fun h => (decode_csrRead h).trans (decodeCsrRead_eq _),
    fun h => (decode_csrWrite h).trans (decodeCsrWrite_eq _ _), decode_postExec, decode_flushAll, decode_evictAll,
    decode_getStats, fun h => ?_, decode_restart, fun h hsize => ?_, fun h hsize => ?_, fun p h => ?_, fun p h => ?_,
    fun p cmd h hp => decode_wrongPort h hp⟩
  · rw [decode_pollInput h, BitVec.setWidth_eq_extractLsb' (by omega)]
  · rw [decode_load h, hsize, decodeLoad_size11 rfl]
  · rw [decode_store h, hsize, decodeStore_size11 rfl]
  · rw [decode_reserved (by rw [h]; rfl), if_pos h]
  · obtain ⟨hnone, hB⟩ := reservedCode_of_le _ h
    rw [decode_reserved hnone, if_neg hB]

/-! ### Sample words -/

/-- Settles O5: the decoder on each key. -/
theorem sampleWordsDecode : Obligations.SampleWordsDecode := by
  unfold Obligations.SampleWordsDecode
  decide

end Sys2Proof
end

section
/-! SUPPORT. The 36 rows of the opcode table against the decoder (spec/30_encoding.md R69): what each row asks of a
request, the rows that compete with it on the same command and port, and the statement DecodeFollowsOpcodeTable. -/

namespace Sys2Proof

variable {c : DecodeCtx} {r : Request} {k : Key} {v a : Word} {p : Port} {cmd : Cmd}

/-! ### Masks -/

/-- A mask of the high bits. -/
theorem masked_high {m n : Nat} (a : BitVec (m + n)) (y : BitVec m) :
    (a &&& (BitVec.allOnes m ++ 0#n) == y ++ 0#n) = (a.extractLsb' n m == y) := by
  conv => lhs; rw [← high_append_low a, BitVec.and_append, BitVec.and_allOnes, BitVec.and_zero]
  rw [Bool.eq_iff_iff, beq_iff_eq, beq_iff_eq]
  refine ⟨fun h => ?_, fun h => by rw [h]⟩
  rw [← BitVec.extractLsb'_append_eq_left (a := a.extractLsb' n m) (b := 0#n), h, BitVec.extractLsb'_append_eq_left]

theorem masked_window (a : Word) : (a &&& 0xFFFFFFF8#32 == 0x10000000#32) = inDevice a :=
  masked_high (m := 29) (n := 3) a 0x02000000#29

theorem masked_csr (a : Word) : (a &&& 0xFFFFF000#32 == 0#32) = (a.extractLsb' 12 20 == 0#20) :=
  masked_high (m := 20) (n := 12) a 0#20

theorem masked_word (a : Word) : a &&& 0xFFFFFFFF#32 = a := BitVec.and_allOnes

theorem masked_size (size : BitVec 2) : size &&& 3#2 = size := BitVec.and_allOnes

/-! ### The table by index

Rows are named by their place in the table, counted from 0. The command and the port leave few of them; among these the
operands decide. -/

/-- Row `i` of the table. -/
def rowAt (i : Fin 36) : TableRow := opcodeTable.get i

/-- What the command and the port decide of a row's match, the wrong-port condition among it. -/
def TableRow.fitsCommand (code : BitVec 4) (p : Port) (row : TableRow) : Bool :=
  (code &&& keyCmd row.mask == keyCmd row.value) && (row.port == none || row.port == some p) &&
    (!decide (row.condition = .wrongPort) || (Cmd.ofCode code).any (p != ·.port))

/-- What each row asks of the operands and the decode context. -/
@[simp] def operandTests (c : DecodeCtx) (size : BitVec 2) (a : Word) : List Bool := [
  true, true, size == 3#2, size == 3#2, a.extractLsb' 12 20 != 0#20, a.extractLsb' 12 20 != 0#20, true,
  a == devAddr 0#3, a == devAddr 0#3 && c.pendValid, a == devAddr 0#3 && !c.pendValid, a == devAddr 5#3,
  a == csrAddr 0x136#12, a == csrAddr 0x137#12, a == csrAddr 0x138#12, a == csrAddr 0x139#12, a == csrAddr 0x140#12,
  inDevice a, inDevice a, a.extractLsb' 12 20 == 0#20, a.extractLsb' 12 20 == 0#20,
  c.cfg.inRam a, size == 0#2 && c.cfg.inRam a, size == 1#2 && c.cfg.inRam a, size == 2#2 && c.cfg.inRam a,
  size == 0#2 && c.cfg.inRam a, size == 1#2 && c.cfg.inRam a, size == 2#2 && c.cfg.inRam a,
  !c.cfg.inRam a, !c.cfg.inRam a && !inDevice a, !c.cfg.inRam a && !inDevice a,
  true, true, true, true, true, true]

/-- What row `i` asks of them. -/
@[simp] def operandTest (c : DecodeCtx) (size : BitVec 2) (a : Word) (i : Fin 36) : Bool := (operandTests c size a).get i

/-- Only the wrong-port condition looks at the command and the port. -/
theorem RowCondition.holds_eq (cond : RowCondition) : cond.holds c r =
    ((decide (cond = .wrongPort) || cond.holds c r) &&
      (!decide (cond = .wrongPort) || (Cmd.ofCode (keyCmd r.key)).any (r.port != ·.port))) := by
  cases cond
  case wrongPort =>
    rw [RowCondition.holds]
    cases Cmd.ofCode (keyCmd r.key) <;> rfl
  all_goals exact (Bool.and_true _).symm

theorem operandTest_eq (c : DecodeCtx) (r : Request) (i : Fin 36) : operandTest c (keySize r.key) (keyAddr r.key) i =
    ((keySize r.key &&& keySize (rowAt i).mask == keySize (rowAt i).value) &&
      (keyAddr r.key &&& keyAddr (rowAt i).mask == keyAddr (rowAt i).value) &&
      (decide ((rowAt i).condition = .wrongPort) || (rowAt i).condition.holds c r)) := by
  fin_cases i <;>
    simp [rowAt, opcodeTable, reservedRows, deviceRows, memoryRows, commandRows,
      RowCondition.holds, keySize, keyAddr, masked_size, masked_word, masked_csr, masked_window, devAddr, csrAddr]

/-- No row looks at the rsv bits. -/
theorem mkKey_rowAt : ∀ i : Fin 36,
    mkKey (keyCmd (rowAt i).mask) (keySize (rowAt i).mask) (keyAddr (rowAt i).mask) = (rowAt i).mask ∧
    mkKey (keyCmd (rowAt i).value) (keySize (rowAt i).value) (keyAddr (rowAt i).value) = (rowAt i).value := by
  decide

/-- A row's match, taken apart into the command's part and the operands'. -/
theorem rowAt_fits (i : Fin 36) : (rowAt i).fits c r =
    ((rowAt i).fitsCommand (keyCmd r.key) r.port && operandTest c (keySize r.key) (keyAddr r.key) i) := by
  obtain ⟨hmask, hvalue⟩ := mkKey_rowAt i
  have hkey := masked_eq_iff r.key (keyCmd (rowAt i).mask) (keyCmd (rowAt i).value) (keySize (rowAt i).mask)
    (keySize (rowAt i).value) (keyAddr (rowAt i).mask) (keyAddr (rowAt i).value)
  rw [hmask, hvalue] at hkey
  rw [TableRow.fits, hkey, RowCondition.holds_eq, operandTest_eq, TableRow.fitsCommand]
  ac_rfl

/-! ### The winning row -/

/-- The other rows of a command on a port that are not ranked behind row `i`. -/
def rivals (code : BitVec 4) (p : Port) (i : Fin 36) : List (Fin 36) :=
  (List.finRange 36).filter fun j =>
    (rowAt j).fitsCommand code p && decide ((rowAt j).priority ≤ (rowAt i).priority) && decide (j ≠ i)

theorem mem_opcodeTable {row : TableRow} : row ∈ opcodeTable ↔ ∃ i, rowAt i = row := List.mem_iff_get

theorem nodup_opcodeTable : opcodeTable.Nodup :=
  List.Nodup.of_map TableRow.mnemonic (by decide)

theorem mem_winningRows {row : TableRow} : row ∈ winningRows c r ↔
    (row ∈ opcodeTable ∧ row.fits c r = true) ∧
      ∀ other ∈ opcodeTable, other.fits c r = true → row.priority ≤ other.priority := by
  simp only [winningRows, List.mem_filter, List.all_eq_true, decide_eq_true_eq, and_imp]

/-- Row `i` wins when its operands fit and those of its rivals do not. -/
theorem winningRows_eq {i : Fin 36} (hcommand : (rowAt i).fitsCommand (keyCmd k) p = true)
    (hfit : operandTest c (keySize k) (keyAddr k) i = true)
    (hrivals : ∀ j ∈ rivals (keyCmd k) p i, operandTest c (keySize k) (keyAddr k) j = false) :
    winningRows c ⟨p, k, v⟩ = [rowAt i] := by
  have hwins : (rowAt i).fits c ⟨p, k, v⟩ = true := by rw [rowAt_fits, hcommand, hfit, Bool.and_true]
  have hloses : ∀ j, (rowAt j).fits c ⟨p, k, v⟩ = true → (rowAt j).priority ≤ (rowAt i).priority → j = i := by
    intro j hj hle
    by_contra hne
    rw [rowAt_fits, Bool.and_eq_true] at hj
    have hrival : j ∈ rivals (keyCmd k) p i := by simp [rivals, hj.1, hle, hne]
    rw [hrivals j hrival] at hj
    exact Bool.false_ne_true hj.2
  have hnodup : (winningRows c ⟨p, k, v⟩).Nodup := (nodup_opcodeTable.filter _).filter _
  refine List.perm_singleton.1 ((List.perm_ext_iff_of_nodup hnodup (List.nodup_singleton _)).2 fun row => ?_)
  rw [mem_winningRows, List.mem_singleton]
  constructor
  · rintro ⟨⟨hrow, hfits⟩, hleast⟩
    obtain ⟨j, rfl⟩ := mem_opcodeTable.1 hrow
    rw [hloses j hfits (hleast _ (mem_opcodeTable.2 ⟨i, rfl⟩) hwins)]
  · rintro rfl
    refine ⟨⟨mem_opcodeTable.2 ⟨i, rfl⟩, hwins⟩, fun other hother hfits => ?_⟩
    obtain ⟨j, rfl⟩ := mem_opcodeTable.1 hother
    by_contra hlt
    rw [hloses j hfits (by omega)] at hlt
    exact hlt (le_refl _)

/-- The row of mnemonic `m` wins. -/
def Wins (c : DecodeCtx) (r : Request) (m : String) : Prop := ∃ row, winningRows c r = [row] ∧ row.mnemonic = m

/-- Row `i` wins over its rivals `js`. -/
theorem Wins.of_row {code : BitVec 4} {m : String} (i : Fin 36) (js : List (Fin 36)) (hk : keyCmd k = code)
    (hjs : rivals code p i = js) (hcommand : (rowAt i).fitsCommand code p = true) (hm : (rowAt i).mnemonic = m)
    (hfit : operandTest c (keySize k) (keyAddr k) i = true)
    (hrivals : ∀ j ∈ js, operandTest c (keySize k) (keyAddr k) j = false) : Wins c ⟨p, k, v⟩ m := by
  subst hk hjs
  exact ⟨_, winningRows_eq hcommand hfit hrivals, hm⟩

/-! ### The winning row of each command -/

/-- The size tests of a LOAD or STORE at a width. -/
theorem Width.code_tests (w : Width) : (w.code == 3#2) = false ∧ (w.code == 0#2) = decide (w = .byte) ∧
    (w.code == 1#2) = decide (w = .half) ∧ (w.code == 2#2) = decide (w = .word) := by
  cases w <;> decide

theorem size_eq_three {size : BitVec 2} (h : Width.ofCode size = none) : size = 3#2 := by
  revert size; decide

/-- A RAM address fits no row of the device window. -/
theorem ram_tests {c : Config} (h : c.region a = .ram) :
    (∀ reg, a ≠ devAddr reg) ∧ inDevice a = false ∧ c.inRam a = true :=
  ⟨ne_devAddr_of_region (c := c) (by simp [h]), Config.region_eq_ram_iff.1 h⟩

/-- An unmapped address fits none of it and no RAM row. -/
theorem unmapped_tests {c : Config} (h : c.region a = .unmapped) :
    (∀ reg, a ≠ devAddr reg) ∧ inDevice a = false ∧ c.inRam a = false := by
  obtain ⟨hdevice, hram⟩ := Config.region_eq_unmapped_iff.1 h
  have hout : inDevice a = false := by simpa [Config.region_eq_device_iff] using hdevice
  exact ⟨ne_devAddr_of_region hdevice, hout, by simpa [Config.region_eq_ram_iff, hout] using hram⟩

theorem wins_load (hk : keyCmd k = Cmd.load.code) :
    Wins c ⟨.core, k, v⟩ (decodeLoad c (keySize k) (keyAddr k)).mnemonic := by
  rcases size_cases (keySize k) with hsize | ⟨w, hw⟩
  · rw [decodeLoad_size11 hsize]
    exact .of_row 2 [] hk rfl rfl rfl (by simp [size_eq_three hsize]) (by simp)
  · obtain ⟨h3, h0, h1, h2⟩ := w.code_tests
    rcases address_cases c.cfg (keyAddr k) with ⟨reg, ha⟩ | hram | hout
    · rw [hw, ha, decodeLoad_device]
      split_ifs with huart hpend hlsr
      · exact .of_row 8 [2, 9, 10] hk rfl rfl rfl (by simp [ha, huart, hpend])
          (by simp [hw, h3, ha, huart, hpend])
      · exact .of_row 9 [2, 8, 10] hk rfl rfl rfl (by simp [ha, huart, hpend])
          (by simp [hw, h3, ha, huart, hpend])
      · exact .of_row 10 [2, 8, 9] hk rfl rfl rfl (by simp [ha, hlsr])
          (by simp [hw, h3, ha, huart])
      · exact .of_row 16 [2, 8, 9, 10] hk rfl rfl rfl (by simp [ha])
          (by simp [hw, h3, ha, huart, hlsr])
    · obtain ⟨hne, hdevice, hin⟩ := ram_tests hram
      rw [hw, decodeLoad_ram w hram]
      cases w with
      | byte =>
        exact .of_row 21 [2, 8, 9, 10, 16, 22, 23] hk rfl rfl rfl (by simp [hw, h0, hin])
          (by simp [hw, h3, h1, h2, hne, hdevice])
      | half =>
        exact .of_row 22 [2, 8, 9, 10, 16, 21, 23] hk rfl rfl rfl (by simp [hw, h1, hin])
          (by simp [hw, h3, h0, h2, hne, hdevice])
      | word =>
        exact .of_row 23 [2, 8, 9, 10, 16, 21, 22] hk rfl rfl rfl (by simp [hw, h2, hin])
          (by simp [hw, h3, h0, h1, hne, hdevice])
    · obtain ⟨hne, hdevice, hin⟩ := unmapped_tests hout
      rw [hw, decodeLoad_unmapped w hout]
      exact .of_row 28 [2, 8, 9, 10, 16, 21, 22, 23] hk rfl rfl rfl (by simp [hdevice, hin])
        (by simp [hw, h3, hne, hdevice, hin])

theorem wins_store (hk : keyCmd k = Cmd.store.code) :
    Wins c ⟨.core, k, v⟩ (decodeStore c (keySize k) (keyAddr k) v).mnemonic := by
  rcases size_cases (keySize k) with hsize | ⟨w, hw⟩
  · rw [decodeStore_size11 hsize]
    exact .of_row 3 [] hk rfl rfl rfl (by simp [size_eq_three hsize]) (by simp)
  · obtain ⟨h3, h0, h1, h2⟩ := w.code_tests
    rcases address_cases c.cfg (keyAddr k) with ⟨reg, ha⟩ | hram | hout
    · rw [hw, ha, decodeStore_device]
      split_ifs with huart
      · exact .of_row 7 [3] hk rfl rfl rfl (by simp [ha, huart]) (by simp [hw, h3])
      · exact .of_row 17 [3, 7] hk rfl rfl rfl (by simp [ha]) (by simp [hw, h3, ha, huart])
    · obtain ⟨hne, hdevice, hin⟩ := ram_tests hram
      rw [hw, decodeStore_ram w hram]
      cases w with
      | byte =>
        exact .of_row 24 [3, 7, 17, 25, 26] hk rfl rfl rfl (by simp [hw, h0, hin])
          (by simp [hw, h3, h1, h2, hne, hdevice])
      | half =>
        exact .of_row 25 [3, 7, 17, 24, 26] hk rfl rfl rfl (by simp [hw, h1, hin])
          (by simp [hw, h3, h0, h2, hne, hdevice])
      | word =>
        exact .of_row 26 [3, 7, 17, 24, 25] hk rfl rfl rfl (by simp [hw, h2, hin])
          (by simp [hw, h3, h0, h1, hne, hdevice])
    · obtain ⟨hne, hdevice, hin⟩ := unmapped_tests hout
      rw [hw, decodeStore_unmapped w hout]
      exact .of_row 29 [3, 7, 17, 24, 25, 26] hk rfl rfl rfl (by simp [hdevice, hin])
        (by simp [hw, h3, hne, hdevice, hin])

theorem wins_csrRead (hk : keyCmd k = Cmd.csrRead.code) :
    Wins c ⟨.core, k, v⟩ (decodeCsrRead (keyAddr k)).mnemonic := by
  rcases csr_cases (keyAddr k) with hwide | ⟨n, ha⟩
  · rw [decodeCsrRead_wide hwide]
    exact .of_row 4 [] hk rfl rfl rfl (by simpa using hwide) (by simp)
  · rw [ha, decodeCsrRead_narrow]
    split_ifs with h140
    · exact .of_row 15 [4] hk rfl rfl rfl (by simp [ha, h140]) (by simp [ha])
    · exact .of_row 18 [4, 15] hk rfl rfl rfl (by simp [ha]) (by simp [ha, h140])

theorem wins_csrWrite (hk : keyCmd k = Cmd.csrWrite.code) :
    Wins c ⟨.core, k, v⟩ (decodeCsrWrite (keyAddr k) v).mnemonic := by
  rcases csr_cases (keyAddr k) with hwide | ⟨n, ha⟩
  · rw [decodeCsrWrite_wide hwide]
    exact .of_row 5 [] hk rfl rfl rfl (by simpa using hwide) (by simp)
  · rw [ha, decodeCsrWrite_narrow]
    split_ifs with h136 h137 h138 h139
    · exact .of_row 11 [5, 12, 13, 14] hk rfl rfl rfl (by simp [ha, h136]) (by simp [ha, h136])
    · exact .of_row 12 [5, 11, 13, 14] hk rfl rfl rfl (by simp [ha, h137]) (by simp [ha, h137])
    · exact .of_row 13 [5, 11, 12, 14] hk rfl rfl rfl (by simp [ha, h138]) (by simp [ha, h138])
    · exact .of_row 14 [5, 11, 12, 13] hk rfl rfl rfl (by simp [ha, h139]) (by simp [ha, h139])
    · exact .of_row 19 [5, 11, 12, 13, 14] hk rfl rfl rfl (by simp [ha])
        (by simp [ha, h136, h137, h138, h139])

theorem wins_fetch (hk : keyCmd k = Cmd.fetch.code) : Wins c ⟨.core, k, v⟩
    (if c.cfg.inRam (keyAddr k) then Instr.fetchRam (keyAddr k) else .fetchNonram (keyAddr k)).mnemonic := by
  split_ifs with hin
  · exact .of_row 20 [] hk rfl rfl rfl (by simp [hin]) (by simp)
  · exact .of_row 27 [20] hk rfl rfl rfl (by simp [hin]) (by simp [hin])

/-- On another port than its command's a key fits only the wrong-port row. -/
theorem wrongPort_alone (cmd : Cmd) (p : Port) : p ≠ cmd.port →
    rivals cmd.code p 6 = [] ∧ (rowAt 6).fitsCommand cmd.code p = true := by
  cases cmd <;> cases p <;> decide

/-- A reserved code beside 0xB fits only the row of 0xC to 0xF, on every port. -/
theorem reservedCToF_alone (code : BitVec 4) (p : Port) : Cmd.ofCode code = none → code ≠ 0xB#4 →
    rivals code p 1 = [] ∧ (rowAt 1).fitsCommand code p = true := by
  cases p <;> revert code <;> decide

theorem wins_wrongPort (hk : keyCmd k = cmd.code) (hp : p ≠ cmd.port) :
    Wins c ⟨p, k, v⟩ "RESERVED.wrong_port" := by
  obtain ⟨hrivals, hcommand⟩ := wrongPort_alone cmd p hp
  exact .of_row 6 [] hk hrivals hcommand rfl rfl (by simp)

theorem wins_reserved (hk : Cmd.ofCode (keyCmd k) = none) : Wins c ⟨p, k, v⟩
    (if keyCmd k = 0xB#4 then Instr.reservedCmdB p (keyAddr k)
      else .reservedCmdCToF p ((keyCmd k).extractLsb' 0 2) (keyAddr k)).mnemonic := by
  split_ifs with hB
  · exact .of_row 0 [] hB (by cases p <;> rfl) (by cases p <;> rfl) rfl rfl (by simp)
  · obtain ⟨hrivals, hcommand⟩ := reservedCToF_alone _ p hk hB
    exact .of_row 1 [] rfl hrivals hcommand rfl rfl (by simp)

/-- Settles O3: the row of each way a request is taken beats its rivals. -/
theorem decodeFollowsOpcodeTable : Obligations.DecodeFollowsOpcodeTable := by
  rintro c ⟨p, k, v⟩
  change Wins c ⟨p, k, v⟩ (decode c ⟨p, k, v⟩).mnemonic
  rcases request_cases p k with hnone | ⟨cmd, hk, hp⟩ | ⟨cmd, hk, rfl⟩
  · rw [decode_reserved hnone]
    exact wins_reserved hnone
  · rw [decode_wrongPort hk hp]
    exact wins_wrongPort hk hp
  · cases cmd with
    | fetch =>
      rw [Cmd.port, decode_fetch hk]
      exact wins_fetch hk
    | load =>
      rw [Cmd.port, decode_load hk]
      exact wins_load hk
    | store =>
      rw [Cmd.port, decode_store hk]
      exact wins_store hk
    | csrRead =>
      rw [Cmd.port, decode_csrRead hk]
      exact wins_csrRead hk
    | csrWrite =>
      rw [Cmd.port, decode_csrWrite hk]
      exact wins_csrWrite hk
    | postExec =>
      rw [Cmd.port, decode_postExec hk]
      exact .of_row 30 [] hk rfl rfl rfl rfl (by simp)
    | flushAll =>
      rw [Cmd.port, decode_flushAll hk]
      exact .of_row 31 [] hk rfl rfl rfl rfl (by simp)
    | evictAll =>
      rw [Cmd.port, decode_evictAll hk]
      exact .of_row 32 [] hk rfl rfl rfl rfl (by simp)
    | getStats =>
      rw [Cmd.port, decode_getStats hk]
      exact .of_row 33 [] hk rfl rfl rfl rfl (by simp)
    | pollInput =>
      rw [Cmd.port, decode_pollInput hk]
      exact .of_row 34 [] hk rfl rfl rfl rfl (by simp)
    | restart =>
      rw [Cmd.port, decode_restart hk]
      exact .of_row 35 [] hk rfl rfl rfl rfl (by simp)

end Sys2Proof
end

section
/-! SUPPORT. The step that performs a request (spec/30_encoding.md R67, R69), the reserved keys (R71), the events of an
instruction (R63), and the statements StepRunsDecodedRequest, ReservedKeysReportDeviceFault and TransfersAreWholeLines. -/

namespace Sys2Proof.Machine

open Sys2Proof

variable {s t : State}

/-- A request at the head of the inputs is decoded and performed as it is served. -/
theorem serve_open {r : Request} {rest : List Input} (hw : s.cfg.wf) (hh : s.halted = false) (hr : s.released = false)
    (h : s.inputs = .request r :: rest) :
    serve s = exec (decode ⟨s.cfg, s.pendValid⟩ r) ((s.setInputs rest).noteRequest r.port) := by
  rw [serve_request hw h]
  exact accept_open (s := s.setInputs rest) hh hr _

/-- With no line unsettled nothing is drawn after an instruction. -/
theorem drifted_exec (i : Instr) (h : s.unsettled = []) : drifted (exec i s) = exec i s :=
  drifted_settled fun _ ht => (exec_unsettled i ht).1.trans h

/-- The step that performs a request is exec of its row on `s1`, the state without it (R67, R69). -/
theorem step_request {r : Request} {rest : List Input} (hw : s.cfg.wf) (hh : s.halted = false) (hr : s.released = false)
    (h : s.inputs = .request r :: rest) {s1 : State}
    (h1 : s1 = { s with inputs := rest, booting := if r.port = .core then false else s.booting }) :
    step s = drifted (exec (decode ⟨s.cfg, s.pendValid⟩ r) s1) ∧
      (s.unsettled = [] → step s = exec (decode ⟨s.cfg, s.pendValid⟩ r) s1) := by
  have hs1 : (s.setInputs rest).noteRequest r.port = s1 := by rw [State.noteRequest_eq, h1]; rfl
  have hstep : step s = drifted (exec (decode ⟨s.cfg, s.pendValid⟩ r) s1) := by
    rw [step, serve_open hw hh hr h, hs1]
  exact ⟨hstep, fun hsettled => hstep.trans (drifted_exec _ (by rw [h1]; exact hsettled))⟩

/-- Settles O9: a word presented by `withFetchWord` is the request at the head of the inputs. -/
theorem stepRunsDecodedRequest : Obligations.StepRunsDecodedRequest := by
  refine ⟨fun s r rest h hw hh hr s1 h1 => step_request hw hh hr h h1, fun s nbits w r hw hh hr hreq s1 h1 => ?_⟩
  subst hreq
  exact step_request (s := s.withFetchWord nbits w) (rest := s.inputs) hw hh hr rfl h1

/-- Settles O57: the outcome of a reserved key on each port. -/
theorem reservedKeysReportDeviceFault : Obligations.ReservedKeysReportDeviceFault := by
  intro s p cmd low a
  simp only [List.forall_mem_cons, List.not_mem_nil, false_implies, implies_true, and_true]
  refine ⟨?_, rfl, rfl, rfl, rfl⟩
  cases p <;> exact ⟨rfl, rfl, rfl⟩

/-- Settles O37: the events of an instruction, a power-on reset leaving the trace as it is. -/
theorem transfersAreWholeLines : Obligations.TransfersAreWholeLines := by
  intro i s t hinv h
  obtain ⟨events, hlog, hwhole⟩ : Traced s t := by
    rcases exec_served hinv i h with hserved | ⟨-, u, ok, rfl, htraced⟩
    · exact hserved.trace
    · exact htraced
  rw [hlog, List.drop_left]
  exact ⟨List.prefix_append _ _, hwhole⟩

end Sys2Proof.Machine
end

section
/-! SUPPORT. Transactions that only emit (spec/30_encoding.md R61, spec/41_bus_decode.md R113,
spec/70_reset_and_hazards.md R206): every byte accepted, or a wait cut short; and the statement UartTransmitsUpToNul. -/

namespace Sys2Proof.Machine

open Sys2Proof

variable {s : State} {bytes : List Byte}

/-- The console host accepts every byte: they are emitted and 0 is answered. -/
theorem emitAndRespond_accepted (h : s.accepts bytes.length) : emitAndRespond bytes s = .next { s with
    conOut     := s.conOut ++ bytes
    conAnswers := s.conAnswers.drop bytes.length
    resp       := some ⟨0#32, none, none⟩ } := by
  rw [emitAndRespond, emitStr_accepted bytes h]
  rfl

/-- An instruction that only emits ends where a byte is not accepted. -/
theorem endsAtConsoleCut_of_emits {i : Instr} (h : exec i s = emitAndRespond bytes s) :
    EndsAtConsoleCut s i bytes.length := by
  intro k hk haccepts
  have hcut {c : Cut} (hc : s.conAnswers.getD k none = some c) := emitStr_cut bytes hk haccepts hc
  rw [h, emitAndRespond]
  refine ⟨fun hc => ?_, fun ok hc => ?_⟩
  · rw [hcut hc]
    rfl
  · rw [hcut hc]
    refine ⟨_, rfl, .powerOn ?_ ok, rfl, rfl⟩
    rfl

/-- Settles O47: the bytes of the transaction are those of the stored value up to the first NUL. -/
theorem uartTransmitsUpToNul : Obligations.UartTransmitsUpToNul := by
  intro s w v out hout
  have hemits : exec (.storeUartTx w v) s = emitAndRespond out s := by rw [hout, ← uartBytes_eq]; rfl
  exact ⟨fun haccepts => hemits.trans (emitAndRespond_accepted haccepts), endsAtConsoleCut_of_emits hemits⟩

end Sys2Proof.Machine
end

section
/-! SUPPORT. Accesses that a failed or unanswered backing-store event ends (spec/40_cache.md R83, R84, R86,
spec/70_reset_and_hazards.md R206), and the statements FailedWriteBackKeepsVictim, FailedFillDropsVictim and
WriteThroughStoreHitWritesLine. -/

namespace Sys2Proof.Machine

open Sys2Proof

variable {s : State}

/-- A write whose first resolution stops ends there, whether or not a second line follows. -/
theorem ramWrite_stop {n : Nat} {a v : Word} {w : Stop} {u : State} (ho : s.cfg.off a + n ≤ s.cfg.ramSize)
    (h : resolve (s.cfg.tagOf (s.cfg.off a)) s = .stop w u) : ramWrite n a v s = conclude (.stop w u) := by
  rw [ramWrite, if_neg (by omega), memWrite, Config.pieces]
  split <;> simp only [writePieces, writePiece, h, Txn.andThen_stop]

/-- A read or a STORE whose first resolution stops ends there. -/
theorem access_stop {a v : Word} {i : Instr} {n : Nat} {w : Stop} {u : State}
    (hi : (i, n) ∈ ramReads a ++ ramWrites a v) (ho : s.cfg.off a + n ≤ s.cfg.ramSize)
    (h : resolve (s.cfg.tagOf (s.cfg.off a)) s = .stop w u) : exec i s = conclude (.stop w u) := by
  rcases List.mem_append.1 hi with hread | hwrite
  · rw [(ramReads_exec hread).2, ramRead_stop ho h]
  · rw [(ramWrites_exec hwrite).2, ramWrite_stop ho h]

theorem nextAnswer_of_cons {x : BsAnswer} {more : List BsAnswer} (h : s.bsAnswers = x :: more) :
    s.nextAnswer = x ∧ s.bsAnswers.tail = more := by
  simp [State.nextAnswer, h]

theorem nextAnswer_cut_of_cons {x : BsAnswer} {more : List BsAnswer} (h : s.bsAnswers = x :: more) :
    s.nextAnswer.cut = x.cut := congrArg BsAnswer.cut (nextAnswer_of_cons h).1

/-! ### A backing store that never answers (R206) -/

/-- The transaction waits for ever for the backing store. -/
def Txn.waits {α : Type} (r : Txn α) : Prop := ∃ u, r = .stop (.stuck .backingStoreNeverAnswers) u

theorem Txn.waits.andThen {α β : Type} {r : Txn α} (h : r.waits) (f : α → State → Txn β) : (r.andThen f).waits := by
  obtain ⟨u, rfl⟩ := h
  exact ⟨u, rfl⟩

theorem bsRead_never (tag : Nat) (h : s.nextAnswer.cut = some .never) : (bsRead tag s).waits := by
  rw [bsRead, h]
  exact ⟨_, rfl⟩

theorem bsWrite_never (tag : Nat) (data : List Byte) (h : s.nextAnswer.cut = some .never) :
    (bsWrite tag data s).waits := by
  rw [bsWrite, h]
  exact ⟨_, rfl⟩

theorem releaseVictim_never {v : Nat} (hv : (s.slot v).valid = true) (hd : (s.slot v).dirty = true)
    (h : s.nextAnswer.cut = some .never) : (releaseVictim v s).waits := by
  have hwrite : writeBack v s = (bsWrite (s.slot v).tag.toNat (s.slot v).data s).andThen fun ok s1 =>
      if ok then .done true (s1.setSlot v { s.slot v with dirty := false }) else .done false s1 := by
    simp [writeBack, hv, hd]
  rw [releaseVictim, hwrite]
  exact ((bsWrite_never _ _ h).andThen _).andThen _

theorem fill_never (v tag : Nat) (h : s.nextAnswer.cut = some .never) : (fill v tag s).waits :=
  (bsRead_never tag h).andThen _

/-- An access whose first resolution waits for ever waits for ever. -/
theorem access_waits {a v : Word} {i : Instr} {n : Nat} (hi : (i, n) ∈ ramReads a ++ ramWrites a v)
    (ho : s.cfg.off a + n ≤ s.cfg.ramSize) (h : (resolve (s.cfg.tagOf (s.cfg.off a)) s).waits) :
    exec i s = .fault .backingStoreNeverAnswers := by
  obtain ⟨u, hu⟩ := h
  exact access_stop hi ho hu

/-! ### Misses that the backing store fails -/

/-- A miss with a dirty victim whose write-back fails stops there. -/
theorem resolve_writeBack_fail {tag : Nat} {left : List Byte} {more : List BsAnswer} (hmiss : ¬ s.resident tag)
    (hv : (s.slot s.victim).valid = true) (hd : (s.slot s.victim).dirty = true)
    (ha : s.bsAnswers = ⟨false, left, none⟩ :: more) :
    resolve tag s = .stop (.fault .io (s.slot s.victim).tag) { s with
      accesses  := s.accesses + 1#64
      bs        := s.bs.writeBytes (s.slot s.victim).tag.toNat (left.take s.cfg.lineSize)
      bsAnswers := more
      bsLog     := s.bsLog ++ [.write (s.slot s.victim).tag.toNat (s.slot s.victim).data false] } := by
  obtain ⟨hnext, hmore⟩ := nextAnswer_of_cons ha
  rw [resolve_miss hmiss, releaseVictim_fail (s := s.countAccess) hv hd hnext hmore]
  rfl

/-- A miss with a clean victim drops it and goes on to the fill. -/
theorem resolve_clean {tag : Nat} (hmiss : ¬ s.resident tag) (hd : (s.slot s.victim).dirty = false) :
    resolve tag s =
      fill s.victim tag (s.countAccess.setSlot s.victim { s.slot s.victim with valid := false }) := by
  rw [resolve_miss hmiss, releaseVictim_clean (s := s.countAccess) hd]
  rfl

theorem Inv.valid_of_dirty (h : Inv s) {i : Nat} (hi : i < s.cfg.numLines) (hd : (s.slot i).dirty = true) :
    (s.slot i).valid = true :=
  h.dirty_valid _ (State.slot_mem (h.slot_count.symm ▸ hi)) hd

/-- Settles O32: the write-back of the dirty victim stops the first resolution, whether or not a second follows. -/
theorem failedWriteBackKeepsVictim : Obligations.FailedWriteBackKeepsVictim := by
  intro s a v i n ok left more hi hinv ho hmiss hdirty
  have hvalid := hinv.valid_of_dirty hinv.victim_lt hdirty
  refine ⟨fun ha => ?_, fun ha => access_waits hi ho ?_⟩
  · rw [access_stop hi ho (resolve_writeBack_fail hmiss hvalid hdirty ha)]
    rfl
  · rw [resolve_miss hmiss]
    exact (releaseVictim_never (s := s.countAccess) hvalid hdirty (nextAnswer_cut_of_cons ha)).andThen _

/-- Settles O33: the fill into the dropped victim stops the first resolution. -/
theorem failedFillDropsVictim : Obligations.FailedFillDropsVictim := by
  intro s a v i n ok left more hi hinv ho hmiss hclean
  have hres := resolve_clean hmiss hclean
  refine ⟨fun ha => ?_, fun ha => access_waits hi ho ?_⟩
  · obtain ⟨hnext, hmore⟩ := nextAnswer_of_cons ha
    rw [fill_fail (s := s.countAccess.setSlot s.victim _) hnext hmore] at hres
    rw [access_stop hi ho hres]
    rfl
  · rw [hres]
    exact fill_never _ _ (nextAnswer_cut_of_cons (s := s.countAccess.setSlot _ _) ha)

/-! ### A STORE that hits under WRITE_THROUGH -/

/-- A STORE inside a line that slot `k` holds: the hit, then the write policy on the changed slot. -/
theorem ramWrite_hit (hinv : Inv s) {n k : Nat} {a v : Word} (ho : s.cfg.off a + n ≤ s.cfg.ramSize)
    (hline : s.cfg.idxOf (s.cfg.off a) + n ≤ s.cfg.lineSize) (hv : (s.slot k).valid = true)
    (ht : (s.slot k).tag.toNat = s.cfg.tagOf (s.cfg.off a)) :
    ramWrite n a v s = conclude ((writePolicy k ((s.countAccess.countHit.touch k).setSlot k { s.slot k with
        data := splice (s.slot k).data (s.cfg.idxOf (s.cfg.off a)) (leBytes n v) })).andThen
      fun _ s1 => .done ⟨0#32, none, none⟩ s1) := by
  rw [ramWrite_one ho hline, writePiece, resolve_hit hinv hv ht]
  rfl

/-- Settles O35: the hit, then the line written through, which is answered OK or FAIL. -/
theorem writeThroughStoreHitWritesLine : Obligations.WriteThroughStoreHitWritesLine := by
  intro s a v i n k line hi hinv hpolicy ho hline hv ht hdata
  have hwrite := ramWrite_hit (v := v) hinv ho hline hv ht
  rw [← hdata] at hwrite
  rw [(ramWrites_exec hi).2, hwrite, ← ht]
  have hlt : k < (s.countAccess.countHit.touch k).slots.length := State.lt_of_valid hv
  refine ⟨fun left more ha => ?_, fun left more ha => ?_⟩
  · obtain ⟨hnext, hmore⟩ := nextAnswer_of_cons (s := s.countAccess.countHit.touch k) ha
    rw [writePolicy_through_ok hlt hpolicy hnext hmore]
    rfl
  · obtain ⟨hnext, hmore⟩ := nextAnswer_of_cons (s := s.countAccess.countHit.touch k) ha
    rw [writePolicy_through_fail hlt hpolicy hnext hmore]
    rfl

end Sys2Proof.Machine
end

section
/-! SUPPORT. The victim of a miss (spec/40_cache.md R85) and the events of one access (R89), and the statements
VictimIsInvalidOrLeastRecent, AccessEventsAreBounded, GetStatsReportsCounters and StoreStopsAtPieceBoundary. -/

namespace Sys2Proof.Machine

open Sys2Proof

variable {s t : State}

/-! ### The victim (R85) -/

/-- The smallest invalid slot is the victim. -/
theorem Inv.victim_invalid (h : Inv s) {k : Nat} (hk : k < s.cfg.numLines) (hinvalid : (s.slot k).valid = false)
    (hbelow : ∀ j < k, (s.slot j).valid = true) : s.victim = k := by
  have hlen : k < s.slots.length := h.slot_count ▸ hk
  have hget {j : Nat} (hj : j < s.slots.length) : s.slot j = s.slots[j] := List.getD_eq_getElem _ _ hj
  have hfind : s.slots.findIdx? (fun x => !x.valid) = some k := by
    refine List.findIdx?_eq_some_iff_getElem.2 ⟨hlen, ?_, fun j hj => ?_⟩
    · rw [← hget hlen, hinvalid]
      rfl
    · rw [← hget (by omega), hbelow j hj]
      decide
  rw [State.victim, hfind]

/-- With every slot valid the victim is the least recently used one. -/
theorem Inv.victim_leastRecent (h : Inv s) (hvalid : ∀ j < s.cfg.numLines, (s.slot j).valid = true) :
    s.lru.getLast? = some s.victim := by
  have hfind : s.slots.findIdx? (fun x => !x.valid) = none := by
    refine List.findIdx?_eq_none_iff.2 fun x hx => ?_
    obtain ⟨j, hj, rfl⟩ := State.slot_of_mem hx
    rw [hvalid j (h.slot_count ▸ hj)]
    rfl
  have hlines : 0 < s.lru.length := by
    rw [h.lru_perm.length_eq, List.length_range]
    exact h.cfg_wf.2.2.2.2.1
  have hlast := List.getLast?_eq_some_getLast (List.ne_nil_of_length_pos hlines)
  rw [State.victim, hfind, List.getLastD_eq_getLast?, hlast]
  rfl

/-- Settles O31: the two choices of R85; the one slot of NUM_LINES = 1 is the only index in range. -/
theorem victimIsInvalidOrLeastRecent : Obligations.VictimIsInvalidOrLeastRecent := by
  intro s hinv
  refine ⟨fun k => hinv.victim_invalid, hinv.victim_leastRecent, fun hone => ?_⟩
  have hlt := hinv.victim_lt
  omega

/-! ### The events of one access (R89) -/

theorem AtPort.length_bsLog_le {n : Nat} (h : AtPort n s t) : t.bsLog.length ≤ s.bsLog.length + n := by
  obtain ⟨es, hle, hported, -⟩ := h
  rw [hported.bsLog, List.length_append]
  omega

/-- Settles O36: `ramRead_ends` and `ramWrite_ends` bound the events of an access. -/
theorem accessEventsAreBounded : Obligations.AccessEventsAreBounded := by
  intro s t a v i n hi h
  rcases List.mem_append.1 hi with hread | hwrite
  · have hends := ramRead_ends n a s
    rw [← (ramReads_exec hread).2, h] at hends
    have hle := hends.length_bsLog_le
    split <;> omega
  · have hends := ramWrite_ends n a v s
    rw [← (ramWrites_exec hwrite).2, h] at hends
    have hle := hends.length_bsLog_le
    unfold pieceEvents at hle
    cases hp : s.cfg.writePolicy <;> simpa only [hp] using hle

/-- Settles O42: the model's meaning of GET_STATS, unfolded. -/
theorem getStatsReportsCounters : Obligations.GetStatsReportsCounters := fun _ => rfl

/-! ### A STORE that may stop (R166) -/

/-- A raised fault changes none of what the cache does not own. -/
theorem Inner.keepsRest_raise {u : State} (h : Inner s u) (k : FaultKind) (info : Word) :
    KeepsRest s (u.raise k info) :=
  h.rest.trans (by constructor <;> simp)

/-- Settles O25: `ramWrite_spec` says where a write may end; uncut, it stops only by an IOFault, and `Torn.partly` says
which bytes the failed event left. -/
theorem storeStopsAtPieceBoundary : Obligations.StoreStopsAtPieceBoundary := by
  intro s a v i n hi hinv hcoh huncut ho
  obtain ⟨hn, hexec⟩ := ramWrites_exec hi
  rcases ramWrite_spec (v := v) hinv hn ho with
    ⟨u, hwrote, -, -, hwrite⟩ | ⟨w, u, lines, -, hpos, hle, haccesses, htorn, hwrite⟩
  · exact ⟨_, (hexec s).trans hwrite, hwrote.inner.keepsRest _,
      .inl ⟨rfl, hwrote.inner.keepsErrors _, hwrote.holdsAll hcoh _⟩⟩
  · obtain ⟨info, rfl, haligned, hram⟩ := htorn.stop.uncut huncut
    obtain ⟨e, hfailed, m, hm, ⟨rfl, hthrough⟩, hpart⟩ := htorn.partly _ _ rfl
    rw [length_leBytes] at hm
    refine ⟨_, (hexec s).trans hwrite, htorn.inner.keepsRest_raise _ _, .inr ⟨by simp, by simp, info, e, lines, ?_,
      haligned, hram, ?_, hfailed.fail, hfailed.tag, hpos, hle, ?_, ?_⟩⟩
    · rw [State.raise_errLog, htorn.inner.errors.errLog]
    · rw [State.raise_bsLog, hfailed.last]
    · rw [State.raise_accesses, haccesses]
    · rintro own rfl
      exact ⟨hthrough, hpart.holdsBytes hm hcoh (by simp) (by simp) (by simp)⟩

end Sys2Proof.Machine
end

section
/-! SUPPORT. A one-line access while the backing store answers OK (spec/40_cache.md R82 to R88): the state a miss leaves
with a clean and with a dirty victim, what the read or the STORE then makes of it, and the statements
WriteBackStoreHitStaysInCache, MissFillsVictim and MissWritesDirtyVictimFirst. -/

namespace Sys2Proof.Machine

open Sys2Proof

variable {s u : State} {a v : Word} {n w tag : Nat}

/-- Settles O34: the hit, then the slot dirtied. -/
theorem writeBackStoreHitStaysInCache : Obligations.WriteBackStoreHitStaysInCache := by
  intro s a v i n k hi hinv hpolicy ho hline hv ht
  have hlt : k < (s.countAccess.countHit.touch k).slots.length := State.lt_of_valid hv
  rw [(ramWrites_exec hi).2, ramWrite_hit hinv ho hline hv ht, writePolicy_back hlt hpolicy]
  rfl

theorem State.quiet.nextAnswer_good (h : s.quiet) : ∃ left, s.nextAnswer = ⟨true, left, none⟩ := by
  obtain ⟨hok, hcut⟩ := h.nextAnswer
  exact ⟨s.nextAnswer.left, by rw [← hok, ← hcut]⟩

/-- The premise is on the draws alone. -/
theorem State.quiet.congr (h : s.quiet) (ha : u.bsAnswers = s.bsAnswers) (hc : u.conAnswers = s.conAnswers) : u.quiet :=
  (DrawsLeft.of_eq ha hc).quiet h

theorem State.quiet.logEvent (h : s.quiet) (e : BsEvent) : (s.logEvent e).quiet := (DrawsLeft.logEvent s e).quiet h

/-! ### The state a miss leaves (R83, R84) -/

/-- Line `tag` was read from the image into slot `w` (R84). -/
def State.filled (w tag : Nat) (s : State) : State :=
  { s with
    slots     := s.slots.set w ⟨true, BitVec.ofNat 32 tag, false, s.bs.readBytes tag s.cfg.lineSize⟩
    lru       := w :: s.lru.filter (· != w)
    bsAnswers := s.bsAnswers.tail
    bsLog     := s.bsLog ++ [.read tag true] }

/-- An access was counted and the line of the victim written to the image (R83). -/
def State.victimWritten (s : State) : State :=
  { s with
    accesses  := s.accesses + 1#64
    bs        := s.bs.writeBytes (s.slot s.victim).tag.toNat (s.slot s.victim).data
    bsAnswers := s.bsAnswers.tail
    bsLog     := s.bsLog ++ [.write (s.slot s.victim).tag.toNat (s.slot s.victim).data true] }

@[simp] theorem State.filled_cfg (s : State) (w tag : Nat) : (s.filled w tag).cfg = s.cfg := rfl

@[simp] theorem State.filled_slots (s : State) (w tag : Nat) : (s.filled w tag).slots =
    s.slots.set w ⟨true, BitVec.ofNat 32 tag, false, s.bs.readBytes tag s.cfg.lineSize⟩ := rfl

@[simp] theorem State.filled_bsLog (s : State) (w tag : Nat) :
    (s.filled w tag).bsLog = s.bsLog ++ [.read tag true] := rfl

theorem State.slot_filled (h : w < s.slots.length) : (s.filled w tag).slot w =
    ⟨true, BitVec.ofNat 32 tag, false, s.bs.readBytes tag s.cfg.lineSize⟩ :=
  State.slot_setSlot_same (s := s.logEvent (.read tag true)) h _

theorem State.quiet.filled (h : s.quiet) (w tag : Nat) : (s.filled w tag).quiet :=
  (h.logEvent (.read tag true)).congr rfl rfl

theorem State.quiet.victimWritten (h : s.quiet) : s.victimWritten.quiet :=
  (h.logEvent (.write (s.slot s.victim).tag.toNat (s.slot s.victim).data true)).congr rfl rfl

/-- What the slot held before the fill does not matter. -/
theorem fill_quiet (h : s.quiet) (w tag : Nat) (x : Slot) :
    fill w tag (s.setSlot w x) = .done w (s.filled w tag) := by
  obtain ⟨left, hnext⟩ := h.nextAnswer_good
  rw [fill_ok (s := s.setSlot w x) hnext rfl, State.setSlot_slots, List.set_set]
  rfl

/-- A miss with a clean or invalid victim reads the line into its slot (R83, R84). -/
theorem resolve_miss_clean (hquiet : s.quiet) (hmiss : ¬ s.resident tag) (hclean : (s.slot s.victim).dirty = false) :
    resolve tag s = .done s.victim (s.countAccess.filled s.victim tag) := by
  rw [resolve_clean hmiss hclean, fill_quiet (s := s.countAccess) (hquiet.congr rfl rfl)]

/-- A miss with a dirty victim first writes the victim's line (R83, R89). -/
theorem resolve_miss_dirty (hinv : Inv s) (hquiet : s.quiet) (hmiss : ¬ s.resident tag)
    (hdirty : (s.slot s.victim).dirty = true) :
    resolve tag s = .done s.victim (s.victimWritten.filled s.victim tag) := by
  obtain ⟨left, hnext⟩ := hquiet.nextAnswer_good
  have hrelease : releaseVictim s.victim s.countAccess = .done ()
      (s.victimWritten.setSlot s.victim { s.slot s.victim with valid := false, dirty := false }) :=
    releaseVictim_ok (s := s.countAccess) (hinv.valid_of_dirty hinv.victim_lt hdirty) hdirty hnext rfl
  rw [resolve_miss hmiss, hrelease, Txn.andThen_done, fill_quiet hquiet.victimWritten]

/-- The write-back of a dirty victim leaves the bytes of an absent line as they were (I-tag, R43). -/
theorem Inv.readBytes_victimWritten (h : Inv s) (haligned : tag % s.cfg.lineSize = 0) (hmiss : ¬ s.resident tag)
    (hdirty : (s.slot s.victim).dirty = true) :
    s.victimWritten.bs.readBytes tag s.cfg.lineSize = s.bs.readBytes tag s.cfg.lineSize := by
  have hvalid := h.valid_of_dirty h.victim_lt hdirty
  have hother : tag ≠ (s.slot s.victim).tag.toNat := fun heq => hmiss (heq ▸ State.resident_slot hvalid)
  have hdisjoint := Config.lines_disjoint haligned (h.tag_slot hvalid).1 hother
  have hlen := h.data_length s.victim
  exact Memory.readBytes_congr fun p _ _ => Memory.read_writeBytes_outside h.image_wf (by omega)

/-- The word of a one-line read is that of the image's bytes at its offset (R68). -/
theorem wordOf_imageLine (m : Memory) (c : Config) {o : Nat} (hline : c.idxOf o + n ≤ c.lineSize) (hn : n ≤ 4) :
    wordOf (leWord (((m.readBytes (c.tagOf o) c.lineSize).drop (c.idxOf o)).take n)) n fun j => m.read (o + j) := by
  obtain ⟨hlen, hbytes⟩ := lineSlice (Memory.length_readBytes m (c.tagOf o) c.lineSize) hline
  refine wordOf_leWord hlen hn fun j hj => ?_
  rw [hbytes j hj, Memory.getD_readBytes _ _ (by omega), ← Nat.add_assoc, Config.tagOf_add_idxOf]

/-! ### The access after the miss (R86 to R88)

The line `tag` of a one-line access is resolved by reading it into slot `w`, in the state `u`. -/

section

variable {line : List Byte} (ho : s.cfg.off a + n ≤ s.cfg.ramSize)
  (hline : s.cfg.idxOf (s.cfg.off a) + n ≤ s.cfg.lineSize) (htag : tag = s.cfg.tagOf (s.cfg.off a))
  (hlt : w < u.slots.length) (hres : resolve tag s = .done w (u.filled w tag)) (hcfg : u.cfg = s.cfg)

include ho hline htag hlt hres hcfg

/-- A read answers the bytes of the line (R87). -/
theorem ramRead_filled (hread : line = u.bs.readBytes tag s.cfg.lineSize) :
    ramRead n a s = .next { u.filled w tag with
      slots := u.slots.set w ⟨true, BitVec.ofNat 32 tag, false, line⟩
      resp  := some ⟨leWord ((line.drop (s.cfg.idxOf (s.cfg.off a))).take n), none, none⟩ } := by
  rw [ramRead_one ho hline, ← htag, hres, Txn.andThen_done, State.slot_filled hlt, hread, ← hcfg]
  rfl

variable (hstored : line = splice (u.bs.readBytes tag s.cfg.lineSize) (s.cfg.idxOf (s.cfg.off a)) (leBytes n v))

include hstored

/-- A STORE changes the line and applies the write policy (R88). -/
theorem ramWrite_filled :
    ramWrite n a v s = conclude ((writePolicy w ((u.filled w tag).setSlot w
      ⟨true, BitVec.ofNat 32 tag, false, line⟩)).andThen fun _ s1 => .done ⟨0#32, none, none⟩ s1) := by
  rw [ramWrite_one ho hline, writePiece, ← htag, hres, Txn.andThen_done, State.slot_filled hlt, hstored, hcfg]

/-- Under WRITE_BACK the slot is then dirty (R86). -/
theorem ramWrite_filled_back (hpolicy : s.cfg.writePolicy = .writeBack) :
    ramWrite n a v s = .next { u.filled w tag with
      slots := u.slots.set w ⟨true, BitVec.ofNat 32 tag, true, line⟩
      resp  := some ⟨0#32, none, none⟩ } := by
  rw [ramWrite_filled ho hline htag hlt hres hcfg hstored,
    writePolicy_back (by simpa using hlt) (by simpa [hcfg] using hpolicy), State.filled_slots, List.set_set]
  rfl

/-- Under WRITE_THROUGH the whole line is written to the image and the slot is clean (R86). -/
theorem ramWrite_filled_through (hquiet : u.quiet) (hpolicy : s.cfg.writePolicy = .writeThrough) :
    ramWrite n a v s = .next { u.filled w tag with
      slots     := u.slots.set w ⟨true, BitVec.ofNat 32 tag, false, line⟩
      bs        := u.bs.writeBytes tag line
      bsAnswers := u.bsAnswers.tail.tail
      bsLog     := u.bsLog ++ [.read tag true, .write tag line true]
      resp      := some ⟨0#32, none, none⟩ } := by
  have hword : tag < 2 ^ 32 := htag ▸ lt_of_le_of_lt (Nat.sub_le _ _) (BitVec.isLt _)
  have hlog := List.append_assoc u.bsLog [.read tag true] [.write tag line true]
  obtain ⟨left, hnext⟩ := (hquiet.filled w tag).nextAnswer_good
  rw [ramWrite_filled ho hline htag hlt hres hcfg hstored,
    writePolicy_through_ok (by simpa using hlt) (by simpa [hcfg] using hpolicy) hnext rfl, State.filled_slots,
    List.set_set, BitVec.toNat_ofNat, Nat.mod_eq_of_lt hword, State.filled_bsLog, hlog]
  rfl

end

/-- Settles O29: the state `resolve_miss_clean` leaves, then the access. -/
theorem missFillsVictim : Obligations.MissFillsVictim := by
  intro s a v i n tag line hinv hquiet ho hline htag hmiss hclean
  have hres := resolve_miss_clean hquiet hmiss hclean
  have hlt : s.victim < s.countAccess.slots.length := hinv.slot_count.symm ▸ hinv.victim_lt
  refine ⟨fun hi hread => ?_, fun hi hstored => ?_⟩
  · obtain ⟨hn, hexec⟩ := ramReads_exec hi
    have hword := wordOf_imageLine s.bs s.cfg hline (width_bounds hn).2
    rw [← htag, ← hread] at hword
    exact ⟨_, hword, (hexec s).trans (ramRead_filled ho hline htag hlt hres rfl hread)⟩
  · rw [(ramWrites_exec hi).2]
    exact ⟨ramWrite_filled_back ho hline htag hlt hres rfl hstored,
      ramWrite_filled_through ho hline htag hlt hres rfl hstored (hquiet.congr rfl rfl)⟩

/-- Settles O30: the state `resolve_miss_dirty` leaves, then the access. -/
theorem missWritesDirtyVictimFirst : Obligations.MissWritesDirtyVictimFirst := by
  intro s a v i n tag line hinv hquiet ho hline htag hmiss hdirty
  have hres := resolve_miss_dirty hinv hquiet hmiss hdirty
  have hlt : s.victim < s.victimWritten.slots.length := hinv.slot_count.symm ▸ hinv.victim_lt
  have hbytes := hinv.readBytes_victimWritten (htag ▸ s.cfg.tagOf_mod _) hmiss hdirty
  have hlog (es : List BsEvent) : s.bsLog ++ .write (s.slot s.victim).tag.toNat (s.slot s.victim).data true :: es =
      s.victimWritten.bsLog ++ es := by simp [State.victimWritten]
  simp only [hlog]
  refine ⟨fun hi hread => ?_, fun hi hstored => ?_⟩
  · obtain ⟨hn, hexec⟩ := ramReads_exec hi
    have hword := wordOf_imageLine s.bs s.cfg hline (width_bounds hn).2
    rw [← htag, ← hread] at hword
    exact ⟨_, hword, (hexec s).trans (ramRead_filled ho hline htag hlt hres rfl (hread.trans hbytes.symm))⟩
  · rw [← hbytes] at hstored
    rw [(ramWrites_exec hi).2]
    exact ⟨ramWrite_filled_back ho hline htag hlt hres rfl hstored,
      ramWrite_filled_through ho hline htag hlt hres rfl hstored hquiet.victimWritten⟩

end Sys2Proof.Machine
end

section
/-! SUPPORT. The sweeps of FLUSH_ALL and EVICT_ALL exactly (spec/40_cache.md R97, R98), whatever the backing store
answers: `SlotSwept` is one slot of a sweep, `SweptTo` the slots below an index, and the statements
FlushAllWritesDirtyLines and EvictAllEmptiesCache. -/

namespace Sys2Proof.Machine

open Sys2Proof

variable {s t u : State} {f : Nat → State → Txn Bool} {g : Slot → Slot} {i k : Nat} {ok : Bool}

/-! ### One slot -/

/-- Slot `i` was swept: where it is dirty its line was written once, with one answer; where that write failed
(`ok` is false) the slot is as it was and the failure recorded, else it became `g` of itself. -/
structure SlotSwept (g : Slot → Slot) (i : Nat) (s t : State) (ok : Bool) : Prop where
  result  : ok = !(s.dirtyAt i && !s.nextAnswer.ok)
  rest    : KeepsRest s t
  stats   : SameStats s t
  resp    : t.resp = s.resp
  others  : ∀ j, j ≠ i → t.slot j = s.slot j
  swept   : t.slot i = if ok then g (s.slot i) else s.slot i
  answers : t.bsAnswers = if s.dirtyAt i then s.bsAnswers.tail else s.bsAnswers
  events  : t.bsLog = s.bsLog ++
    if s.dirtyAt i then [.write (s.slot i).tag.toNat (s.slot i).data s.nextAnswer.ok] else []
  errLog  : t.errLog = s.errLog ++ if ok then [] else [⟨.io, (s.slot i).tag⟩]
  latch   : t.ioFaultLatch = (s.ioFaultLatch || !ok)

/-- `f` sweeps one slot, where a dirty slot is valid and the next answer cuts nothing short. -/
def SweepsExactly (f : Nat → State → Txn Bool) (g : Slot → Slot) : Prop :=
  ∀ (s : State) (i : Nat), ((s.slot i).dirty = true → (s.slot i).valid = true) → s.nextAnswer.cut = none →
    (f i s).Spec (fun ok t => SlotSwept g i s t ok) fun _ _ => False

theorem dirtyAt_eq_dirty (hvalid : (s.slot i).dirty = true → (s.slot i).valid = true) :
    s.dirtyAt i = (s.slot i).dirty := by
  unfold State.dirtyAt
  cases hd : (s.slot i).dirty with
  | false => rw [Bool.and_false]
  | true => rw [hvalid hd, Bool.and_true]

theorem flushSlot_sweepsExactly : SweepsExactly flushSlot fun x => { x with dirty := false } := by
  intro s i hvalid hcut
  have hdirtyAt := dirtyAt_eq_dirty hvalid
  unfold flushSlot
  cases hd : (s.slot i).dirty with
  | false =>
    rw [hd] at hdirtyAt
    rw [writeBack_clean hd, Txn.andThen_done, if_pos rfl, Txn.spec_done]
    exact {
      result  := by simp [hdirtyAt]
      rest    := .refl s
      stats   := ⟨rfl, rfl, rfl⟩
      resp    := rfl
      others  := fun _ _ => rfl
      swept   := by rw [if_pos rfl, ← hd]
      answers := by simp [hdirtyAt]
      events  := by simp [hdirtyAt]
      errLog  := by simp
      latch   := by simp }
  | true =>
    rw [hd] at hdirtyAt
    cases hok : s.nextAnswer.ok with
    | true =>
      have hnext : s.nextAnswer = ⟨true, s.nextAnswer.left, none⟩ := by rw [← hok, ← hcut]
      rw [writeBack_ok (hvalid hd) hd hnext rfl, Txn.andThen_done, if_pos rfl, Txn.spec_done]
      exact {
        result  := by simp [hok]
        rest    := by constructor <;> rfl
        stats   := ⟨rfl, rfl, rfl⟩
        resp    := rfl
        others  := fun _ hj => State.slot_setSlot_other hj _
        swept   := State.slot_setSlot_same (State.lt_of_valid (hvalid hd)) _
        answers := by simp [hdirtyAt]
        events  := by simp [hdirtyAt, hok]
        errLog  := by simp
        latch   := by simp }
    | false =>
      have hnext : s.nextAnswer = ⟨false, s.nextAnswer.left, none⟩ := by rw [← hok, ← hcut]
      rw [writeBack_fail (hvalid hd) hd hnext rfl, Txn.andThen_done, if_neg Bool.false_ne_true, Txn.spec_done]
      exact {
        result  := by simp [hdirtyAt, hok]
        rest    := by constructor <;> rfl
        stats   := ⟨rfl, rfl, rfl⟩
        resp    := rfl
        others  := fun _ _ => rfl
        swept   := rfl
        answers := by simp [hdirtyAt]
        events  := by simp [hdirtyAt, hok]
        errLog  := rfl
        latch   := by simp }

/-- A slot after it is invalidated; past the last slot it was invalid before. -/
theorem State.slot_invalidate (s : State) (i : Nat) :
    (s.setSlot i { s.slot i with valid := false }).slot i = { s.slot i with valid := false } := by
  by_cases hi : i < s.slots.length
  · exact State.slot_setSlot_same hi _
  · rw [State.slot_setSlot, if_neg (by omega), State.slot_out (by omega)]
    rfl

theorem evictSlot_sweepsExactly : SweepsExactly evictSlot fun x => { x with valid := false, dirty := false } := by
  intro s i hvalid hcut
  refine Txn.Spec.andThen (flushSlot_sweepsExactly s i hvalid hcut) ?_
  rintro ok t ⟨hok, hrest, hstats, hresp, hothers, hswept, hanswers, hevents, herrLog, hlatch⟩
  cases ok with
  | true =>
    refine ⟨hok, hrest.trans (by constructor <;> rfl), ⟨hstats.lru, hstats.accesses, hstats.hits⟩, hresp,
      fun j hj => ?_, ?_, hanswers, hevents, herrLog, hlatch⟩
    · rw [State.slot_setSlot_other hj, hothers j hj]
    · rw [State.slot_invalidate, hswept]
      rfl
  | false => exact ⟨hok, hrest, hstats, hresp, hothers, hswept, hanswers, hevents, herrLog, hlatch⟩

/-! ### The slots below an index -/

/-- The slots below `k` were swept in ascending order (R97, R98). -/
structure SweptTo (s t : State) (g : Slot → Slot) (k : Nat) : Prop where
  rest    : KeepsRest s t
  stats   : SameStats s t
  resp    : t.resp = s.resp
  slots   : ∀ j, t.slot j = if j < k ∧ s.sweepFails j = false then g (s.slot j) else s.slot j
  answers : t.bsAnswers = s.bsAnswers.drop ((List.range k).countP s.dirtyAt)
  events  : t.bsLog = s.bsLog ++ ((List.range k).filter s.dirtyAt).map fun j =>
    .write (s.slot j).tag.toNat (s.slot j).data (s.sweepAnswer j).ok
  errLog  : t.errLog = s.errLog ++ ((List.range k).filter s.sweepFails).map fun j => ⟨.io, (s.slot j).tag⟩
  latch   : t.ioFaultLatch = (s.ioFaultLatch || (List.range k).any s.sweepFails)

theorem SweptTo.zero (s : State) (g : Slot → Slot) : SweptTo s s g 0 :=
  ⟨.refl s, ⟨rfl, rfl, rfl⟩, rfl, by simp, rfl, by simp, by simp, by simp⟩

/-- The next slot is as the sweep found it. -/
theorem SweptTo.slot (h : SweptTo s t g k) : t.slot k = s.slot k := by rw [h.slots, if_neg (by omega)]

/-- The next answer is that of the next slot. -/
theorem SweptTo.nextAnswer (h : SweptTo s t g k) : t.nextAnswer = s.sweepAnswer k := by
  rw [State.nextAnswer, h.answers, headD_drop, getD_drop_answers]
  rfl

theorem SweptTo.uncut (h : SweptTo s t g k) (hs : s.uncut) : t.uncut :=
  DrawsLeft.uncut ⟨h.answers ▸ List.drop_suffix _ _, h.rest.conDraws ▸ List.suffix_refl _⟩ hs

/-- One slot more. -/
theorem SweptTo.step (h : SweptTo s t g k) (h' : SlotSwept g k t u ok) :
    ok = !s.sweepFails k ∧ SweptTo s u g (k + 1) := by
  have hdirtyAt : t.dirtyAt k = s.dirtyAt k := by rw [State.dirtyAt, State.dirtyAt, h.slot]
  obtain ⟨hok, hrest, hstats, hresp, hothers, hslot, hanswers, hevents, herrLog, hlatch⟩ := h'
  rw [hdirtyAt, h.nextAnswer, ← State.sweepFails] at hok
  rw [hdirtyAt, h.answers] at hanswers
  rw [hdirtyAt, h.slot, h.nextAnswer, h.events] at hevents
  rw [h.slot, h.errLog] at herrLog
  rw [h.latch] at hlatch
  subst hok
  refine ⟨rfl, h.rest.trans hrest, h.stats.trans hstats, hresp.trans h.resp, fun j => ?_, ?_, ?_, ?_, ?_⟩
  · by_cases hj : j = k
    · subst hj
      rw [hslot, h.slot]
      simp
    · rw [hothers j hj, h.slots j]
      simp [show j < k + 1 ↔ j < k by omega]
  · rw [hanswers, List.range_succ, List.countP_append]
    cases hd : s.dirtyAt k <;> simp [hd]
  · rw [hevents, List.range_succ, List.filter_append, List.map_append, List.append_assoc]
    cases hd : s.dirtyAt k <;> simp [hd]
  · rw [herrLog, List.range_succ, List.filter_append, List.map_append, List.append_assoc]
    cases hf : s.sweepFails k <;> simp [hf]
  · rw [hlatch, List.range_succ, List.any_append, Bool.not_not, Bool.or_assoc]
    simp

/-- The loop from slot `k` on, `m` slots to go. -/
theorem overSlots_swept (hf : SweepsExactly f g) (hinv : Inv s) (huncut : s.uncut) (m : Nat) (h : SweptTo s t g k)
    (hm : k + m = s.cfg.numLines) :
    (overSlots f (List.range' k m) ((List.range k).any s.sweepFails) t).Spec
      (fun failed u => failed = (List.range s.cfg.numLines).any s.sweepFails ∧ SweptTo s u g s.cfg.numLines)
      fun _ _ => False := by
  induction m generalizing k t with
  | zero =>
    obtain rfl : k = s.cfg.numLines := hm
    exact ⟨rfl, h⟩
  | succ m ih =>
    have hvalid : (t.slot k).dirty = true → (t.slot k).valid = true := by
      rw [h.slot]
      exact hinv.valid_of_dirty (by omega)
    rw [List.range'_succ]
    refine Txn.Spec.andThen (hf t k hvalid (h.uncut huncut).nextAnswer) fun ok u hslot => ?_
    obtain ⟨rfl, hnext⟩ := h.step hslot
    have hfailed : ((List.range k).any s.sweepFails || !!s.sweepFails k) = (List.range (k + 1)).any s.sweepFails := by
      simp [List.range_succ]
    rw [hfailed]
    exact ih hnext (by omega)

/-- A sweep of every slot completes, whatever is answered, while no wait is cut short (R97, R98). -/
theorem sweep_swept (hf : SweepsExactly f g) (hinv : Inv s) (huncut : s.uncut) :
    ∃ t, conclude (sweep f s) = .next t ∧ Swept s t g := by
  have hloop := overSlots_swept hf hinv huncut s.cfg.numLines (.zero s g) (Nat.zero_add _)
  rw [← List.range_eq_range'] at hloop
  have hspec := hloop.andThen (f := fun failed s1 => .done (sweepResponse failed) s1)
    (Q := fun resp u => resp = sweepResponse ((List.range s.cfg.numLines).any s.sweepFails) ∧
      SweptTo s u g s.cfg.numLines)
    (fun failed u hu => ⟨by rw [hu.1], hu.2⟩)
  rcases conclude_spec hspec with ⟨resp, u, ⟨rfl, h⟩, hend⟩ | ⟨-, -, hfalse, -⟩
  · refine ⟨_, hend, h.rest.trans (by constructor <;> rfl), h.stats.lru, h.stats.accesses, h.stats.hits,
      fun j hj => ?_, h.events, h.errLog, h.latch, rfl⟩
    refine (h.slots j).trans ?_
    cases s.sweepFails j <;> simp [hj]
  · exact hfalse.elim

/-! ### The image after a sweep -/

/-- Where the line of an offset is clean or absent, the core sees the image there (R50, R54). -/
theorem Inv.view_clean_line (h : Inv t) (hcoh : Coherent t) {p : Nat}
    (hclean : ∀ j < t.cfg.numLines, (t.slot j).tag.toNat = t.cfg.tagOf p → (t.slot j).dirty = false) :
    t.view p = t.bs.read p := by
  by_cases hres : t.resident (t.cfg.tagOf p)
  · obtain ⟨x, hx, hv, ht⟩ := hres
    obtain ⟨j, hj, rfl⟩ := State.slot_of_mem hx
    rw [h.view_resident hv ht, hcoh _ hx hv (hclean j (h.slot_count ▸ hj) ht),
      Memory.getD_readBytes _ _ (t.cfg.idxOf_lt p), ht, Config.tagOf_add_idxOf]
  · exact State.view_absent fun x hx hv ht => hres ⟨x, hx, hv, ht⟩

/-- Settles O40: the loop of `sweep_swept`; a line it left dirty is a failed one, and the core sees the same bytes. -/
theorem flushAllWritesDirtyLines : Obligations.FlushAllWritesDirtyLines := by
  intro s hinv huncut
  obtain ⟨t, hflush, hswept⟩ := sweep_swept flushSlot_sweepsExactly hinv huncut
  refine ⟨t, hflush, hswept, fun hcoh p _ hsettled => ?_⟩
  have hserved := exec_served_uncut hinv huncut .flushAll hflush
  rw [← hserved.view rfl (by decide) hcoh p]
  refine ((exec_inv hinv .flushAll hflush).view_clean_line (hserved.coherent hcoh) fun j hj ht => ?_).symm
  rw [hserved.cfg] at hj ht
  rw [hswept.slots j hj] at ht ⊢
  split at ht
  · next hfails => exact absurd ht (hsettled j hj hfails)
  · next hfails => rw [if_neg hfails]

/-- Settles O41: the loop of `sweep_swept`; without a failure it leaves no line. -/
theorem evictAllEmptiesCache : Obligations.EvictAllEmptiesCache := by
  intro s hinv huncut
  obtain ⟨t, hevict, hswept⟩ := sweep_swept evictSlot_sweepsExactly hinv huncut
  refine ⟨t, hevict, hswept, fun hnone => ?_⟩
  have hempty : t.empty := fun x hx => by
    obtain ⟨j, hj, rfl⟩ := State.slot_of_mem hx
    rw [(exec_inv hinv .evictAll hevict).slot_count, hswept.rest.cfg] at hj
    rw [hswept.slots j hj, hnone j hj]
    rfl
  refine ⟨hempty, fun p => State.view_absent fun x hx hv => ?_⟩
  rw [hempty x hx] at hv
  cases hv

end Sys2Proof.Machine
end

section
/-! SUPPORT. The rows of LOAD, STORE and FETCH by region and width (spec/41_bus_decode.md R110 to R112), and the
statement LoadStoreFetchDispatch. -/

namespace Sys2Proof

/-- Settles O7: a LOAD and a STORE at a register of the window, in RAM and at an unmapped address; for a FETCH the
window lies outside RAM (R9). -/
theorem loadStoreFetchDispatch : Obligations.LoadStoreFetchDispatch := by
  intro c k v w hwf
  have hreg (q r : BitVec 3) : r = q ↔ devAddr r = devAddr q := devAddr_inj.symm
  refine ⟨fun hload hsize => ?_, fun hstore hsize => ?_, fun hfetch => ?_⟩
  · rw [decode_load hload, Width.code_of_ofCode hsize]
    rcases address_cases c.cfg (keyAddr k) with ⟨reg, ha⟩ | hram | hunmapped
    · rw [ha, decodeLoad_device, region_devAddr, devAddr_low]
      exact if_congr (hreg 0#3 reg) rfl (if_congr (hreg 5#3 reg) rfl rfl)
    · rw [decodeLoad_ram w hram, hram]
      rfl
    · rw [decodeLoad_unmapped w hunmapped, hunmapped]
  · rw [decode_store hstore, Width.code_of_ofCode hsize]
    rcases address_cases c.cfg (keyAddr k) with ⟨reg, ha⟩ | hram | hunmapped
    · rw [ha, decodeStore_device, region_devAddr, devAddr_low]
      exact if_congr (hreg 0#3 reg) rfl rfl
    · rw [decodeStore_ram w hram, hram]
      rfl
    · rw [decodeStore_unmapped w hunmapped, hunmapped]
  · rw [decode_fetch hfetch]
    exact if_congr (Config.region_eq_ram_iff_inRam hwf).symm rfl rfl

end Sys2Proof
end

section
/-! SUPPORT. The registers of the console window and the CSR numbers that do nothing (spec/41_bus_decode.md R114 to
R117, spec/42_csr_mux.md R136), and the accesses outside RAM (R118, R119, R161); the statements
UartReceivesPendingByte, LineStatusShowsPendingByte, UndecodedPortsDoNothing and BoundsFaultsArePrecise. -/

namespace Sys2Proof.Machine

open Sys2Proof

/-! ### The console window and the other CSR numbers -/

/-- A device load answers a value of one byte whole, whatever the width (R68). -/
theorem respondDevice_zext (w : Width) (b : Byte) (s : State) :
    respondDevice w (b.setWidth 32) s = .next (s.respond (b.setWidth 32) none) := by
  rw [respondDevice, narrow_zext]

/-- Settles O48: the pending byte and 0 are values of one byte. -/
theorem uartReceivesPendingByte : Obligations.UartReceivesPendingByte := by
  intro s w
  refine ⟨⟨s.pendByte.setWidth 32, ?_, respondDevice_zext w s.pendByte s.consumeInput⟩, respondDevice_zext w 0#8 s⟩
  exact BitVec.toNat_setWidth_of_le (by omega)

/-- UART_LSR is a value of one byte. -/
theorem lineStatus_eq_zext (s : State) : s.lineStatus = (if s.pendValid then 0x61#8 else 0x60#8).setWidth 32 := by
  unfold State.lineStatus
  cases s.pendValid <;> decide

/-- Settles O49: 0x60 and 0x61 are values of one byte. -/
theorem lineStatusShowsPendingByte : Obligations.LineStatusShowsPendingByte := by
  intro s w
  have hstatus : exec (.loadUartLsr w) s = respondDevice w s.lineStatus s := rfl
  rw [hstatus, lineStatus_eq_zext, respondDevice_zext, apply_ite (BitVec.setWidth 32)]
  rfl

/-- Settles O50: each row answers 0; a device load answers it at every width. -/
theorem undecodedPortsDoNothing : Obligations.UndecodedPortsDoNothing := by
  intro s w reg n v i hi
  simp only [List.mem_cons, List.not_mem_nil, or_false] at hi
  rcases hi with rfl | rfl | rfl | rfl
  · exact respondDevice_zext w 0#8 s
  all_goals rfl

/-! ### Accesses outside RAM -/

variable {s : State} {n : Nat} {a v : Word}

theorem ramRead_outside (h : s.cfg.ramSize < s.cfg.off a + n) : ramRead n a s = .next (s.raise .bounds a) := if_pos h

theorem ramWrite_outside (h : s.cfg.ramSize < s.cfg.off a + n) : ramWrite n a v s = .next (s.raise .bounds a) :=
  if_pos h

/-- Settles O23: the bounds check of the RAM rows, and the rows that only raise the fault. -/
theorem boundsFaultsArePrecise : Obligations.BoundsFaultsArePrecise := by
  intro s a v w
  refine ⟨fun i n hi hout => ?_, fun i hi => ?_⟩
  · rcases List.mem_append.1 hi with hread | hwrite
    · exact ((ramReads_exec hread).2 s).trans (ramRead_outside hout)
    · exact ((ramWrites_exec hwrite).2 s).trans (ramWrite_outside hout)
  · simp only [List.mem_cons, List.not_mem_nil, or_false] at hi
    rcases hi with rfl | rfl | rfl <;> rfl

end Sys2Proof.Machine
end

section
/-! SUPPORT. The text of DBG_DEC and DBG_HEX (spec/42_csr_mux.md R131, R132) and the low byte of DBG_CHR (R134), and
the statements DbgDecEmitsDecimalText, DbgHexEmitsEightDigits and DbgChrEmitsLowByte. -/

namespace Sys2Proof.Machine

open Sys2Proof

/-! ### Decimal text (R131) -/

/-- `digits` is the decimal text of `n`, most significant digit first, with no leading zero. -/
structure DecimalOf (digits : List Byte) (n : Nat) : Prop where
  value   : decValue digits = n
  ranges  : ∀ d ∈ digits, 0x30 ≤ d.toNat ∧ d.toNat ≤ 0x39
  leading : digits = [0x30#8] ∨ ∃ d more, digits = d :: more ∧ d ≠ 0x30#8

theorem toNat_decDigit {d : Nat} (hd : d < 10) : (BitVec.ofNat 8 (0x30 + d)).toNat = 0x30 + d :=
  Nat.mod_eq_of_lt (by omega)

theorem DecimalOf.single {d : Nat} (hd : d < 10) : DecimalOf [BitVec.ofNat 8 (0x30 + d)] d where
  value := by simp [decValue, toNat_decDigit hd]
  ranges := by
    intro x hx
    rw [List.mem_singleton.1 hx, toNat_decDigit hd]
    omega
  leading := by
    by_cases hzero : d = 0
    · exact .inl (by rw [hzero])
    · refine .inr ⟨_, [], rfl, fun heq => hzero ?_⟩
      have htoNat := congrArg BitVec.toNat heq
      rw [toNat_decDigit hd, BitVec.toNat_ofNat] at htoNat
      omega

/-- A digit put after the text of a number that is not 0. -/
theorem DecimalOf.snoc {digits : List Byte} {n d : Nat} (h : DecimalOf digits n) (hn : n ≠ 0) (hd : d < 10) :
    DecimalOf (digits ++ [BitVec.ofNat 8 (0x30 + d)]) (10 * n + d) where
  value := by
    have hvalue := h.value
    unfold decValue at hvalue ⊢
    rw [List.foldl_append, hvalue, List.foldl_cons, List.foldl_nil, toNat_decDigit hd, Nat.add_sub_cancel_left]
  ranges := by
    intro x hx
    rcases List.mem_append.1 hx with hx | hx
    · exact h.ranges x hx
    · exact (DecimalOf.single hd).ranges x hx
  leading := by
    rcases h.leading with rfl | ⟨e, more, rfl, he⟩
    · exact absurd h.value.symm hn
    · exact .inr ⟨e, _, rfl, he⟩

/-- With fuel for its digits, `decDigits` puts the text of `n` before `acc`. -/
theorem decDigits_decimal {fuel n : Nat} (hfuel : 0 < fuel) (hn : n < 10 ^ fuel) (acc : List Byte) :
    ∃ digits, decDigits fuel n acc = digits ++ acc ∧ DecimalOf digits n := by
  induction fuel generalizing n acc with
  | zero => omega
  | succ fuel ih =>
    have hd : n % 10 < 10 := Nat.mod_lt n (by decide)
    rw [decDigits]
    split
    · next hlast =>
      have hdigit : n % 10 = n := Nat.mod_eq_of_lt (by omega)
      rw [hdigit] at hd ⊢
      exact ⟨_, rfl, .single hd⟩
    · next hmore =>
      have hless : n / 10 < 10 ^ fuel := Nat.div_lt_of_lt_mul (by rwa [← Nat.pow_succ'])
      have hpos : 0 < fuel := Nat.pos_of_ne_zero fun h0 => hmore (by rw [h0] at hless; omega)
      obtain ⟨digits, htext, hdec⟩ := ih hpos hless (BitVec.ofNat 8 (0x30 + n % 10) :: acc)
      refine ⟨digits ++ [BitVec.ofNat 8 (0x30 + n % 10)], by rw [htext, List.append_assoc]; rfl, ?_⟩
      simpa only [Nat.div_add_mod] using hdec.snoc hmore hd

/-- The magnitude of a word has at most ten digits. -/
theorem natAbs_toInt_lt (v : Word) : v.toInt.natAbs < 10 ^ 10 := by
  have hlow := v.le_toInt
  have hhigh := v.toInt_lt
  omega

/-- DBG_DEC's text: a minus sign for a negative value, then its magnitude. -/
theorem decText_decimal (v : Word) : ∃ digits, DecimalOf digits v.toInt.natAbs ∧
    decText v = (if v.toInt < 0 then [0x2D#8] else []) ++ digits := by
  obtain ⟨digits, htext, hdec⟩ := decDigits_decimal (by decide) (natAbs_toInt_lt v) []
  rw [List.append_nil] at htext
  refine ⟨digits, hdec, ?_⟩
  rw [decText, htext]
  split <;> rfl

/-- Settles O51: the text is a sign and a `DecimalOf` the magnitude. -/
theorem dbgDecEmitsDecimalText : Obligations.DbgDecEmitsDecimalText := by
  intro s v
  obtain ⟨digits, hdec, htext⟩ := decText_decimal v
  have hemits : exec (.csrwDbgDec v) s = emitAndRespond (decText v) s := rfl
  exact ⟨digits, decText v, htext, hdec.value, hdec.ranges, hdec.leading,
    fun haccepts => hemits.trans (emitAndRespond_accepted haccepts), endsAtConsoleCut_of_emits hemits⟩

/-! ### Hexadecimal text and single bytes (R132, R134) -/

/-- Digit `k` of a word, as a number. -/
theorem toNat_nibble (v : Word) (k : Nat) : (v.extractLsb' (4 * k) 4).toNat = v.toNat / 16 ^ k % 16 := by
  rw [BitVec.extractLsb'_toNat, Nat.shiftRight_eq_div_pow, Nat.pow_mul]

theorem hexDigit_eq (d : Nat) : hexDigit d = BitVec.ofNat 8 (if d < 10 then 0x30 + d else 0x61 + (d - 10)) :=
  (apply_ite (BitVec.ofNat 8) _ _ _).symm

/-- Settles O52: digit `k` of the text is the one of `v / 16 ^ k % 16`. -/
theorem dbgHexEmitsEightDigits : Obligations.DbgHexEmitsEightDigits := by
  intro s v
  have hemits : exec (.csrwDbgHex v) s = emitAndRespond (hexText v) s := rfl
  refine ⟨fun haccepts => ?_, endsAtConsoleCut_of_emits hemits⟩
  rw [hemits, emitAndRespond_accepted haccepts]
  simp only [hexText, toNat_nibble, hexDigit_eq, List.length_map, List.length_cons, List.length_nil]

/-- Settles O55: the one byte emitted is the low byte of the value. -/
theorem dbgChrEmitsLowByte : Obligations.DbgChrEmitsLowByte := by
  intro s v
  have hlow : v.setWidth 8 = v.extractLsb' 0 8 := BitVec.setWidth_eq_extractLsb' (by decide)
  have hemits : exec (.csrwDbgChr v) s = emitAndRespond [v.extractLsb' 0 8] s := by rw [← hlow]; rfl
  exact ⟨fun haccepts => hemits.trans (emitAndRespond_accepted haccepts), endsAtConsoleCut_of_emits hemits⟩

end Sys2Proof.Machine
end

section
/-! SUPPORT. The string of DBG_STR (spec/42_csr_mux.md R133, spec/60_exceptions.md R162, R166): what the stream keeps
beside the cache and the console, and the statements DbgStrEmitsString and DbgStrKeepsEmittedPrefix. -/

namespace Sys2Proof.Machine

open Sys2Proof

variable {s u : State}

/-- Beside the console output and its draws, the rest stays. -/
theorem Went.keepsRest {failed : Bool} {out : List Byte} (h : Went s u failed out) :
    KeepsRest { s with conOut := u.conOut, conAnswers := u.conAnswers } u := by
  obtain ⟨hvalid, hbyte, -⟩ := h.console
  obtain ⟨hhalted, hpost, hreleased, hbooting, hinputs, hunsettled, hdraws⟩ := h.host
  exact ⟨h.cfg, hvalid, hbyte, hhalted, rfl, rfl, hpost, hreleased, hbooting, hinputs, hunsettled, hdraws⟩

theorem Went.conOut {failed : Bool} {out : List Byte} (h : Went s u failed out) : u.conOut = s.conOut ++ out :=
  h.console.2.2

/-- A transaction that recorded no fault keeps the latch and the error stream. -/
theorem Went.keepsErrors {out : List Byte} (h : Went s u false out) : KeepsErrors s u := by
  obtain ⟨records, hlog, hnone, -⟩ := h.errors
  exact ⟨by rw [h.latch, Bool.or_false], by rw [hlog, hnone.1 rfl, List.append_nil]⟩

theorem State.length_stringAt_le (s : State) (p n : Nat) : (s.stringAt p n).length ≤ n := by
  have hle := (List.takeWhile_prefix (l := s.viewBytes p n) (· != 0#8)).length_le
  rwa [State.length_viewBytes] at hle

/-- A string of `len` bytes at RAM offset `p` is read with its NUL, or to the end of RAM. -/
theorem Counted.countsString {ramSize p len : Nat} (hram : ramSize ≤ 2 ^ 32) (hlen : len ≤ ramSize - p)
    (h : Counted s u (min (ramSize - p) (len + 1)))
    (haccesses : u.accesses = s.accesses + BitVec.ofNat 64 (min (ramSize - p) (len + 1))) :
    CountsLines s u (if p + len < ramSize then len + 1 else len) := by
  have hread : min (ramSize - p) (len + 1) = if p + len < ramSize then len + 1 else len := by split <;> omega
  rw [← hread]
  exact h.countsLines haccesses (by omega) (Nat.le_refl _)

/-- Settles O53: with OK answers `dbgStr_spec` leaves the whole string emitted. -/
theorem dbgStrEmitsString : Obligations.DbgStrEmitsString := by
  intro s v
  refine ⟨fun hout => if_pos hout, ?_⟩
  rintro hinv hcoh hquiet hv str rfl
  rcases dbgStr_spec hinv hv with ⟨out, u, hwent, hstr, hdraws, haccesses, hcount, hexec⟩ | ⟨w, -, u, -, hstop, -⟩
  · obtain rfl := hstr hcoh
    exact ⟨_, hexec, rfl, hwent.conOut, hdraws, hwent.keepsRest.trans ((Inner.refl u).keepsRest _),
      ⟨hwent.keepsErrors.latch, hwent.keepsErrors.errLog⟩,
      fun p => (u.view_setResp _ p).trans (hwent.view hcoh p),
      hcount.countsString (Config.ramSize_le hinv.cfg_wf) (s.length_stringAt_le _ _) haccesses⟩
  · exact absurd hquiet hstop.1

/-- Settles O54: uncut, `dbgStr_spec` leaves the whole string emitted, or its first bytes and an IOFault. -/
theorem dbgStrKeepsEmittedPrefix : Obligations.DbgStrKeepsEmittedPrefix := by
  rintro s v str hinv hcoh huncut hv rfl
  rcases dbgStr_spec hinv hv with
    ⟨out, u, hwent, hstr, hdraws, -, -, hexec⟩ | ⟨w, out, u, hwent, hstop, hprefix, -, hfault, hexec⟩
  · exact ⟨_, out, hexec, hwent.conOut, hdraws, hwent.keepsRest.trans ((Inner.refl u).keepsRest _),
      fun p => (u.view_setResp _ p).trans (hwent.view hcoh p),
      .inl ⟨rfl, ⟨hwent.keepsErrors.latch, hwent.keepsErrors.errLog⟩, hstr hcoh⟩⟩
  · obtain ⟨info, rfl, haligned, hram⟩ := hstop.uncut huncut
    obtain ⟨hlength, hdraws, haccesses⟩ := hfault _ _ rfl
    refine ⟨u.raise .io info, out, hexec, hwent.conOut, hdraws,
      hwent.keepsRest.trans ((Inner.refl u).keepsRest_raise _ _),
      fun p => (u.view_raise _ _ p).trans (hwent.view hcoh p), .inr ⟨rfl, rfl, hprefix hcoh, hlength, haccesses, info,
        ?_, haligned, hram⟩⟩
    rw [State.raise_errLog, hwent.keepsErrors.errLog]

end Sys2Proof.Machine
end

section
/-! SUPPORT. The pending input byte (spec/42_csr_mux.md R135, R137), and the statements PollInputDeliversOrLosesByte and
DbgInConsumesOrAnswersSentinel. -/

namespace Sys2Proof.Machine

open Sys2Proof

/-- Settles O44: the two branches of `deliverInput`. -/
theorem pollInputDeliversOrLosesByte : Obligations.PollInputDeliversOrLosesByte := by
  intro s b
  have hexec : exec (.pollInput b) s = .next ((s.deliverInput b).setResp none) := rfl
  rw [hexec, State.deliverInput]
  refine ⟨fun hnone => ?_, fun hpending => ?_⟩
  · rw [if_neg (by simp [hnone])]
    rfl
  · rw [if_pos hpending]
    rfl

/-- A zero-extended byte has bit 31 clear. -/
theorem msb_zext (b : Byte) : (b.setWidth 32 : Word).msb = false := by
  simp [BitVec.msb_setWidth]

/-- Settles O56: the two branches of DBG_IN; R8 sets bit 31 of the sentinel. -/
theorem dbgInConsumesOrAnswersSentinel : Obligations.DbgInConsumesOrAnswersSentinel := by
  rintro s ⟨-, -, -, -, -, -, hsentinel, -⟩
  refine ⟨fun hpending => ⟨s.pendByte.setWidth 32, ?_, msb_zext _, if_pos hpending⟩, fun hnone => ⟨hsentinel, ?_⟩⟩
  · exact BitVec.toNat_setWidth_of_le (by omega)
  · exact if_neg (by simp [hnone])

end Sys2Proof.Machine
end

section
/-! SUPPORT. The core hooks (spec/43_core_hooks.md R150, R151): the code POST_EXEC hands on, the run loop's reaction by
code, a power-off while no wait is cut short, and the statements PostExecSurfacesIoFault and RunLoopActsOnStepResult. -/

namespace Sys2Proof.Machine

open Sys2Proof

variable {s : State} {code : Word}

/-! ### POST_EXEC (R150) -/

theorem State.setLatch_self (s : State) : s.setLatch s.ioFaultLatch = s := rfl

theorem surfaceCode_latched (h : s.ioFaultLatch = true) : s.surfaceCode code = s.cfg.failCode := if_pos h

theorem surfaceCode_unlatched (h : s.ioFaultLatch = false) : s.surfaceCode code = code := if_neg (by simp [h])

theorem exec_postExec (s : State) (insn code : Word) : exec (.postExec insn code) s =
    .next (((s.setLatch false).setPostCode (some (s.surfaceCode code))).respond (s.surfaceCode code) none) := rfl

/-- Settles O45: the latch chooses the code handed on; a clear latch is cleared to no effect. -/
theorem postExecSurfacesIoFault : Obligations.PostExecSurfacesIoFault := by
  intro s insn code
  rw [exec_postExec]
  refine ⟨fun hlatched => ?_, fun hclear => ?_⟩
  · rw [surfaceCode_latched hlatched]
    rfl
  · rw [surfaceCode_unlatched hclear, ← hclear, s.setLatch_self]
    rfl

/-! ### The table of R151 and power-off (R194) -/

theorem runAction_none {c : Config} (h : code ∈ [0#32, 1#32, 3#32]) : runAction c code = .none :=
  if_pos (by simpa using h)

/-- R8 keeps POWEROFF_CODE apart from the codes that do nothing. -/
theorem runAction_poweroffCode {c : Config} (hw : c.wf) : runAction c c.poweroffCode = .powerOff := by
  obtain ⟨-, -, -, -, -, -, -, -, hpoweroff, -⟩ := hw
  rw [runAction, if_neg (by simp_all), if_pos rfl]

theorem runAction_restart {c : Config} (h : code ∉ [0#32, 1#32, 3#32, c.poweroffCode]) :
    runAction c code = .restart := by
  rw [runAction, if_neg (by simp_all), if_neg (by simp_all)]

/-- While no wait is cut short, power-off is FLUSH_ALL and then the release of the backing store. -/
theorem powerOff_uncut (hinv : Inv s) (huncut : s.uncut) :
    ∃ t, exec .flushAll s = .next t ∧ powerOff s = .next { t with released := true } := by
  have hspec := sweep_spec flushSlot_spec hinv
  have hflush : exec .flushAll s = conclude (sweep flushSlot s) := rfl
  rw [hflush, powerOff]
  cases hs : sweep flushSlot s with
  | done r u => exact ⟨_, rfl, rfl⟩
  | stop w u =>
    rw [hs] at hspec
    obtain ⟨-, -, hstop, hcut⟩ := hspec
    obtain ⟨info, rfl, -⟩ := hstop.uncut huncut
    exact hcut.elim

/-! ### The run loop's reaction by code -/

theorem runLoopStep_none {image : List (Nat × List Byte)} (hcode : s.postCode = some code)
    (hnone : code ∈ [0#32, 1#32, 3#32]) : runLoopStep image s = .next (s.setPostCode none) := by
  simp only [runLoopStep, hcode, runAction_none hnone]

theorem runLoopStep_poweroffCode {image : List (Nat × List Byte)} (hinv : Inv s) (huncut : s.uncut)
    (hopen : s.halted = false) (hreleased : s.released = false) (hcode : s.postCode = some s.cfg.poweroffCode) :
    ∃ t, exec .flushAll (s.setPostCode none) = .next t ∧
      runLoopStep image s = .next { t with released := true } := by
  obtain ⟨t, hflush, hoff⟩ := powerOff_uncut (hinv.setPostCode none) ⟨huncut.answers, huncut.console⟩
  refine ⟨t, hflush, ?_⟩
  simp only [runLoopStep, hcode, runAction_poweroffCode hinv.cfg_wf]
  exact (accept_open (s := s.setPostCode none) hopen hreleased _).trans hoff

/-- RESTART empties the cache, so every part in range is loaded. -/
theorem runLoopStep_restart {image : List (Nat × List Byte)} (hopen : s.halted = false) (hreleased : s.released = false)
    (hcode : s.postCode = some code) (hrestart : code ∉ [0#32, 1#32, 3#32, s.cfg.poweroffCode])
    (himage : ∀ part ∈ image, part.1 + part.2.length ≤ s.cfg.ramSize) :
    runLoopStep image s = .next { (s.setPostCode none).restartBlock with
      bs := image.foldl (fun m part => m.writeBytes part.1 part.2) s.bs } := by
  simp only [runLoopStep, hcode, runAction_restart hrestart]
  refine (accept_open (s := s.setPostCode none) hopen hreleased _).trans ?_
  exact loadImage_eq image (State.mayBulkLoad_restartBlock (s.setPostCode none)) himage

/-- The step that serves the run loop. -/
theorem step_runLoop {image : List (Nat × List Byte)} {rest : List Input} (hw : s.cfg.wf)
    (h : s.inputs = .host (.runLoop image) :: rest) : step s = drifted (runLoopStep image (s.setInputs rest)) :=
  congrArg drifted (serve_host hw h)

/-- Settles O46: the reaction to the code by the table, on the state without the input, and then the draw. -/
theorem runLoopActsOnStepResult : Obligations.RunLoopActsOnStepResult := by
  intro s s1 image rest code hw hin hcode hopen hreleased hs1
  obtain rfl : s1 = (s.setInputs rest).setPostCode none := hs1
  rw [step_runLoop hw hin]
  refine ⟨fun hnone => ?_, ?_, fun hrestart himage => ⟨_, rfl, ?_⟩⟩
  · exact congrArg drifted (runLoopStep_none (s := s.setInputs rest) hcode hnone)
  · rintro rfl hinv huncut
    obtain ⟨t, hflush, hoff⟩ := runLoopStep_poweroffCode (image := image) (hinv.setInputs rest)
      ⟨huncut.answers, huncut.console⟩ hopen hreleased hcode
    exact ⟨t, hflush, congrArg drifted hoff⟩
  · exact congrArg drifted (runLoopStep_restart (s := s.setInputs rest) hopen hreleased hcode hrestart himage)

end Sys2Proof.Machine
end

section
/-! SUPPORT. RESTART and the writes of the image by another agent (spec/70_reset_and_hazards.md R193, R195, R198, R201):
what a restart leaves in a slot, what the loads of an image leave at an offset, what serving any input keeps of the
unsettled lines, and the statements RestartDiscardsDirtyLines, BulkLoadOverwritesItsRange,
ExternalWriteUnsettlesTouchedLines and RebootIsIdempotent. -/

namespace Sys2Proof.Machine

open Sys2Proof

variable {s t : State}

/-! ### RESTART (R193) -/

theorem exec_restart (s : State) : exec .restart s = .next s.restartBlock := rfl

theorem State.slot_restartBlock (s : State) (j : Nat) :
    s.restartBlock.slot j = { s.slot j with valid := false, dirty := false } := by
  have hmap := List.getD_map (n := j) s.slots (Slot.empty s.cfg.lineSize) fun x =>
    { x with valid := false, dirty := false }
  exact hmap

theorem State.restartBlock_restartBlock (s : State) : s.restartBlock.restartBlock = s.restartBlock := by
  simp [State.restartBlock]

/-- Settles O43: each slot keeps its tag and line buffer under the two cleared bits, and no slot answers a lookup. -/
theorem restartDiscardsDirtyLines : Obligations.RestartDiscardsDirtyLines := by
  intro s
  refine ⟨s.restartBlock, exec_restart s, rfl, by simp, fun j => ?_, (State.empty_restartBlock s).view⟩
  rw [State.slot_restartBlock]
  exact ⟨rfl, rfl, rfl, rfl⟩

/-! ### The step that writes the image -/

theorem step_imageWrite {offset : Nat} {bytes : List Byte} {rest : List Input} (hw : s.cfg.wf)
    (h : s.inputs = .host (.imageWrite offset bytes) :: rest) :
    step s = drifted (writeImage offset bytes (s.setInputs rest)) :=
  congrArg drifted (serve_host hw h)

/-- Settles O58: with no slot valid the core sees the image, and the image reads the bytes written. -/
theorem bulkLoadOverwritesItsRange : Obligations.BulkLoadOverwritesItsRange := by
  refine ⟨fun s => ⟨_, exec_restart s, State.empty_restartBlock s, rfl⟩, ?_⟩
  intro s offset bytes rest hinv hempty hbooting hin
  have hload : (s.setInputs rest).mayBulkLoad = true := State.mayBulkLoad_iff.2 ⟨hbooting, hempty⟩
  rw [step_imageWrite hinv.cfg_wf hin]
  refine ⟨fun hrange => ⟨_, congrArg drifted (writeImage_bulk hload hrange), rfl, fun p => ?_⟩,
    fun hpast => congrArg drifted (writeImage_past (s := s.setInputs rest) hpast)⟩
  have hempty' : ((s.setInputs rest).setBs (s.bs.writeBytes offset bytes)).empty := hempty
  refine (hempty'.view p).trans ?_
  rw [hempty.view]
  exact Memory.read_writeBytes hinv.image_wf offset bytes p

/-! ### Unsettled lines (R201) -/

/-- An offset in the range of a write lies in a line the write touches. -/
theorem tagOf_mem_touchedTags {c : Config} {offset n p : Nat} (hlow : offset ≤ p) (hhigh : p < offset + n) :
    c.tagOf p ∈ touchedTags c offset n :=
  mem_touchedTags.2 ⟨p - offset, by omega, by rw [Nat.add_sub_cancel' hlow]⟩

/-- The state after a write of the image that R195 does not permit (D43), before any unsettled line is drawn. -/
def State.breach (offset : Nat) (bytes : List Byte) (s : State) : State :=
  (s.setBs (s.bs.writeBytes offset bytes)).unsettle (touchedTags s.cfg offset bytes.length)

theorem writeImage_eq_breach {offset : Nat} {bytes : List Byte} (h : ¬ (s.empty ∧ s.booting = true))
    (hrange : offset + bytes.length ≤ s.cfg.ramSize) : writeImage offset bytes s = .next (s.breach offset bytes) :=
  writeImage_breach (Bool.eq_false_iff.2 fun hload => h (State.mayBulkLoad_iff.1 hload).symm) hrange

/-- A breach unsettles exactly the lines it touches. -/
theorem State.mem_unsettled_breach {offset : Nat} {bytes : List Byte} {tag : Nat} :
    tag ∈ (s.breach offset bytes).unsettled ↔
      tag ∈ s.unsettled ∨ ∃ j < bytes.length, s.cfg.tagOf (offset + j) = tag :=
  State.mem_unsettle.trans (or_comm.trans (or_congr_right mem_touchedTags))

/-- A breach changes what the core sees in no line that stays settled. -/
theorem view_breach (hinv : Inv s) {offset : Nat} {bytes : List Byte} (hrange : offset + bytes.length ≤ s.cfg.ramSize)
    {p : Nat} (hp : (s.breach offset bytes).unsettledAt p = false) : (s.breach offset bytes).view p = s.view p := by
  have houtside : ¬ (offset ≤ p ∧ p < offset + bytes.length) := fun ⟨hlow, hhigh⟩ =>
    Bool.eq_false_iff.1 hp (State.unsettledAt_iff.2 ⟨hhigh.trans_le hrange,
      State.mem_unsettle.2 (.inl (tagOf_mem_touchedTags hlow hhigh))⟩)
  exact view_imageWrite hinv bytes (by omega)

/-- No input settles a line or draws for one; the draw comes after it. -/
theorem serve_unsettled (h : serve s = .next t) : (∀ tag ∈ s.unsettled, tag ∈ t.unsettled) ∧ t.draws = s.draws := by
  rcases serve_cases h with ⟨-, rfl⟩ | ⟨e, rest, -, -, hhost⟩ | ⟨r, rest, -, -, hexec⟩
  · exact ⟨fun _ htag => htag, rfl⟩
  · exact hostStep_unsettled (s := s.setInputs rest) hhost
  · obtain ⟨hun, hdraws⟩ := exec_unsettled _ hexec
    exact ⟨fun _ htag => hun ▸ htag, hdraws⟩

/-- Settles O59: the breach leaves the settled lines alone, and so does the draw after it; no step settles a line, and
the draw ends every step. -/
theorem externalWriteUnsettlesTouchedLines : Obligations.ExternalWriteUnsettlesTouchedLines := by
  constructor
  · intro s offset bytes rest hinv hbreach hrange hin
    have hwrite : writeImage offset bytes (s.setInputs rest) = _ := writeImage_eq_breach hbreach hrange
    have hredrawn := Redrawn.drift ((s.setInputs rest).breach offset bytes)
    refine ⟨_, (step_imageWrite hinv.cfg_wf hin).trans (congrArg drifted hwrite), fun tag => ?_, fun p hp => ?_⟩
    · rw [hredrawn.unsettled]
      exact State.mem_unsettled_breach
    · have hinv' := hinv.setInputs rest
      have hsettled := (hredrawn.unsettledAt p).symm.trans hp
      calc _ = ((s.setInputs rest).breach offset bytes).view p :=
            (SeesSettled.drift (writeImage_inv hinv' hwrite)).view p hsettled
        _ = (s.setInputs rest).view p := view_breach hinv' hrange hsettled
        _ = s.view p := State.view_congr rfl rfl rfl p
  · intro s t hinv hstep
    obtain ⟨u, hserve, rfl⟩ := step_next hstep
    obtain ⟨hkept, hdraws⟩ := serve_unsettled hserve
    have hredrawn := Redrawn.drift u
    refine ⟨fun tag htag => hredrawn.unsettled ▸ hkept tag htag, fun d more hd hnodup c hc hat => ?_⟩
    exact view_drift (serve_inv hinv hserve) (hdraws.trans hd) hnodup c hc ((hredrawn.unsettledAt c.1).symm.trans hat)

/-! ### Booting twice (R198) -/

/-- The image after the bulk loads of a boot, part by part (R195; `loadImage_eq`). -/
def Memory.load (image : List (Nat × List Byte)) (m : Memory) : Memory :=
  image.foldl (fun m part => m.writeBytes part.1 part.2) m

theorem Memory.load_wf (image : List (Nat × List Byte)) {m : Memory} (hm : m.wf = true) : (m.load image).wf = true := by
  induction image generalizing m with
  | nil => exact hm
  | cons part parts ih => exact ih (Memory.writeBytes_wf hm part.1 part.2)

/-- After the loads of an image an offset reads the byte the image gives it, or what it read before when the image
gives it none. -/
theorem Memory.read_load (image : List (Nat × List Byte)) (p : Nat) :
    ∃ loaded : Option Byte, ∀ m : Memory, m.wf = true → (m.load image).read p = loaded.getD (m.read p) := by
  induction image with
  | nil => exact ⟨none, fun _ _ => rfl⟩
  | cons part parts ih =>
    obtain ⟨later, hlater⟩ := ih
    have hcons : ∀ m : Memory, m.wf = true →
        (m.load (part :: parts)).read p = later.getD ((m.writeBytes part.1 part.2).read p) :=
      fun m hm => hlater _ (Memory.writeBytes_wf hm part.1 part.2)
    by_cases hpart : part.1 ≤ p ∧ p < part.1 + part.2.length
    · refine ⟨some (later.getD (part.2.getD (p - part.1) Memory.unlisted)), fun m hm => ?_⟩
      rw [hcons m hm, Memory.read_writeBytes hm, if_pos hpart]
      rfl
    · refine ⟨later, fun m hm => ?_⟩
      rw [hcons m hm, Memory.read_writeBytes hm, if_neg hpart]

/-- Loading an image over itself changes nothing. -/
theorem Memory.load_load (image : List (Nat × List Byte)) {m : Memory} (hm : m.wf = true) :
    (m.load image).load image = m.load image := by
  have hwf := Memory.load_wf image hm
  refine Memory.ext_of_read (Memory.load_wf image hwf) hwf fun p => ?_
  obtain ⟨loaded, hread⟩ := Memory.read_load image p
  rw [hread _ hwf, hread m hm]
  cases loaded <;> rfl

/-- Settles O60: the second restart and the second load of the image are each idle. -/
theorem rebootIsIdempotent : Obligations.RebootIsIdempotent := by
  rintro s r1 u1 r2 u2 image hinv hr1 rfl hr2 rfl
  obtain rfl := Host.Outcome.next.inj hr1
  obtain rfl := Host.Outcome.next.inj hr2
  have hempty := State.empty_restartBlock s
  have hagain : s.restartBlock.restartBlock.setBs ((s.bs.load image).load image) =
      s.restartBlock.setBs (s.bs.load image) := by
    rw [s.restartBlock_restartBlock, Memory.load_load image hinv.image_wf]
  exact ⟨hagain, hempty, State.empty.view hempty⟩

end Sys2Proof.Machine
end
